-- ==== Sys2Proof/Word.lean ====
section
/-! DEFINITION. The word types of the ImagedData Huffman core: what a host access moves and what a
buffer element is made of. Nothing here computes anything. -/

namespace Sys2Proof

/-- A *word* is 32 bits, bit 31 the most significant (`00_scope.md` R9). Every register and every host
access is one word. -/
abbrev Word := BitVec 32

/-- A Cell is "exactly 24 bits" (`00_scope.md` R5). -/
abbrev Cell := BitVec 24

/-- A Symbol is a bit vector of `SYM_W` bits (`00_scope.md` R7). `SYM_W` is a parameter between 1 and 32,
so a Symbol stands in the low `SYM_W` bits of a word with zeros above; every write of one narrows it to
that (`Sys2Proof.Machine.keepLow`), and `Sys2Proof.Safety.WidthsOk` says so of every stored one. -/
abbrev Symbol := Word

/-- A weight is an unsigned integer of `WEIGHT_W` bits (`00_scope.md` R8), held like a Symbol in the low bits
of a word. Sums of weights are taken in `Nat`, exactly. -/
abbrev Weight := Word

end Sys2Proof
end

