-- ==== Sys2Proof/Config.lean ====
section
/-! DEFINITION. What one built block fixes for good: the five size parameters the spec leaves open
(`00_scope.md` R6, `93_implementation_defined.md` U9), the reference configuration, and the one free value of
the model, which has no body. -/

namespace Sys2Proof

/-- The parameters of `00_scope.md` R6, all of them arguments of the model. -/
structure Params where
  /-- `SYM_W`, bits in a Symbol. -/
  symW : Nat
  /-- `K_MAX`, most distinct Symbols a weight table or tree holds. -/
  kMax : Nat
  /-- `WEIGHT_W`, bits in a weight. -/
  weightW : Nat
  /-- `SEQ_MAX`, most Symbols in `SEQIN` and in `SYMOUT`. -/
  seqMax : Nat
  /-- `CELLS_MAX`, most Cells in `CELLBUF`. -/
  cellsMax : Nat
  deriving DecidableEq, Repr

/-- The reference configuration, the column *reference* of `00_scope.md` R6. -/
def Params.reference : Params :=
  { symW := 8, kMax := 256, weightW := 32, seqMax := 65536, cellsMax := 65536 }

/-- FREE VALUE (log entry 3). The bits a host read returns where the word covers buffer elements nothing
has written (`10_state.md` R50, `93_implementation_defined.md` U1: "any value in exactly the unwritten bits of
the word returned"). The arguments are the state's plain counter `epoch`, the space and the index, so
that two reads of one address with no write or command between them agree (`20_memory.md` R62). It has no
body: no proof can see a value of it. -/
opaque Config.freeWord : Nat → Nat → Nat → Word

end Sys2Proof
end

