-- ==== Sys2Proof/Syntax.lean ====
section
/-! DEFINITION. The twelve commands of the opcode table (`30_encoding.md` R92). -/

namespace Sys2Proof

/-- One command. No command has a register field, an immediate or a mode bit: every operand is a fixed
register or buffer (`30_encoding.md` R90, R93), so no constructor has an argument. -/
inductive Instr where
  /-- `0x00` NOP (R195). -/
  | nop
  /-- `0x01` COUNT (R112). -/
  | count
  /-- `0x02` BUILD (R125). -/
  | build
  /-- `0x03` ENCSYM (R141). -/
  | encsym
  /-- `0x04` ENCODE (R143). -/
  | encode
  /-- `0x05` DECODE (R146). -/
  | decode
  /-- `0x06` PACK (R162). -/
  | pack
  /-- `0x07` UNPACK (R165). -/
  | unpack
  /-- `0x08` TOGRID (R181). -/
  | togrid
  /-- `0x09` FROMGRID (R185). -/
  | fromgrid
  /-- `0x0A` TRIM (R168). -/
  | trim
  /-- `0x0F` RESET (R196). -/
  | reset
  deriving DecidableEq, Repr

end Sys2Proof
end

