-- ==== Sys2Proof/WellFormed.lean ====
section
/-! DEFINITION. What a well-formed command and a well-formed configuration are. -/

namespace Sys2Proof

/-- A command carries no operand (`30_encoding.md` R93: "Operand forms are therefore fixed per command and need
no decoding"), so there is nothing in one that could be ill-formed. -/
def Instr.wf : Instr → Bool
  | .nop => true
  | .count => true
  | .build => true
  | .encsym => true
  | .encode => true
  | .decode => true
  | .pack => true
  | .unpack => true
  | .togrid => true
  | .fromgrid => true
  | .trim => true
  | .reset => true

/-- `1 <= SYM_W <= 32` (`00_scope.md` R6). -/
abbrev Params.symWOk (p : Params) : Prop := 1 ≤ p.symW ∧ p.symW ≤ 32

/-- `1 <= K_MAX <= 2^SYM_W and K_MAX <= 2^28` (`00_scope.md` R6, `90_conflicts.md` C14). -/
abbrev Params.kMaxOk (p : Params) : Prop := 1 ≤ p.kMax ∧ p.kMax ≤ 2 ^ p.symW ∧ p.kMax ≤ 2 ^ 28

/-- `1 <= WEIGHT_W <= 32, and SEQ_MAX < 2^WEIGHT_W` (`00_scope.md` R6). -/
abbrev Params.weightWOk (p : Params) : Prop :=
  1 ≤ p.weightW ∧ p.weightW ≤ 32 ∧ p.seqMax < 2 ^ p.weightW

/-- `1 <= SEQ_MAX < 2^32` (`00_scope.md` R6). -/
abbrev Params.seqMaxOk (p : Params) : Prop := 1 ≤ p.seqMax ∧ p.seqMax < 2 ^ 32

/-- `1 <= CELLS_MAX, and 24 x CELLS_MAX < 2^32` (`00_scope.md` R6). -/
abbrev Params.cellsMaxOk (p : Params) : Prop := 1 ≤ p.cellsMax ∧ 24 * p.cellsMax < 2 ^ 32

/-- Every constraint of the table of `00_scope.md` R6. -/
abbrev Params.wf (p : Params) : Prop :=
  p.symWOk ∧ p.kMaxOk ∧ p.weightWOk ∧ p.seqMaxOk ∧ p.cellsMaxOk

end Sys2Proof
end

