-- ==== Sys2Proof/Decode.lean ====
section
/-! DEFINITION. From a command word to a command and back (`30_encoding.md` R90 to R94): the opcode map, the
decoder, total on every 32-bit word and rejecting by name, and the encoder. -/

namespace Sys2Proof

/-- Why a word selects no command (`30_encoding.md` R91, R94). Either way `IllegalCommandError` is raised with the
word as information; the two names only say which of the two checks failed. -/
inductive DecodeError where
  /-- A bit of 31:8 is not zero: "illegal whatever its low byte". -/
  | highBits (c : Word)
  /-- Bits 31:8 are zero and the opcode is one of the reserved ones, `0x0B` to `0x0E`, `0x10` to `0xFF`. -/
  | reservedOpcode (c : Word)
  deriving DecidableEq, Repr

/-- The opcode map of `30_encoding.md` R92, row by row. -/
def opcodeRows : List (BitVec 8 × Instr) :=
  [ (0x00, .nop), (0x01, .count), (0x02, .build), (0x03, .encsym), (0x04, .encode), (0x05, .decode),
    (0x06, .pack), (0x07, .unpack), (0x08, .togrid), (0x09, .fromgrid), (0x0A, .trim), (0x0F, .reset) ]

/-- The row of the opcode map with the opcode `op`, if there is one. -/
def findOpcode (op : BitVec 8) : Option Instr :=
  (opcodeRows.find? (fun row => row.1 == op)).map (fun row => row.2)

/-- The field `zero` of format `C`, bits 31:8 (`30_encoding.md` R90). -/
def zeroField (c : Word) : BitVec 24 := c.extractLsb' 8 24

/-- The field `op` of format `C`, bits 7:0 (`30_encoding.md` R90). -/
def opField (c : Word) : BitVec 8 := c.extractLsb' 0 8

/-- Decoding a command word, in the order of `30_encoding.md` R91. -/
def decode (c : Word) : Except DecodeError Instr :=
  if zeroField c ≠ 0 then .error (.highBits c)
  else
    match findOpcode (opField c) with
    | some i => .ok i
    | none => .error (.reservedOpcode c)

/-- The opcode of a command, from the same map (`30_encoding.md` R92). -/
def opcode : Instr → BitVec 8
  | .nop => 0x00
  | .count => 0x01
  | .build => 0x02
  | .encsym => 0x03
  | .encode => 0x04
  | .decode => 0x05
  | .pack => 0x06
  | .unpack => 0x07
  | .togrid => 0x08
  | .fromgrid => 0x09
  | .trim => 0x0A
  | .reset => 0x0F

/-- The command word of a command: 24 zero bits above the opcode (`30_encoding.md` R90). -/
def encode (i : Instr) : Word := (0 : BitVec 24) ++ opcode i

/-- The command the decoder reads from a table word. The block has no bytes (`20_memory.md` R64): a command is one
32-bit word, and the table's bit numbers are the word's own. -/
def decodeTableWord (nbits w : Nat) : Option Instr :=
  match decode (BitVec.ofNat 32 (w % 2 ^ nbits)) with
  | .ok i => some i
  | .error _ => none

end Sys2Proof
end

