-- ==== Sys2Proof/Machine/Arith.lean ====
section
/-! DEFINITION. The constants of `00_scope.md` R5, the arithmetic of R9 and R10, and the sizes derived from the
parameters in R6. -/

namespace Sys2Proof.Machine

/-- `CELL_W` (`00_scope.md` R5). -/
def cellW : Nat := 24

/-- `MARKER`, the padding-marker Cell, all bits one (`00_scope.md` R5). -/
def marker : Cell := 0xFFFFFF

/-- `NIL`, the word that stands for an absent node index (`10_state.md` R37). -/
def nil : Word := 0xFFFFFFFF

/-- The constant of the register `ID` (`10_state.md` R27). -/
def idWord : Word := 0x49444801

/-- A number as a 32-bit word. Every use writes a value that a check or a constraint of `00_scope.md` R6 has
bounded (R9: "every rule that writes a register states why the value fits"). -/
def wordOf (n : Nat) : Word := BitVec.ofNat 32 n

/-- Ceiling of `a / b`: for `b > 0` the least `q` with `q x b >= a` (`00_scope.md` R10). -/
def cdiv (a b : Nat) : Nat := (a + (b - 1)) / b

/-- The first `w` from the candidate on with `w x w >= n`, tried at most `fuel` times. -/
def csqrtFrom (n : Nat) : (fuel candidate : Nat) → Nat
  | 0, w => w
  | fuel + 1, w => if n ≤ w * w then w else csqrtFrom n fuel (w + 1)

/-- Ceiling of the square root: the least `w` with `w x w >= n` (`00_scope.md` R10). -/
def csqrt (n : Nat) : Nat := csqrtFrom n n 0

/-- `val(s)`: the number a bit sequence spells, index 0 the most significant digit (`00_scope.md` R9). -/
def bitsVal (s : List Bool) : Nat := s.foldl (fun a b => 2 * a + b.toNat) 0

/-- `bitsof_r(v)`: the `r`-bit sequence that spells `v mod 2^r` (`00_scope.md` R9). -/
def bitsOf (r v : Nat) : List Bool := (List.range r).map (fun t => v.testBit (r - 1 - t))

/-- The word whose low `w` bits are one and whose other bits are zero. -/
def lowMask (w : Nat) : Word := wordOf (2 ^ w - 1)

/-- What a host write to an element of `w` bits keeps of the word: its low `w` bits (`20_memory.md` R67). -/
def keepLow (w : Nat) (v : Word) : Word := v &&& lowMask w

/-- `NODE_MAX = 2 x K_MAX - 1` (`00_scope.md` R6). -/
def nodeMax (p : Params) : Nat := 2 * p.kMax - 1

/-- `CODE_W = max(1, K_MAX - 1)` (`00_scope.md` R6). -/
def codeW (p : Params) : Nat := max 1 (p.kMax - 1)

/-- `CODE_WORDS = cdiv(CODE_W, 32)` (`00_scope.md` R6). -/
def codeWords (p : Params) : Nat := cdiv (codeW p) 32

/-- `BITS_MAX = 24 x CELLS_MAX` (`00_scope.md` R6). -/
def bitsMax (p : Params) : Nat := cellW * p.cellsMax

/-- `BIT_WORDS = cdiv(BITS_MAX, 32)` (`00_scope.md` R6). -/
def bitWords (p : Params) : Nat := cdiv (bitsMax p) 32

/-- `GRID_MAX = csqrt(CELLS_MAX)^2` (`00_scope.md` R6). -/
def gridMax (p : Params) : Nat := csqrt p.cellsMax ^ 2

end Sys2Proof.Machine
end

