-- ==== Sys2Proof/Machine/State.lean ====
section
/-! DEFINITION. The state of the block (`10_state.md` R20 to R50) as plain data, the host's pending accesses
beside it, the faults and refusals, and the state after reset. -/

namespace Sys2Proof.Machine

/-- A buffer: the elements something has written since the last reset, as (index, element) pairs with
strictly rising indices (`Memory.wf`). An index that is not listed holds no defined value (`10_state.md` R50),
so no listed entry can equal what an unlisted index reads as. -/
abbrev Memory (α : Type) := List (Nat × α)

/-- One tree node of the arena (`10_state.md` R40): "a leaf has `s = some(v)`, `l = r = none`; an internal node has
`s = none`, `l = some(a)`, `r = some(b)`", so the two kinds are the two constructors. -/
inductive Node where
  /-- A leaf with its weight and its Symbol. -/
  | leaf (w : Weight) (s : Symbol)
  /-- An internal node with its weight and the arena indices of its left and right child. -/
  | internal (w : Weight) (l r : Nat)
  deriving DecidableEq, Repr

/-- The nine address spaces of `20_memory.md` R61. -/
inductive Space where
  | reg | seqin | wt | node | codebuf | bitbuf | cellbuf | grid | symout
  deriving DecidableEq, Repr

/-- The registers of space 0, in the order of their indices (`20_memory.md` R61). -/
inductive Reg where
  | id | cmd | status | err | einfo | erracc | arg | seqlen | nsym | nbits | ncells | totalbits
  | gw | gh | outlen | padidx | root | nnodes | codelen
  | cfgSymw | cfgKmax | cfgWeightw | cfgSeqmax | cfgCellsmax
  deriving DecidableEq, Repr

/-- One move of the host (`00_scope.md` R4, R12): a read or a write of one word at a logical address
`(space, index)`, 4 and 32 bits (`20_memory.md` R60), or the platform's reset signal between two of them
(`70_reset_and_hazards.md` R230, R242). A write to `CMD` executes a command (`20_memory.md` R63). -/
inductive HostMove where
  | read (space : BitVec 4) (index : Word)
  | write (space : BitVec 4) (index : Word) (v : Word)
  | hardReset
  deriving DecidableEq, Repr

/-- The eight error kinds of `60_exceptions.md` R201. An error is no stop of the machine: it is recorded and the
block accepts the next command (R203). -/
inductive ErrKind where
  | emptyAlphabet | unknownSymbol | uninitializedTree | malformedStream | framing | invalidTable
  | capacity | illegalCommand
  deriving DecidableEq, Repr

/-- Why a run stops. -/
inductive Fault where
  /-- Raised by every command that reads a buffer, when it reads an element that nothing has written since
  the last reset: `93_implementation_defined.md` U1 asks a model to "fault the run" and never to pick zero. Safe: the
  hardware would go on with some value, the model claims nothing. The fields say which element. -/
  | unwrittenElement (space : Space) (index : Nat)
  /-- Raised by ENCSYM, ENCODE and DECODE when `TV = 1` and the arena holds no tree that `code` or the walk
  is defined on. Safe, and no run reaches it: `Sys2Proof.Safety.TreeOk` holds at reset and every step
  keeps it (`10_state.md` R41). -/
  | brokenTree
  deriving DecidableEq, Repr

/-- Why a move has no meaning. -/
inductive Refusal where
  /-- Raised by `exec` for an instruction that has no meaning yet. Safe. No arm of this model answers it. -/
  | notModelled (mnemonic : String)
  /-- Raised by the host access at an undefined address: `20_memory.md` R70 and `93_implementation_defined.md` U2 say that
  a model "refuses the access rather than returning zero". Safe. -/
  | undefinedAddress (space : BitVec 4) (index : Word)
  deriving DecidableEq, Repr

/-- The state. The first group is the block's own state, every item of `10_state.md` R20 (`CMD` stores nothing, R23,
and `ID` is a constant, R27). The last group is the model's own: the host's side of the interface. -/
structure State where
  /-- The parameters that the `CFG` registers report (R28). No step changes them. -/
  cfg : Params
  /-- `TV`, bit 0 of `STATUS` (R24). -/
  tv : Bool
  /-- `ERR` (R25). -/
  err : BitVec 4
  /-- `EINFO` (R25). -/
  einfo : Word
  /-- `ERRACC`, bits 8:1 used (R26). -/
  erracc : Word
  /-- `ARG`, `SYM_W` bits (R29). -/
  arg : Symbol
  /-- `SEQLEN` (R30). -/
  seqlen : Word
  /-- `NSYM` (R31). -/
  nsym : Word
  /-- `NBITS` (R32). -/
  nbits : Word
  /-- `NCELLS` (R33). -/
  ncells : Word
  /-- `TOTALBITS` (R34). -/
  totalbits : Word
  /-- `GW` (R35). -/
  gw : Word
  /-- `GH` (R35). -/
  gh : Word
  /-- `OUTLEN` (R36). -/
  outlen : Word
  /-- `PADIDX` (R36). -/
  padidx : Word
  /-- `CODELEN` (R36). -/
  codelen : Word
  /-- `ROOT` (R37). -/
  root : Word
  /-- `NNODES` (R37). -/
  nnodes : Word
  /-- `SEQIN` (R38). -/
  seqin : Memory Symbol
  /-- The weights `WT[i].w` (R39). The host writes the two words of an entry one at a time, so each has its own
  record of what is written. -/
  wtW : Memory Weight
  /-- The Symbols `WT[i].s` (R39). -/
  wtS : Memory Symbol
  /-- `NODE`, the arena (R40). -/
  node : Memory Node
  /-- `CODEBUF`, by bit (R42). -/
  codebuf : Memory Bool
  /-- `BITBUF`, by bit (R43). -/
  bitbuf : Memory Bool
  /-- `CELLBUF` (R44). -/
  cellbuf : Memory Cell
  /-- `GRID`, row-major (R45). -/
  grid : Memory Cell
  /-- `SYMOUT` (R46). -/
  symout : Memory Symbol
  /-- The model's own: the moves the host has still to make, the next one first. -/
  pending : List HostMove
  /-- The model's own: the word the last host read returned. -/
  readData : Word
  /-- The model's own: a plain counter of the host writes, commands and hard resets so far, the first argument
  of the free value `Config.freeWord`. -/
  epoch : Nat
  deriving DecidableEq, Repr

/-- The state right after a hard reset (`10_state.md` R49, `70_reset_and_hazards.md` R230) in the reference
configuration: the registers at the values of R49, no buffer element written. The last three fields are
the model's own (log entries 2 and 3). -/
def State.reset : State :=
  { cfg := Params.reference
    tv := false, err := 0, einfo := 0, erracc := 0
    arg := 0, seqlen := 0, nsym := 0, nbits := 0, ncells := 0, totalbits := 0, gw := 0, gh := 0
    outlen := 0, padidx := 0, codelen := 0, root := nil, nnodes := 0
    seqin := [], wtW := [], wtS := [], node := [], codebuf := [], bitbuf := [], cellbuf := []
    grid := [], symout := []
    pending := [], readData := 0, epoch := 0 }

end Sys2Proof.Machine
end

