-- ==== Sys2Proof/Machine/Flags.lean ====
section
/-! DEFINITION. The flags of the block, `TV`, `ERR`, `EINFO` and `ERRACC` (`40_frequency.md`, opening): their codes,
their bits and the words they read as. -/

namespace Sys2Proof.Machine

/-- The error code of a kind (`60_exceptions.md` R201). -/
def errCode : ErrKind → BitVec 4
  | .emptyAlphabet => 1
  | .unknownSymbol => 2
  | .uninitializedTree => 3
  | .malformedStream => 4
  | .framing => 5
  | .invalidTable => 6
  | .capacity => 7
  | .illegalCommand => 8

/-- The word with only bit `code` of `ERRACC` set (`10_state.md` R26). -/
def errBit (e : ErrKind) : Word := wordOf (2 ^ (errCode e).toNat)

/-- The word `STATUS` reads as: `TV` in bit 0, zeros above (`10_state.md` R24). -/
def statusWord (tv : Bool) : Word := wordOf tv.toNat

/-- The sub-causes `EINFO` names for a `CapacityError` (`60_exceptions.md` R209): `SEQLEN > SEQ_MAX`. -/
def capSeq : Word := 1
/-- More than `K_MAX` distinct Symbols, or `NSYM > K_MAX` (R209). -/
def capSyms : Word := 2
/-- The sum of the weights is `2^WEIGHT_W` or more (R209). -/
def capWeight : Word := 3
/-- `NBITS > BITS_MAX`, or an encoded stream longer than `BITS_MAX` (R209). -/
def capBits : Word := 4
/-- `NCELLS > CELLS_MAX` (R209). -/
def capCells : Word := 5
/-- `GW x GH > CELLS_MAX` (R209). -/
def capGrid : Word := 6
/-- More than `SEQ_MAX` decoded Symbols (R209). -/
def capOut : Word := 7

/-- `EINFO` of `InvalidTableError` for a Symbol that also stands at a lower index, `0x80000000 + i`
(`41_huffman_build.md` R124). -/
def repeatInfo (i : Nat) : Word := wordOf (0x80000000 + i)

end Sys2Proof.Machine
end

