-- ==== Sys2Proof/Machine/Ops.lean ====
section
/-! DEFINITION. The named operations: over buffers, over the error record (`raise` and its counterpart), over the
result registers and buffers of each command (`10_state.md` R51), and reset. -/

namespace Sys2Proof.Machine

/-- The canonical form of a buffer: indices strictly rising. -/
abbrev Memory.wf {α : Type} (m : Memory α) : Prop := m.Pairwise (fun a b => a.1 < b.1)

/-- Element `i`, or `none` when nothing has written it. -/
def Memory.read {α : Type} : Memory α → Nat → Option α
  | [], _ => none
  | (j, v) :: rest, i => if j = i then some v else Memory.read rest i

/-- The buffer with element `i` written, in its place. -/
def Memory.write {α : Type} : Memory α → Nat → α → Memory α
  | [], i, v => [(i, v)]
  | (j, u) :: rest, i, v =>
    if i < j then (i, v) :: (j, u) :: rest
    else if i = j then (i, v) :: rest
    else (j, u) :: Memory.write rest i v

/-- The buffer with the elements `vs` written from index `i` on. -/
def Memory.writeRange {α : Type} : Memory α → Nat → List α → Memory α
  | m, _, [] => m
  | m, i, v :: vs => Memory.writeRange (m.write i v) (i + 1) vs

/-- How a command stops before its writes: it raises an error, with information, or the run faults. -/
inductive Stop where
  | error (e : ErrKind) (info : Word)
  | fault (f : Fault)
  deriving DecidableEq, Repr

/-- A check of a command's pseudocode: when `bad` holds, raise `e` with `info` (`00_scope.md` R13). -/
def failIf (bad : Bool) (e : ErrKind) (info : Word) : Except Stop Unit :=
  if bad then .error (.error e info) else .ok ()

/-- A command reads element `i` of a buffer (`93_implementation_defined.md` U1: an unwritten one faults the run). -/
def readElem {α : Type} (sp : Space) (m : Memory α) (i : Nat) : Except Stop α :=
  match m.read i with
  | some v => .ok v
  | none => .error (.fault (.unwrittenElement sp i))

/-- A command reads the elements `[i..i+n)` of a buffer, lowest first. -/
def readElems {α : Type} (sp : Space) (m : Memory α) : (i n : Nat) → Except Stop (List α)
  | _, 0 => .ok []
  | i, n + 1 => do
    let v ← readElem sp m i
    let vs ← readElems sp m (i + 1) n
    .ok (v :: vs)

/-- TAKING AN ERROR, the one "trap entry" of this hardware (`60_exceptions.md` R200, R215, `00_scope.md` R13): three
writes and nothing else. No state is saved, no mode changes and control goes nowhere. -/
def State.raise (s : State) (e : ErrKind) (info : Word) : State :=
  { s with err := errCode e, einfo := info, erracc := s.erracc ||| errBit e }

/-- The counterpart (`60_exceptions.md` R216, `10_state.md` R25): a command that succeeds clears `ERR` and `EINFO` and leaves
`ERRACC` alone. -/
def State.succeed (s : State) : State :=
  { s with err := 0, einfo := 0 }

/-- The end of a command (`30_encoding.md` R99): its writes and then the cleared error record, or the error taken in
the state the command started from. -/
def commit (s : State) : Except Stop State → Host.Outcome State Fault Refusal
  | .ok t => .next t.succeed
  | .error (.error e info) => .next (s.raise e info)
  | .error (.fault f) => .fault f

/-- Everything the block holds goes to its reset value (`10_state.md` R49, R50); the parameters are unchanged (R28),
and the host's side is not the block's. Hard reset and RESET are this one function (`70_reset_and_hazards.md`
R231). -/
def State.resetBlock (s : State) : State :=
  { State.reset with cfg := s.cfg, pending := s.pending, readData := s.readData, epoch := s.epoch }

/-- COUNT's writes: `WT[0..k)`, both fields, and `NSYM` (`40_frequency.md` R112). -/
def State.putTable (s : State) (ws : List Weight) (ss : List Symbol) : State :=
  { s with wtW := s.wtW.writeRange 0 ws, wtS := s.wtS.writeRange 0 ss, nsym := wordOf ws.length }

/-- BUILD's writes: `NODE[0..2K-1)`, `ROOT`, `NNODES` and `TV` (`41_huffman_build.md` R125). -/
def State.putTree (s : State) (nodes : List Node) : State :=
  { s with node := s.node.writeRange 0 nodes, root := wordOf (nodes.length - 1)
           nnodes := wordOf nodes.length, tv := true }

/-- ENCSYM's writes: `CODEBUF[0..CODELEN)` and `CODELEN` (`42_huffman_codec.md` R141). -/
def State.putCode (s : State) (code : List Bool) : State :=
  { s with codebuf := s.codebuf.writeRange 0 code, codelen := wordOf code.length }

/-- ENCODE's and UNPACK's writes: `BITBUF[0..N)` and `NBITS` (`42_huffman_codec.md` R143, `43_bitpacker.md` R165). -/
def State.putStream (s : State) (bits : List Bool) : State :=
  { s with bitbuf := s.bitbuf.writeRange 0 bits, nbits := wordOf bits.length }

/-- DECODE's writes: `SYMOUT[0..m)` and `OUTLEN` (`42_huffman_codec.md` R146). -/
def State.putSymbols (s : State) (out : List Symbol) : State :=
  { s with symout := s.symout.writeRange 0 out, outlen := wordOf out.length }

/-- PACK's and FROMGRID's writes of `CELLBUF[0..n)` and `NCELLS` (`43_bitpacker.md` R162, `44_gridlayout.md` R185). -/
def State.putCells (s : State) (cells : List Cell) : State :=
  { s with cellbuf := s.cellbuf.writeRange 0 cells, ncells := wordOf cells.length }

/-- PACK's write of `TOTALBITS` (`43_bitpacker.md` R162). -/
def State.setTotalbits (s : State) (n : Nat) : State :=
  { s with totalbits := wordOf n }

/-- TRIM's write of `NCELLS` (`43_bitpacker.md` R168). -/
def State.setNcells (s : State) (n : Nat) : State :=
  { s with ncells := wordOf n }

/-- TOGRID's writes: `GRID[0..GW x GH)`, `GW` and `GH` (`44_gridlayout.md` R181). -/
def State.putGrid (s : State) (w h : Nat) (cells : List Cell) : State :=
  { s with grid := s.grid.writeRange 0 cells, gw := wordOf w, gh := wordOf h }

/-- FROMGRID's write of `PADIDX` (`44_gridlayout.md` R185). -/
def State.setPadidx (s : State) (n : Nat) : State :=
  { s with padidx := wordOf n }

/-- The host's side: the next pending move is taken. -/
def State.dropMove (s : State) : State :=
  { s with pending := s.pending.tail }

/-- The host's side: a read returns the word `v` (`20_memory.md` R62). -/
def State.returnWord (s : State) (v : Word) : State :=
  { s with readData := v }

/-- The model's own counter advances at every host write, command and hard reset (log entry 3). -/
def State.tick (s : State) : State :=
  { s with epoch := s.epoch + 1 }

end Sys2Proof.Machine
end

