-- ==== Sys2Proof/Machine/Operands.lean ====
section
/-! DEFINITION. The operand forms (`30_encoding.md` R93): each command takes its operands from fixed length registers and
buffers, checks each length against the capacity before its first buffer access (`20_memory.md` R69), and reads the
elements below the length. -/

namespace Sys2Proof.Machine

/-- `SEQLEN`, checked against `SEQ_MAX` (`60_exceptions.md` R209 sub-cause 1). COUNT and ENCODE. -/
def seqLength (s : State) : Except Stop Nat := do
  failIf (s.cfg.seqMax < s.seqlen.toNat) .capacity capSeq
  .ok s.seqlen.toNat

/-- `NBITS`, checked against `BITS_MAX` (R209 sub-cause 4). DECODE and PACK. -/
def streamLength (s : State) : Except Stop Nat := do
  failIf (bitsMax s.cfg < s.nbits.toNat) .capacity capBits
  .ok s.nbits.toNat

/-- `NCELLS`, checked against `CELLS_MAX` (R209 sub-cause 5). UNPACK, TRIM and TOGRID. -/
def cellCount (s : State) : Except Stop Nat := do
  failIf (s.cfg.cellsMax < s.ncells.toNat) .capacity capCells
  .ok s.ncells.toNat

/-- `GW` and `GH`, their exact product checked against `CELLS_MAX` (R209 sub-cause 6). FROMGRID. -/
def gridSize (s : State) : Except Stop Nat := do
  failIf (s.cfg.cellsMax < s.gw.toNat * s.gh.toNat) .capacity capGrid
  .ok (s.gw.toNat * s.gh.toNat)

/-- The first check of ENCSYM, ENCODE and DECODE: `TV = 0` raises `UninitializedTreeError` (`60_exceptions.md`
R206). -/
def requireTree (s : State) : Except Stop Unit :=
  failIf (!s.tv) .uninitializedTree 0

/-- `SEQIN[0..n)`. -/
def readSeq (s : State) (n : Nat) : Except Stop (List Symbol) := readElems .seqin s.seqin 0 n

/-- `BITBUF[0..n)`. -/
def readStream (s : State) (n : Nat) : Except Stop (List Bool) := readElems .bitbuf s.bitbuf 0 n

/-- `CELLBUF[0..n)`. -/
def readCells (s : State) (n : Nat) : Except Stop (List Cell) := readElems .cellbuf s.cellbuf 0 n

/-- `GRID[0..n)`. -/
def readGrid (s : State) (n : Nat) : Except Stop (List Cell) := readElems .grid s.grid 0 n

/-- "The tree" of `10_state.md` R51: `NODE[0..NNODES)`. -/
def readTree (s : State) : Except Stop (List Node) := readElems .node s.node 0 s.nnodes.toNat

/-- `K_T = (NNODES + 1) / 2`, the number of leaves of the built tree (`10_state.md` R37). -/
def leafCount (s : State) : Nat := (s.nnodes.toNat + 1) / 2

end Sys2Proof.Machine
end

