-- ==== Sys2Proof/Machine/BitPacker.lean ====
section
/-! DEFINITION. BitPacker with framing: PACK, UNPACK, TRIM (`43_bitpacker.md`). -/

namespace Sys2Proof.Machine

/-- `bits[24j .. min(24j + 24, N))`, the `j`-th chunk (`43_bitpacker.md` R161). -/
def chunk (bits : List Bool) (j : Nat) : List Bool := (bits.drop (cellW * j)).take cellW

/-- `pack_fn(bits)`: the Cell of each chunk is the number the chunk spells, so a short last chunk is zero-left-padded
(`43_bitpacker.md` R161). -/
def packFn (bits : List Bool) : List Cell :=
  (List.range (cdiv bits.length cellW)).map (fun j => BitVec.ofNat 24 (bitsVal (chunk bits j)))

/-- The meaningful bits of Cell `j` of `n` when the framing says `t` bits: 24, and for the last Cell the remainder
(`43_bitpacker.md` R163). -/
def meaningful (n t j : Nat) : Nat := if j + 1 < n then cellW else t - cellW * (n - 1)

/-- `unpack_fn(cells, T)`: the low bits of each Cell, most significant first; the padding of the last one is dropped
unexamined (`43_bitpacker.md` R163). -/
def unpackFn (cells : List Cell) (t : Nat) : List Bool :=
  cells.zipIdx.flatMap (fun e => bitsOf (meaningful cells.length t e.2) e.1.toNat)

/-- The body of PACK (`43_bitpacker.md` R162). -/
def packBody (s : State) : Except Stop State := do
  let n ← streamLength s
  let bits ← readStream s n
  .ok ((s.putCells (packFn bits)).setTotalbits n)

/-- PACK (`43_bitpacker.md` R162). -/
def execPack (s : State) : Host.Outcome State Fault Refusal := commit s (packBody s)

/-- The number of Cells the framing record calls for, `cdiv(TOTALBITS, 24)` (`43_bitpacker.md` R164). -/
def cellsNeeded (s : State) : Nat := cdiv s.totalbits.toNat cellW

/-- The body of UNPACK (`43_bitpacker.md` R165). -/
def unpackBody (s : State) : Except Stop State := do
  let n ← cellCount s
  failIf (n != cellsNeeded s) .framing (wordOf (cellsNeeded s))
  let cells ← readCells s n
  .ok (s.putStream (unpackFn cells s.totalbits.toNat))

/-- UNPACK (`43_bitpacker.md` R165). -/
def execUnpack (s : State) : Host.Outcome State Fault Refusal := commit s (unpackBody s)

/-- The body of TRIM, which reads no Cell (`43_bitpacker.md` R168). -/
def trimBody (s : State) : Except Stop State := do
  let n ← cellCount s
  failIf (n < cellsNeeded s) .framing (wordOf (cellsNeeded s))
  .ok (s.setNcells (cellsNeeded s))

/-- TRIM (`43_bitpacker.md` R168). -/
def execTrim (s : State) : Host.Outcome State Fault Refusal := commit s (trimBody s)

end Sys2Proof.Machine
end

