-- ==== Sys2Proof/Machine/Tree.lean ====
section
/-! DEFINITION. Functions of a built tree, given as the list of its nodes: the Symbol of a leaf, `leaf_of`, `path`,
`code`, `encode_fn` and `decode_fn` (`41_huffman_build.md` R128, R129, `42_huffman_codec.md` R142 to R145). A Code is derived,
not stored (`10_state.md` R47). -/

namespace Sys2Proof.Machine

/-- The Symbol of a node: present in a leaf, absent in an internal node (`10_state.md` R40). -/
def nodeSymbol : Node → Option Symbol
  | .leaf _ s => some s
  | .internal _ _ _ => none

/-- The weight of a node. -/
def nodeWeight : Node → Weight
  | .leaf w _ => w
  | .internal w _ _ => w

/-- The children of a node, left then right; a leaf has none. -/
def nodeChildren : Node → List Nat
  | .leaf _ _ => []
  | .internal _ l r => [l, r]

/-- `leaf_of(v)`: the leaf index `i < K` with `NODE[i].s = some(v)` (`41_huffman_build.md` R129). -/
def leafOf (nodes : List Node) (k : Nat) (v : Symbol) : Option Nat :=
  (nodes.take k).findIdx? (fun n => nodeSymbol n == some v)

/-- The parent of node `c`, and whether `c` is its right child, among the nodes from index `p` on. -/
def parentFrom : List Node → (p c : Nat) → Option (Nat × Bool)
  | [], _, _ => none
  | .leaf _ _ :: rest, p, c => parentFrom rest (p + 1) c
  | .internal _ l r :: rest, p, c =>
    if l = c then some (p, false)
    else if r = c then some (p, true)
    else parentFrom rest (p + 1) c

/-- `path(i)` with the bits `tail` after it: up from node `i` to the root, the bit of each edge put in front
(`41_huffman_build.md` R128: a left child's path ends in 0, a right child's in 1). At most `fuel` edges; a path has
fewer edges than the tree has nodes. -/
def pathUp (nodes : List Node) (root : Nat) : (fuel i : Nat) → List Bool → Option (List Bool)
  | 0, i, tail => if i = root then some tail else none
  | fuel + 1, i, tail =>
    if i = root then some tail
    else
      match parentFrom nodes 0 i with
      | some (p, b) => pathUp nodes root fuel p (b :: tail)
      | none => none

/-- `path(i)` (`41_huffman_build.md` R128). -/
def pathOf (nodes : List Node) (root i : Nat) : Option (List Bool) :=
  pathUp nodes root nodes.length i []

/-- `code(i)` of a leaf of a tree with `k` leaves: the one bit 0 for `k = 1`, its path otherwise
(`41_huffman_build.md` R127, R128). -/
def codeOf (nodes : List Node) (root k i : Nat) : Option (List Bool) :=
  if k = 1 then some [false] else pathOf nodes root i

/-- `encode_fn` over the leaves of a sequence: the concatenation of their Codes in order
(`42_huffman_codec.md` R142). -/
def encodeLeaves (nodes : List Node) (root k : Nat) : List Nat → Option (List Bool)
  | [] => some []
  | i :: rest =>
    match codeOf nodes root k i, encodeLeaves nodes root k rest with
    | some c, some bits => some (c ++ bits)
    | _, _ => none

/-- `encode_fn(seq)`, defined when every Symbol of `seq` has a leaf (`42_huffman_codec.md` R142). -/
def encodeFn (nodes : List Node) (root k : Nat) (seq : List Symbol) : Option (List Bool) :=
  match seq.mapM (leafOf nodes k) with
  | some leaves => encodeLeaves nodes root k leaves
  | none => none

/-- What `decode_fn` answers (`42_huffman_codec.md` R144, R145). `broken` is no answer of the spec's: the nodes are no
tree, so the walk met a node without children or an index without a node. -/
inductive Decoded where
  | ok (out : List Symbol)
  | malformed (p : Nat)
  | broken
  deriving DecidableEq, Repr

/-- One more Symbol in front of what is decoded after it. -/
def emit (v : Symbol) : Decoded → Decoded
  | .ok out => .ok (v :: out)
  | .malformed p => .malformed p
  | .broken => .broken

/-- The walk of `42_huffman_codec.md` R144 for two or more leaves. `cur` is the current node, `p` the index of the next
bit and `start` the index of the first bit of the Code being walked. -/
def decodeWalk (nodes : List Node) (root : Nat) : List Bool → (cur p start : Nat) → Decoded
  | [], cur, _, start => if cur = root then .ok [] else .malformed start
  | b :: bits, cur, p, start =>
    match nodes[cur]? with
    | some (.internal _ l r) =>
      match nodes[if b then r else l]? with
      | some (.leaf _ v) => emit v (decodeWalk nodes root bits root (p + 1) (p + 1))
      | some (.internal _ _ _) => decodeWalk nodes root bits (if b then r else l) (p + 1) start
      | none => .broken
    | some (.leaf _ _) => .broken
    | none => .broken

/-- `decode_fn` for a one-leaf tree with the Symbol `v`, `p` the index of the next bit: each bit 0 is one Code, a
bit 1 is none (`42_huffman_codec.md` R145). -/
def decodeOneLeaf (v : Symbol) : List Bool → (p : Nat) → Decoded
  | [], _ => .ok []
  | b :: bits, p => if b then .malformed p else emit v (decodeOneLeaf v bits (p + 1))

/-- `decode_fn(bits)` for a tree of `k` leaves (`42_huffman_codec.md` R144 if `k >= 2`, R145 if `k == 1`). -/
def decodeFn (nodes : List Node) (root k : Nat) (bits : List Bool) : Decoded :=
  if 2 ≤ k then decodeWalk nodes root bits root 0 0
  else if k = 1 then
    match nodes.head? with
    | some (.leaf _ v) => decodeOneLeaf v bits 0
    | some (.internal _ _ _) => .broken
    | none => .broken
  else .broken

end Sys2Proof.Machine
end

