-- ==== Sys2Proof/Machine/Codec.lean ====
section
/-! DEFINITION. HuffmanTree encode and decode: ENCSYM, ENCODE, DECODE (`42_huffman_codec.md`). -/

namespace Sys2Proof.Machine

/-- A value the tree functions are to give; without it the arena holds no tree, which no run reaches
(`10_state.md` R41). -/
def orBroken {α : Type} : Option α → Except Stop α
  | some a => .ok a
  | none => .error (.fault .brokenTree)

/-- The body of ENCSYM (`42_huffman_codec.md` R141). -/
def encsymBody (s : State) : Except Stop State := do
  requireTree s
  let nodes ← readTree s
  match leafOf nodes (leafCount s) s.arg with
  | none => .error (.error .unknownSymbol 0)
  | some i =>
    let code ← orBroken (codeOf nodes s.root.toNat (leafCount s) i)
    .ok (s.putCode code)

/-- ENCSYM (`42_huffman_codec.md` R141). -/
def execEncsym (s : State) : Host.Outcome State Fault Refusal := commit s (encsymBody s)

/-- The leaves of `n` Symbols of `SEQIN` from index `i` on, lowest first; the first Symbol that is not in the tree
raises `UnknownSymbolError` with its index (`42_huffman_codec.md` R143). -/
def lookUp (s : State) (nodes : List Node) : (i n : Nat) → Except Stop (List Nat)
  | _, 0 => .ok []
  | i, n + 1 => do
    let v ← readElem .seqin s.seqin i
    match leafOf nodes (leafCount s) v with
    | none => .error (.error .unknownSymbol (wordOf i))
    | some j =>
      let js ← lookUp s nodes (i + 1) n
      .ok (j :: js)

/-- The body of ENCODE (`42_huffman_codec.md` R143). -/
def encodeBody (s : State) : Except Stop State := do
  requireTree s
  let n ← seqLength s
  let nodes ← readTree s
  let leaves ← lookUp s nodes 0 n
  let bits ← orBroken (encodeLeaves nodes s.root.toNat (leafCount s) leaves)
  failIf (bitsMax s.cfg < bits.length) .capacity capBits
  .ok (s.putStream bits)

/-- ENCODE (`42_huffman_codec.md` R143). -/
def execEncode (s : State) : Host.Outcome State Fault Refusal := commit s (encodeBody s)

/-- The body of DECODE (`42_huffman_codec.md` R146). -/
def decodeBody (s : State) : Except Stop State := do
  requireTree s
  let n ← streamLength s
  let bits ← readStream s n
  let nodes ← readTree s
  match decodeFn nodes s.root.toNat (leafCount s) bits with
  | .malformed p => .error (.error .malformedStream (wordOf p))
  | .broken => .error (.fault .brokenTree)
  | .ok out =>
    failIf (s.cfg.seqMax < out.length) .capacity capOut
    .ok (s.putSymbols out)

/-- DECODE (`42_huffman_codec.md` R146). -/
def execDecode (s : State) : Host.Outcome State Fault Refusal := commit s (decodeBody s)

end Sys2Proof.Machine
end

