-- ==== Sys2Proof/Machine/Frequency.lean ====
section
/-! DEFINITION. FrequencyTable: COUNT (`40_frequency.md`). -/

namespace Sys2Proof.Machine

/-- The table with one more occurrence of `v`: its entry counts one up, or a new entry `(1, v)` goes to the
end (`40_frequency.md` R111). -/
def countOne (v : Symbol) : List (Nat × Symbol) → List (Nat × Symbol)
  | [] => [(1, v)]
  | (w, s) :: rest => if s = v then (w + 1, s) :: rest else (w, s) :: countOne v rest

/-- `count_table(seq)`: the entries `(count, Symbol)` in order of first occurrence (`40_frequency.md` R111). -/
def countTable (seq : List Symbol) : List (Nat × Symbol) :=
  seq.foldl (fun t v => countOne v t) []

/-- The body of COUNT (`40_frequency.md` R112). -/
def countBody (s : State) : Except Stop State := do
  let n ← seqLength s
  let seq ← readSeq s n
  let t := countTable seq
  failIf (s.cfg.kMax < t.length) .capacity capSyms
  .ok (s.putTable (t.map (fun e => wordOf e.1)) (t.map (fun e => e.2)))

/-- COUNT (`40_frequency.md` R112). -/
def execCount (s : State) : Host.Outcome State Fault Refusal := commit s (countBody s)

end Sys2Proof.Machine
end

