-- ==== Sys2Proof/Machine/GridLayout.lean ====
section
/-! DEFINITION. GridLayout: TOGRID, FROMGRID (`44_gridlayout.md`). -/

namespace Sys2Proof.Machine

/-- The width of the Grid of `n` Cells (`44_gridlayout.md` R180). -/
def gridWidth (n : Nat) : Nat := csqrt n

/-- The height of the Grid of `n` Cells; the empty sequence has the empty Grid (`44_gridlayout.md` R180). -/
def gridHeight (n : Nat) : Nat := if n = 0 then 0 else cdiv n (gridWidth n)

/-- The positions of the Grid of a cell sequence, row-major, the marker beyond the Cells
(`44_gridlayout.md` R181, R182). -/
def gridCells (cells : List Cell) : List Cell :=
  (List.range (gridWidth cells.length * gridHeight cells.length)).map
    (fun p => (cells[p]?).getD marker)

/-- `count` of `44_gridlayout.md` R184: the least position of a marker-valued Cell, or the number of Cells. -/
def firstMarker (cells : List Cell) : Nat := cells.findIdx (fun c => c == marker)

/-- The body of TOGRID (`44_gridlayout.md` R181). -/
def togridBody (s : State) : Except Stop State := do
  let n ← cellCount s
  let cells ← readCells s n
  .ok (s.putGrid (gridWidth n) (gridHeight n) (gridCells cells))

/-- TOGRID (`44_gridlayout.md` R181). -/
def execTogrid (s : State) : Host.Outcome State Fault Refusal := commit s (togridBody s)

/-- The body of FROMGRID (`44_gridlayout.md` R185). -/
def fromgridBody (s : State) : Except Stop State := do
  let n ← gridSize s
  let cells ← readGrid s n
  .ok ((s.putCells cells).setPadidx (firstMarker cells))

/-- FROMGRID (`44_gridlayout.md` R185). -/
def execFromgrid (s : State) : Host.Outcome State Fault Refusal := commit s (fromgridBody s)

end Sys2Proof.Machine
end

