-- ==== Sys2Proof/Machine/System.lean ====
section
/-! DEFINITION. The system commands: NOP, RESET (`45_system.md`). -/

namespace Sys2Proof.Machine

/-- NOP: nothing, then the cleared error record of every successful command (`45_system.md` R195). -/
def execNop (s : State) : Host.Outcome State Fault Refusal := commit s (.ok s)

/-- RESET: every register at its reset value and every buffer element unspecified (`45_system.md` R196). -/
def execReset (s : State) : Host.Outcome State Fault Refusal := commit s (.ok s.resetBlock)

end Sys2Proof.Machine
end

