-- ==== Sys2Proof/Machine/TreeBuild.lean ====
section
/-! DEFINITION. HuffmanTree construction: BUILD (`41_huffman_build.md`). -/

namespace Sys2Proof.Machine

/-- Does the Symbol at `WT[i]` also stand at a lower index? "exists j < i with WT[j].s == WT[i].s", which reads
nothing for `i = 0` (`41_huffman_build.md` R124). -/
def repeatsEarlier (s : State) (i : Nat) : Except Stop Bool :=
  if i = 0 then .ok false
  else do
    let earlier ← readElems .wt s.wtS 0 i
    let v ← readElem .wt s.wtS i
    .ok (earlier.contains v)

/-- Check 3 of `41_huffman_build.md` R124 over `n` entries from index `i` on, lowest first; at one index a zero weight
is reported before a repeated Symbol. -/
def checkTable (s : State) : (i n : Nat) → Except Stop Unit
  | _, 0 => .ok ()
  | i, n + 1 => do
    let w ← readElem .wt s.wtW i
    failIf (w == 0) .invalidTable (wordOf i)
    let again ← repeatsEarlier s i
    failIf again .invalidTable (repeatInfo i)
    checkTable s (i + 1) n

/-- The exact sum of the weights (`00_scope.md` R8). -/
def weightSum (ws : List Weight) : Nat := (ws.map BitVec.toNat).sum

/-- The queue's order: the pair (weight of the root, arena index of the root), lexicographic
(`41_huffman_build.md` R122). -/
def before (x y : Nat × Nat) : Bool := x.1 < y.1 || (x.1 == y.1 && x.2 < y.2)

/-- The least of a non-empty queue, its first entry given apart. -/
def leastOf : Nat × Nat → List (Nat × Nat) → Nat × Nat
  | x, [] => x
  | x, y :: rest => leastOf (if before y x then y else x) rest

/-- `pop`: the least tree of the queue and the queue without it (`41_huffman_build.md` R122). -/
def pop : List (Nat × Nat) → Option ((Nat × Nat) × List (Nat × Nat))
  | [] => none
  | x :: rest => some (leastOf x rest, (x :: rest).erase (leastOf x rest))

/-- The combining loop (`41_huffman_build.md` R123), `k` rounds of it: pop `a`, pop `b`, and the next free arena index
becomes the internal node with `a` left and `b` right, pushed with the exact sum as its weight. -/
def growTree : (k : Nat) → List Node → List (Nat × Nat) → List Node
  | 0, nodes, _ => nodes
  | k + 1, nodes, queue =>
    match pop queue with
    | none => nodes
    | some (a, queue1) =>
      match pop queue1 with
      | none => nodes
      | some (b, queue2) =>
        growTree k (nodes ++ [.internal (wordOf (a.1 + b.1)) a.2 b.2])
          (queue2 ++ [(a.1 + b.1, nodes.length)])

/-- The leaves, arena nodes `0` to `K - 1` in table order (`41_huffman_build.md` R121). -/
def leafNodes (ws : List Weight) (ss : List Symbol) : List Node := List.zipWith Node.leaf ws ss

/-- The initial queue, in push order (`41_huffman_build.md` R121). -/
def firstQueue (ws : List Weight) : List (Nat × Nat) := ws.zipIdx.map (fun e => (e.1.toNat, e.2))

/-- The scratch arena `T` of `41_huffman_build.md` R125: the loop "runs exactly `K - 1` times" (R123). -/
def buildNodes (ws : List Weight) (ss : List Symbol) : List Node :=
  growTree (ws.length - 1) (leafNodes ws ss) (firstQueue ws)

/-- The body of BUILD: the four checks of R124 in their order, then the tree (`41_huffman_build.md` R125). -/
def buildBody (s : State) : Except Stop State := do
  let k := s.nsym.toNat
  failIf (k == 0) .emptyAlphabet 0
  failIf (s.cfg.kMax < k) .capacity capSyms
  checkTable s 0 k
  let ws ← readElems .wt s.wtW 0 k
  failIf (2 ^ s.cfg.weightW ≤ weightSum ws) .capacity capWeight
  let ss ← readElems .wt s.wtS 0 k
  .ok (s.putTree (buildNodes ws ss))

/-- BUILD (`41_huffman_build.md` R125). -/
def execBuild (s : State) : Host.Outcome State Fault Refusal := commit s (buildBody s)

end Sys2Proof.Machine
end

