-- ==== Sys2Proof/Machine/Dispatch.lean ====
section
/-! DEFINITION. The meaning of each command (`30_encoding.md` R92), one arm per constructor of `Instr`. -/

namespace Sys2Proof.Machine

def exec (i : Instr) (s : State) : Host.Outcome State Fault Refusal :=
  match i with
  | .nop => Sys2Proof.Machine.execNop s
  | .count => Sys2Proof.Machine.execCount s
  | .build => Sys2Proof.Machine.execBuild s
  | .encsym => Sys2Proof.Machine.execEncsym s
  | .encode => Sys2Proof.Machine.execEncode s
  | .decode => Sys2Proof.Machine.execDecode s
  | .pack => Sys2Proof.Machine.execPack s
  | .unpack => Sys2Proof.Machine.execUnpack s
  | .togrid => Sys2Proof.Machine.execTogrid s
  | .fromgrid => Sys2Proof.Machine.execFromgrid s
  | .trim => Sys2Proof.Machine.execTrim s
  | .reset => Sys2Proof.Machine.execReset s

end Sys2Proof.Machine
end

