-- ==== Sys2Proof/Machine/HostAccess.lean ====
section
/-! DEFINITION. Host access to the registers and buffers (`20_memory.md` R60 to R71): the address map, the host view of every
element and what a data write stores. -/

namespace Sys2Proof.Machine

/-- The space a space number names; 9 to 15 name none (`20_memory.md` R61, R70). -/
def spaceOf (space : BitVec 4) : Option Space :=
  match space.toNat with
  | 0 => some .reg
  | 1 => some .seqin
  | 2 => some .wt
  | 3 => some .node
  | 4 => some .codebuf
  | 5 => some .bitbuf
  | 6 => some .cellbuf
  | 7 => some .grid
  | 8 => some .symout
  | _ => none

/-- The register map of `20_memory.md` R61, row by row. -/
def regRows : List (Nat × Reg) :=
  [ (0x00, .id), (0x01, .cmd), (0x02, .status), (0x03, .err), (0x04, .einfo), (0x05, .erracc),
    (0x06, .arg), (0x07, .seqlen), (0x08, .nsym), (0x09, .nbits), (0x0A, .ncells), (0x0B, .totalbits),
    (0x0C, .gw), (0x0D, .gh), (0x0E, .outlen), (0x0F, .padidx), (0x10, .root), (0x11, .nnodes),
    (0x12, .codelen), (0x18, .cfgSymw), (0x19, .cfgKmax), (0x1A, .cfgWeightw), (0x1B, .cfgSeqmax),
    (0x1C, .cfgCellsmax) ]

/-- The register at an index of space 0, if one is listed there (`20_memory.md` R61, R70). -/
def regOf (index : Nat) : Option Reg :=
  (regRows.find? (fun row => row.1 == index)).map (fun row => row.2)

/-- The access kinds of `10_state.md` R22. -/
inductive Access where
  | rw | ro | wo
  deriving DecidableEq, Repr

/-- The access kind of each register (`10_state.md` R23 to R37). -/
def regAccess : Reg → Access
  | .cmd => .wo
  | .arg => .rw
  | .seqlen => .rw
  | .nsym => .rw
  | .nbits => .rw
  | .ncells => .rw
  | .totalbits => .rw
  | .gw => .rw
  | .gh => .rw
  | .id => .ro
  | .status => .ro
  | .err => .ro
  | .einfo => .ro
  | .erracc => .ro
  | .outlen => .ro
  | .padidx => .ro
  | .root => .ro
  | .nnodes => .ro
  | .codelen => .ro
  | .cfgSymw => .ro
  | .cfgKmax => .ro
  | .cfgWeightw => .ro
  | .cfgSeqmax => .ro
  | .cfgCellsmax => .ro

/-- What stands at a defined logical address: a register, or one word of a buffer's host view
(`20_memory.md` R61). A `WT` entry has two words and a `NODE` entry four (`10_state.md` R39, R40). -/
inductive Place where
  | reg (r : Reg)
  | seqin (i : Nat)
  | wtWeight (i : Nat)
  | wtSymbol (i : Nat)
  | nodeWeight (i : Nat)
  | nodeSymbol (i : Nat)
  | nodeLeft (i : Nat)
  | nodeRight (i : Nat)
  | codeWord (j : Nat)
  | bitWord (j : Nat)
  | cell (i : Nat)
  | gridCell (i : Nat)
  | symout (i : Nat)
  deriving DecidableEq, Repr

/-- The number of words of a space's host view (`20_memory.md` R61); the register space is a list of indices. -/
def spaceWords (p : Params) : Space → Nat
  | .reg => 0
  | .seqin => p.seqMax
  | .wt => 2 * p.kMax
  | .node => 4 * nodeMax p
  | .codebuf => codeWords p
  | .bitbuf => bitWords p
  | .cellbuf => p.cellsMax
  | .grid => gridMax p
  | .symout => p.seqMax

/-- Word `i` of a buffer's host view (`10_state.md` R38 to R46). -/
def bufferPlace (sp : Space) (i : Nat) : Option Place :=
  match sp with
  | .reg => none
  | .seqin => some (.seqin i)
  | .wt => some (if i % 2 = 0 then .wtWeight (i / 2) else .wtSymbol (i / 2))
  | .node =>
    some (match i % 4 with
      | 0 => .nodeWeight (i / 4)
      | 1 => .nodeSymbol (i / 4)
      | 2 => .nodeLeft (i / 4)
      | _ => .nodeRight (i / 4))
  | .codebuf => some (.codeWord i)
  | .bitbuf => some (.bitWord i)
  | .cellbuf => some (.cell i)
  | .grid => some (.gridCell i)
  | .symout => some (.symout i)

/-- What stands at `(space, index)`; `none` is an undefined address (`20_memory.md` R61, R70). -/
def placeOf (p : Params) (space : BitVec 4) (index : Word) : Option Place :=
  match spaceOf space with
  | none => none
  | some .reg => (regOf index.toNat).map Place.reg
  | some sp => if index.toNat < spaceWords p sp then bufferPlace sp index.toNat else none

/-- The host view of an element: a word and the mask of its bits that hold a defined value. The other bits
belong to unwritten elements (`10_state.md` R50). -/
structure View where
  value : Word
  defined : Word
  deriving DecidableEq, Repr

/-- The word a read returns: the defined bits of the view, and the free word's bits elsewhere. -/
def viewWord (v : View) (free : Word) : Word := (v.value &&& v.defined) ||| (free &&& ~~~v.defined)

/-- A view all of whose bits are defined. -/
def wholeView (v : Word) : View := { value := v, defined := ~~~(0 : Word) }

/-- The view of an element of `w` bits: zero-extended when written (`20_memory.md` R67), its `w` low bits undefined
when not. -/
def elementView (w : Nat) : Option Word → View
  | some v => wholeView v
  | none => { value := 0, defined := ~~~(lowMask w) }

/-- The view of a Cell, `{0x00, R, G, B}` (`10_state.md` R44). -/
def cellView (c : Option Cell) : View := elementView cellW (c.map (fun c => c.setWidth 32))

/-- The word for an optional child index: the index, or `NIL` (`10_state.md` R40). -/
def indexWord : Option Nat → Word
  | some i => wordOf i
  | none => nil

/-- The left child of a node, if it has children. -/
def leftChild : Node → Option Nat
  | .leaf _ _ => none
  | .internal _ l _ => some l

/-- The right child of a node, if it has children. -/
def rightChild : Node → Option Nat
  | .leaf _ _ => none
  | .internal _ _ r => some r

/-- The weight word of a node, word `4i` of its view (`10_state.md` R40). -/
def nodeWeightWord : Node → Word
  | .leaf w _ => w
  | .internal w _ _ => w

/-- The Symbol word of a node, word `4i+1` of its view: the Symbol of a leaf, 0 for an internal node
(`10_state.md` R40). -/
def nodeSymbolWord : Node → Word
  | .leaf _ s => s
  | .internal _ _ _ => 0

/-- One bit of a bit buffer's word view: `(value, defined)` of buffer bit `i`. At or beyond the buffer's `size`
the bit is `beyond`. -/
def bitView (m : Memory Bool) (size : Nat) (beyond : Bool × Bool) (i : Nat) : Bool × Bool :=
  if size ≤ i then beyond
  else
    match m.read i with
    | some b => (b, true)
    | none => (false, false)

/-- The word a list of bits spells, the first at word bit 31 (`20_memory.md` R64). -/
def wordOfBits (bits : List Bool) : Word := wordOf (bitsVal bits)

/-- Word `j` of a bit buffer: buffer bit `32j + t` at word bit `31 - t` (`10_state.md` R42, R43). -/
def bitWordView (m : Memory Bool) (size : Nat) (beyond : Bool × Bool) (j : Nat) : View :=
  let bits := (List.range 32).map (fun t => bitView m size beyond (32 * j + t))
  { value := wordOfBits (bits.map (fun b => b.1)), defined := wordOfBits (bits.map (fun b => b.2)) }

/-- The word a register reads as (`10_state.md` R22 to R37); `CMD` reads 0 (R23). -/
def regWord (s : State) : Reg → Word
  | .id => idWord
  | .cmd => 0
  | .status => statusWord s.tv
  | .err => s.err.setWidth 32
  | .einfo => s.einfo
  | .erracc => s.erracc
  | .arg => s.arg
  | .seqlen => s.seqlen
  | .nsym => s.nsym
  | .nbits => s.nbits
  | .ncells => s.ncells
  | .totalbits => s.totalbits
  | .gw => s.gw
  | .gh => s.gh
  | .outlen => s.outlen
  | .padidx => s.padidx
  | .root => s.root
  | .nnodes => s.nnodes
  | .codelen => s.codelen
  | .cfgSymw => wordOf s.cfg.symW
  | .cfgKmax => wordOf s.cfg.kMax
  | .cfgWeightw => wordOf s.cfg.weightW
  | .cfgSeqmax => wordOf s.cfg.seqMax
  | .cfgCellsmax => wordOf s.cfg.cellsMax

/-- The host view of each place (`10_state.md` R38 to R46). Bits of the last `CODEBUF` word at or beyond `CODE_W` read
0 (R42); of the last `BITBUF` word at or beyond `BITS_MAX` the spec states no value, so they are undefined
here (log entry 4). -/
def viewAt (s : State) : Place → View
  | .reg r => wholeView (regWord s r)
  | .seqin i => elementView s.cfg.symW (s.seqin.read i)
  | .wtWeight i => elementView s.cfg.weightW (s.wtW.read i)
  | .wtSymbol i => elementView s.cfg.symW (s.wtS.read i)
  | .nodeWeight i => elementView s.cfg.weightW ((s.node.read i).map nodeWeightWord)
  | .nodeSymbol i => elementView s.cfg.symW ((s.node.read i).map nodeSymbolWord)
  | .nodeLeft i => elementView 32 ((s.node.read i).map (fun n => indexWord (leftChild n)))
  | .nodeRight i => elementView 32 ((s.node.read i).map (fun n => indexWord (rightChild n)))
  | .codeWord j => bitWordView s.codebuf (codeW s.cfg) (false, true) j
  | .bitWord j => bitWordView s.bitbuf (bitsMax s.cfg) (false, false) j
  | .cell i => cellView (s.cellbuf.read i)
  | .gridCell i => cellView (s.grid.read i)
  | .symout i => elementView s.cfg.symW (s.symout.read i)

/-- `HostRead(space, index)` (`20_memory.md` R62): the word it returns, or `none` at an undefined address. It changes
no state. -/
def hostRead (s : State) (space : BitVec 4) (index : Word) : Option Word :=
  (placeOf s.cfg space index).map
    (fun pl => viewWord (viewAt s pl) (Config.freeWord s.epoch space.toNat index.toNat))

/-- A host write of a register other than `CMD`: a `RW` register takes the bits its rule keeps, a `RO` one
ignores the write (`10_state.md` R22, R29 to R35). -/
def storeReg (s : State) (v : Word) : Reg → State
  | .arg => { s with arg := keepLow s.cfg.symW v }
  | .seqlen => { s with seqlen := v }
  | .nsym => { s with nsym := v }
  | .nbits => { s with nbits := v }
  | .ncells => { s with ncells := v }
  | .totalbits => { s with totalbits := v }
  | .gw => { s with gw := v }
  | .gh => { s with gh := v }
  | .id => s
  | .cmd => s
  | .status => s
  | .err => s
  | .einfo => s
  | .erracc => s
  | .outlen => s
  | .padidx => s
  | .root => s
  | .nnodes => s
  | .codelen => s
  | .cfgSymw => s
  | .cfgKmax => s
  | .cfgWeightw => s
  | .cfgSeqmax => s
  | .cfgCellsmax => s

/-- The bits a host write of word `j` puts into `BITBUF`: all that lie below `BITS_MAX` (`10_state.md` R43). -/
def keptBits (p : Params) (j : Nat) (v : Word) : List Bool :=
  (bitsOf 32 v.toNat).take (bitsMax p - 32 * j)

/-- What a host write stores (`20_memory.md` R63, R67): a `RW` place takes the bits its rule keeps, a `RO` place
ignores the write. -/
def store (s : State) (v : Word) : Place → State
  | .reg r => storeReg s v r
  | .seqin i => { s with seqin := s.seqin.write i (keepLow s.cfg.symW v) }
  | .wtWeight i => { s with wtW := s.wtW.write i (keepLow s.cfg.weightW v) }
  | .wtSymbol i => { s with wtS := s.wtS.write i (keepLow s.cfg.symW v) }
  | .bitWord j => { s with bitbuf := s.bitbuf.writeRange (32 * j) (keptBits s.cfg j v) }
  | .cell i => { s with cellbuf := s.cellbuf.write i (v.setWidth 24) }
  | .gridCell i => { s with grid := s.grid.write i (v.setWidth 24) }
  | .nodeWeight _ => s
  | .nodeSymbol _ => s
  | .nodeLeft _ => s
  | .nodeRight _ => s
  | .codeWord _ => s
  | .symout _ => s

end Sys2Proof.Machine
end

