-- ==== Sys2Proof/Machine/Port.lean ====
section
/-! DEFINITION. The host's port (`20_memory.md` R62, R63, R75): what one move of the host does, the write to `CMD` that
executes a command among them. The block has no program counter and fetches nothing (`10_state.md` R21): the next
command is "the next word the host writes to `CMD`" (`30_encoding.md` R98). -/

namespace Sys2Proof.Machine

/-- Space 0, the registers (`20_memory.md` R61). -/
def regSpace : BitVec 4 := 0

/-- The index of `CMD` (`10_state.md` R23). -/
def cmdIndex : Word := 0x01

/-- A command word is decoded and executed; a word that selects no command raises `IllegalCommandError` with the
word as information, before any check of a command (`30_encoding.md` R91, R94). -/
def issue (c : Word) (s : State) : Host.Outcome State Fault Refusal :=
  match decode c with
  | .ok i => exec i s
  | .error _ => .next (s.raise .illegalCommand c)

/-- One move of the host, start to end (`00_scope.md` R12). -/
def hostMove (m : HostMove) (s : State) : Host.Outcome State Fault Refusal :=
  match m with
  | .read space index =>
    match hostRead s space index with
    | some v => .next (s.returnWord v)
    | none => .refused (.undefinedAddress space index)
  | .write space index v =>
    match placeOf s.cfg space index with
    | some (.reg .cmd) => issue v s.tick
    | some pl => .next (store s.tick v pl)
    | none => .refused (.undefinedAddress space index)
  | .hardReset => .next s.tick.resetBlock

/-- The next move of the host is taken from the front of the pending ones. With none pending "the block is idle
and holds all its state" (`60_exceptions.md` R225). -/
def nextMove (s : State) : Host.Outcome State Fault Refusal :=
  match s.pending with
  | [] => .next s
  | m :: _ => hostMove m s.dropMove

/-- The host is to issue the command word `c` next: a write of it to `CMD` goes in front of the pending moves. -/
def pendCommand (s : State) (c : Word) : State :=
  { s with pending := .write regSpace cmdIndex c :: s.pending }

end Sys2Proof.Machine
end

