-- ==== Sys2Proof/Machine/Step.lean ====
section
/-! DEFINITION. One step of the machine: one host access, one whole command or one hard reset (`00_scope.md` R12). -/

namespace Sys2Proof.Machine

/-- One step: the next move of the host (`20_memory.md` R75, "the order in which the host issues them"). -/
def step (s : State) : Host.Outcome State Fault Refusal := nextMove s

/-- The state whose very next step runs the table word `w`: the host's next move is a write of it to `CMD`
(log entry 2). -/
def State.withFetchWord (s : State) (nbits w : Nat) : State :=
  pendCommand s (BitVec.ofNat 32 (w % 2 ^ nbits))

end Sys2Proof.Machine
end

