-- ==== Sys2Proof/Safety.lean ====
section
/-! DEFINITION. What claims speak of: a run free of errors, what a buffer holds, and the invariants of the
state (`10_state.md` R26, R41, `70_reset_and_hazards.md` R243). -/

namespace Sys2Proof.Safety

open Sys2Proof.Machine

/-- "A run is free of errors when `ERRACC = 0` at its end" (`70_reset_and_hazards.md` R243). -/
abbrev ErrorFree (s : State) : Prop := s.erracc = 0

/-- The buffer's elements `[0..len(vs))` are written and are `vs`. -/
abbrev Holds {α : Type} (m : Memory α) (vs : List α) : Prop := ∀ j < vs.length, m.read j = vs[j]?

/-- Every buffer is in its canonical form. -/
abbrev BuffersCanonical (s : State) : Prop :=
  s.seqin.wf ∧ s.wtW.wf ∧ s.wtS.wf ∧ s.node.wf ∧ s.codebuf.wf ∧ s.bitbuf.wf ∧ s.cellbuf.wf ∧
    s.grid.wf ∧ s.symout.wf

/-- Every written index of a buffer lies below `size`. -/
abbrev Within {α : Type} (size : Nat) (m : Memory α) : Prop := ∀ e ∈ m, e.1 < size

/-- No buffer holds an element outside its valid indices (`10_state.md` R38 to R46, `20_memory.md` R69). -/
abbrev BuffersWithin (s : State) : Prop :=
  Within s.cfg.seqMax s.seqin ∧ Within s.cfg.kMax s.wtW ∧ Within s.cfg.kMax s.wtS ∧
    Within (nodeMax s.cfg) s.node ∧ Within (codeW s.cfg) s.codebuf ∧ Within (bitsMax s.cfg) s.bitbuf ∧
    Within s.cfg.cellsMax s.cellbuf ∧ Within (gridMax s.cfg) s.grid ∧ Within s.cfg.seqMax s.symout

/-- A word fits `w` bits. -/
abbrev Fits (w : Nat) (v : Word) : Prop := v.toNat < 2 ^ w

/-- A node's weight fits `WEIGHT_W` bits and its Symbol, if it has one, `SYM_W` bits. -/
abbrev NodeFits (p : Params) (n : Node) : Prop :=
  Fits p.weightW (nodeWeight n) ∧ ∀ v ∈ nodeSymbol n, Fits p.symW v

/-- The parameters meet `00_scope.md` R6, and every stored Symbol and weight fits its width (`00_scope.md` R7, R8,
`10_state.md` R29, R38 to R40, R46). -/
abbrev WidthsOk (s : State) : Prop :=
  s.cfg.wf ∧ Fits s.cfg.symW s.arg ∧ (∀ e ∈ s.seqin, Fits s.cfg.symW e.2) ∧
    (∀ e ∈ s.wtW, Fits s.cfg.weightW e.2) ∧ (∀ e ∈ s.wtS, Fits s.cfg.symW e.2) ∧
    (∀ e ∈ s.node, NodeFits s.cfg e.2) ∧ (∀ e ∈ s.symout, Fits s.cfg.symW e.2)

/-- The bits of `ERRACC` that are used, 8:1 (`10_state.md` R26). -/
def erraccUsed : Word := 0x1FE

/-- `ERR` is 0 or one of the codes 1 to 8 (`60_exceptions.md` R201), a recorded error has its `ERRACC` bit (R200), no
error means no information (`10_state.md` R25), and the unused bits of `ERRACC` read 0 (R26). -/
abbrev ErrorRecordOk (s : State) : Prop :=
  s.err ≤ 8 ∧ s.erracc &&& ~~~erraccUsed = 0 ∧ (s.err = 0 → s.einfo = 0) ∧
    (s.err ≠ 0 → s.erracc.getLsbD s.err.toNat = true)

/-- The nodes of the arena below `NNODES`. -/
def treeOf (s : State) : List Node := (List.range s.nnodes.toNat).filterMap s.node.read

/-- The exact weight of node `i` of a tree. -/
def weightAt (nodes : List Node) (i : Nat) : Nat := ((nodes[i]?).map (fun n => (nodeWeight n).toNat)).getD 0

/-- Is node `i` what `10_state.md` R41 items 2, 4 and 5 say: a leaf below index `k`, and from `k` on an internal node
whose two different children stand at lower indices and whose weight is exactly theirs together? -/
def nodeOk (nodes : List Node) (k i : Nat) : Bool :=
  match nodes[i]? with
  | some (Node.leaf _ _) => i < k
  | some (Node.internal w l r) =>
    k ≤ i && l < i && r < i && l != r && w.toNat == weightAt nodes l + weightAt nodes r
  | none => false

/-- The exact sum of the weights of the leaves, the first `k` nodes. -/
def leafWeights (nodes : List Node) (k : Nat) : Nat := ((nodes.take k).map (fun n => (nodeWeight n).toNat)).sum

/-- The tree invariants of `10_state.md` R41, item by item, of a list of nodes with `k` leaves. -/
abbrev TreeOk (p : Params) (nodes : List Node) (k : Nat) : Prop :=
  (nodes.length = 2 * k - 1 ∧ 1 ≤ k ∧ k ≤ p.kMax) ∧
    (∀ i < nodes.length, nodeOk nodes k i = true) ∧
    (nodes.filterMap nodeSymbol).Nodup ∧
    weightAt nodes (2 * k - 2) = leafWeights nodes k ∧
    (∀ i < 2 * k - 2, (nodes.flatMap nodeChildren).count i = 1) ∧
    (∀ n ∈ nodes, 1 ≤ (nodeWeight n).toNat ∧ Fits p.weightW (nodeWeight n))

/-- `10_state.md` R37 and R41: no tree means `ROOT = NIL` and `NNODES = 0`, and whenever `TV = 1` the arena below
`NNODES` is a tree whose root is its last node. -/
abbrev TreeInv (s : State) : Prop :=
  (s.tv = false → s.root = nil ∧ s.nnodes = 0) ∧
    (s.tv = true → (∀ i < s.nnodes.toNat, (s.node.read i).isSome = true) ∧
      TreeOk s.cfg (treeOf s) (leafCount s) ∧ s.root = wordOf (2 * leafCount s - 2))

/-- The invariant of the machine. -/
abbrev Inv (s : State) : Prop :=
  BuffersCanonical s ∧ BuffersWithin s ∧ WidthsOk s ∧ ErrorRecordOk s ∧ TreeInv s

/-- The values of `10_state.md` R49: every register at its reset value and no buffer element written. -/
abbrev AtReset (t : State) : Prop :=
  t.tv = false ∧ t.err = 0 ∧ t.einfo = 0 ∧ t.erracc = 0 ∧
    t.arg = 0 ∧ t.seqlen = 0 ∧ t.nsym = 0 ∧ t.nbits = 0 ∧ t.ncells = 0 ∧ t.totalbits = 0 ∧ t.gw = 0 ∧
    t.gh = 0 ∧ t.outlen = 0 ∧ t.padidx = 0 ∧ t.codelen = 0 ∧ t.nnodes = 0 ∧ t.root = 0xFFFFFFFF ∧
    t.seqin = [] ∧ t.wtW = [] ∧ t.wtS = [] ∧ t.node = [] ∧ t.codebuf = [] ∧ t.bitbuf = [] ∧
    t.cellbuf = [] ∧ t.grid = [] ∧ t.symout = []

/-- The next move of the host is a write of the word `c` to `CMD`, with the moves `rest` after it. -/
abbrev Commands (s : State) (c : Word) (rest : List HostMove) : Prop :=
  s.pending = .write 0 0x01 c :: rest

/-- The next move of the host resets the block: the hard reset, or a write of RESET's word to `CMD`
(`70_reset_and_hazards.md` R231). -/
abbrev Resets (s : State) : Prop :=
  (∃ rest, s.pending = .hardReset :: rest) ∨ ∃ rest, Commands s 0x0000000F rest

/-- The errors each command may record, as `(ERR, EINFO)` in the state `s` it starts from: the rows of
`60_exceptions.md` R201 and R214. -/
def MayRaise (s : State) (code : BitVec 4) (info : Word) : Instr → Prop
  | .nop => False
  | .reset => False
  | .count => code = 7 ∧ (info = 1 ∨ info = 2)
  | .build =>
    (code = 1 ∧ info = 0) ∨ (code = 7 ∧ (info = 2 ∨ info = 3)) ∨
      (code = 6 ∧ ∃ i < s.nsym.toNat, info = wordOf i ∨ info = wordOf (0x80000000 + i))
  | .encsym => (code = 3 ∨ code = 2) ∧ info = 0
  | .encode =>
    (code = 3 ∧ info = 0) ∨ (code = 7 ∧ (info = 1 ∨ info = 4)) ∨
      (code = 2 ∧ ∃ i < s.seqlen.toNat, info = wordOf i)
  | .decode =>
    (code = 3 ∧ info = 0) ∨ (code = 7 ∧ (info = 4 ∨ info = 7)) ∨
      (code = 4 ∧ ∃ p < s.nbits.toNat, info = wordOf p)
  | .pack => code = 7 ∧ info = 4
  | .unpack => (code = 7 ∧ info = 5) ∨ (code = 5 ∧ info = wordOf (cdiv s.totalbits.toNat 24))
  | .trim => (code = 7 ∧ info = 5) ∨ (code = 5 ∧ info = wordOf (cdiv s.totalbits.toNat 24))
  | .togrid => code = 7 ∧ info = 5
  | .fromgrid => code = 7 ∧ info = 6

/-- Tree `i` waits in the queue when node `n` is made: it stands below `n` and no node below `n` has it as a
child (`41_huffman_build.md` R120 to R123). -/
def Waiting (nodes : List Node) (n i : Nat) : Prop :=
  i < n ∧ i ∉ (nodes.take n).flatMap nodeChildren

/-- Node `i` is popped before node `j`: the lexicographic order of (weight, arena index)
(`41_huffman_build.md` R122). -/
def PoppedBefore (nodes : List Node) (i j : Nat) : Prop :=
  weightAt nodes i < weightAt nodes j ∨ (weightAt nodes i = weightAt nodes j ∧ i < j)

/-- Some leaf of the tree, one of its first `k` nodes, holds the Symbol `v`. -/
def HasLeaf (nodes : List Node) (k : Nat) (v : Symbol) : Prop := ∃ i < k, ∃ w, nodes[i]? = some (.leaf w v)

/-- The words the registers of space 0 read as, by index (`20_memory.md` R61, `10_state.md` R23 to R37); the `CFG` registers
of R28 apart. -/
def RegisterViews (s : State) : Prop :=
  hostRead s 0 0x00 = some 0x49444801 ∧ hostRead s 0 0x01 = some 0 ∧
    hostRead s 0 0x02 = some (if s.tv then 1 else 0) ∧ hostRead s 0 0x03 = some (s.err.setWidth 32) ∧
    hostRead s 0 0x04 = some s.einfo ∧ hostRead s 0 0x05 = some s.erracc ∧ hostRead s 0 0x06 = some s.arg ∧
    hostRead s 0 0x07 = some s.seqlen ∧ hostRead s 0 0x08 = some s.nsym ∧ hostRead s 0 0x09 = some s.nbits ∧
    hostRead s 0 0x0A = some s.ncells ∧ hostRead s 0 0x0B = some s.totalbits ∧ hostRead s 0 0x0C = some s.gw ∧
    hostRead s 0 0x0D = some s.gh ∧ hostRead s 0 0x0E = some s.outlen ∧ hostRead s 0 0x0F = some s.padidx ∧
    hostRead s 0 0x10 = some s.root ∧ hostRead s 0 0x11 = some s.nnodes ∧ hostRead s 0 0x12 = some s.codelen

/-- The four words of a written arena node `i`: its weight, its Symbol or 0, its children or `NIL` (`10_state.md` R40). -/
def NodeViews (s : State) : Prop :=
  ∀ i < nodeMax s.cfg,
    (∀ w v, s.node.read i = some (.leaf w v) →
      hostRead s 3 (wordOf (4 * i)) = some w ∧ hostRead s 3 (wordOf (4 * i + 1)) = some v ∧
        hostRead s 3 (wordOf (4 * i + 2)) = some 0xFFFFFFFF ∧ hostRead s 3 (wordOf (4 * i + 3)) = some 0xFFFFFFFF) ∧
    ∀ w l r, s.node.read i = some (.internal w l r) →
      hostRead s 3 (wordOf (4 * i)) = some w ∧ hostRead s 3 (wordOf (4 * i + 1)) = some 0 ∧
        hostRead s 3 (wordOf (4 * i + 2)) = some (wordOf l) ∧ hostRead s 3 (wordOf (4 * i + 3)) = some (wordOf r)

/-- Word `j` of a bit buffer has buffer bit `32j + q` at word bit `31 - q`, where that bit is written (`10_state.md` R42, R43,
`20_memory.md` R64); bits of `CODEBUF` at or beyond `CODE_W` read 0 (R42). -/
def BitViews (s : State) : Prop :=
  (∀ j < codeWords s.cfg, ∃ v, hostRead s 4 (wordOf j) = some v ∧ ∀ q < 32,
    (32 * j + q < codeW s.cfg → ∀ b, s.codebuf.read (32 * j + q) = some b → v.getLsbD (31 - q) = b) ∧
      (codeW s.cfg ≤ 32 * j + q → v.getLsbD (31 - q) = false)) ∧
  ∀ j < bitWords s.cfg, ∃ v, hostRead s 5 (wordOf j) = some v ∧ ∀ q < 32, 32 * j + q < bitsMax s.cfg →
    ∀ b, s.bitbuf.read (32 * j + q) = some b → v.getLsbD (31 - q) = b

/-- A written element of the other buffers reads as itself, zero-extended (`10_state.md` R38, R39, R44 to R46, `20_memory.md`
R67). -/
def ElementViews (s : State) : Prop :=
  (∀ i < s.cfg.seqMax, ∀ v, s.seqin.read i = some v → hostRead s 1 (wordOf i) = some v) ∧
    (∀ i < s.cfg.kMax, ∀ w, s.wtW.read i = some w → hostRead s 2 (wordOf (2 * i)) = some w) ∧
    (∀ i < s.cfg.kMax, ∀ v, s.wtS.read i = some v → hostRead s 2 (wordOf (2 * i + 1)) = some v) ∧
    (∀ i < s.cfg.cellsMax, ∀ c, s.cellbuf.read i = some c → hostRead s 6 (wordOf i) = some ((0x00 : BitVec 8) ++ c)) ∧
    (∀ i < gridMax s.cfg, ∀ c, s.grid.read i = some c → hostRead s 7 (wordOf i) = some ((0x00 : BitVec 8) ++ c)) ∧
    ∀ i < s.cfg.seqMax, ∀ v, s.symout.read i = some v → hostRead s 8 (wordOf i) = some v

/-- Entry `i` of the weight table is written, with a weight that is not zero and a Symbol that stands at no lower index: it
passes check 3 of `41_huffman_build.md` R124. -/
def EntryGood (s : State) (i : Nat) : Prop :=
  (∃ w, s.wtW.read i = some w ∧ w ≠ 0) ∧ ∃ v, s.wtS.read i = some v ∧ ∀ j < i, s.wtS.read j ≠ some v

/-- The length of the `j`-th chunk of a stream of `n` bits (`43_bitpacker.md` R161). -/
def chunkLength (n j : Nat) : Nat := min 24 (n - 24 * j)

end Sys2Proof.Safety
end

