-- ==== Sys2Proof/Certificates/Slice0/Obligations.lean ====
section
/-! DEFINITION. The statements for the provers. Each formalises what a numbered rule of the spec says the machine
does; OBLIGATIONS.json says which. -/

open Sys2Proof Sys2Proof.Machine Sys2Proof.Safety

/-! ## Encoding and command issue -/

/-- R91, R92: the decoder and the encoder are inverse to one another, on every command and on every word. -/
def Obligations.DecodeAndEncodeAgree : Prop :=
  (∀ i : Instr, i.wf = true → decode (encode i) = .ok i) ∧
    ∀ (c : Word) (i : Instr), decode c = .ok i → encode i = c

/-- R92: words written out from the opcode map, one of every family, and two that select no command. -/
def Obligations.SampleWordsDecode : Prop :=
  decode 0b00000000000000000000000000000000 = .ok .nop ∧
    decode 0b00000000000000000000000000000001 = .ok .count ∧
    decode 0b00000000000000000000000000000010 = .ok .build ∧
    decode 0b00000000000000000000000000000101 = .ok .decode ∧
    decode 0b00000000000000000000000000000111 = .ok .unpack ∧
    decode 0b00000000000000000000000000001000 = .ok .togrid ∧
    decode 0b00000000000000000000000000001111 = .ok .reset ∧
    decode 0b00000000000000000000000000001011 = .error (.reservedOpcode 0x0B) ∧
    decode 0b00000000000000000000000100000001 = .error (.highBits 0x101)

/-- R91, R99: a step whose host move writes a word to `CMD` that decodes to a well-formed command is that
command, executed in the state with the move taken. Around it the step only takes the move off the pending ones
and advances the model's own counter. -/
def Obligations.StepRunsTheDecodedCommand : Prop :=
  ∀ (s : State) (c : Word) (rest : List HostMove) (i : Instr),
    Commands s c rest → decode c = .ok i → i.wf = true →
      step s = exec i { s with pending := rest, epoch := s.epoch + 1 }

/-- R94, R210: every reserved opcode and every word with a bit set above it raises `IllegalCommandError` with the
word as information and changes nothing else. The fields `pending` and `epoch` are the model's own (log entries 2 and 3). -/
def Obligations.IllegalWordsRaise : Prop :=
  ∀ (s : State) (c : Word) (rest : List HostMove), Commands s c rest →
    (c.toNat / 256 ≠ 0 ∨ (0x0B ≤ c.toNat % 256 ∧ c.toNat % 256 ≤ 0x0E) ∨ 0x10 ≤ c.toNat % 256) →
      step s = .next { s with pending := rest, epoch := s.epoch + 1, err := 8, einfo := c,
                              erracc := s.erracc ||| 0x100 }

/-! ## Reset and the system commands -/

/-- R49, R230: the state after reset is the table's, in the reference configuration. -/
def Obligations.ResetStateHasTheTableValues : Prop :=
  AtReset State.reset ∧ State.reset.cfg = Params.reference ∧ regWord State.reset .id = 0x49444801

/-- R195: NOP, whole. -/
def Obligations.NopOnlyClearsErrAndEinfo : Prop :=
  decode 0x00000000 = .ok .nop ∧ ∀ s : State, exec .nop s = .next { s with err := 0, einfo := 0 }

/-- R196, R230, R231: RESET leaves every register at its reset value, every buffer element unwritten, the parameters and the
host's side as before, a hard reset between two host accesses has the same effect, and nothing but these two clears
`TV` or a bit of `ERRACC`. -/
def Obligations.ResetsLeaveTheResetState : Prop :=
  decode 0x0000000F = .ok .reset ∧
    (∀ s : State, ∃ t, exec .reset s = .next t ∧ AtReset t ∧ t.cfg = s.cfg ∧ t.pending = s.pending ∧
      t.readData = s.readData ∧ t.epoch = s.epoch) ∧
    (∀ (s : State) (rest : List HostMove), s.pending = .hardReset :: rest →
      step s = exec .reset { s with pending := rest, epoch := s.epoch + 1 }) ∧
    ∀ s t : State, step s = .next t → ¬ Resets s →
      (s.tv = true → t.tv = true) ∧ s.erracc &&& t.erracc = s.erracc

/-! ## Errors -/

/-- R200, R13: a failed command makes exactly three writes. -/
def Obligations.FailedCommandWritesOnlyTheErrorRecord : Prop :=
  ∀ (i : Instr) (s t : State), exec i s = .next t → t.err ≠ 0 →
    t = { s with err := t.err, einfo := t.einfo, erracc := s.erracc ||| wordOf (2 ^ t.err.toNat) }

/-- R25, R216: a successful command clears `ERR` and `EINFO` and, unless it is RESET, leaves `ERRACC` alone. -/
def Obligations.SuccessfulCommandClearsErr : Prop :=
  ∀ (i : Instr) (s t : State), exec i s = .next t → t.err = 0 →
    t.einfo = 0 ∧ (i ≠ .reset → t.erracc = s.erracc)

/-- R201, R214: each command records only the errors of its row, with the row's information. -/
def Obligations.CommandsRaiseOnlyTheirErrors : Prop :=
  ∀ (i : Instr) (s t : State), exec i s = .next t → t.err ≠ 0 → MayRaise s t.err t.einfo i

/-- R26, R202: no step other than a reset clears a bit of `ERRACC`, and a step that records an error sets its bit. -/
def Obligations.ErrAccAccumulates : Prop :=
  ∀ s t : State, step s = .next t → ¬ Resets s →
    s.erracc &&& t.erracc = s.erracc ∧
      ((∃ c rest, Commands s c rest) → t.err ≠ 0 → t.erracc.getLsbD t.err.toNat = true)

/-- R50, U1: a command that reads an element nothing has written faults the run, and the fault names the first such element in
the order of its reads. -/
def Obligations.UnwrittenElementsFault : Prop :=
  ∀ (s : State) (j : Nat),
    (s.seqlen.toNat ≤ s.cfg.seqMax → j < s.seqlen.toNat → (∀ i < j, (s.seqin.read i).isSome = true) →
      s.seqin.read j = none → exec .count s = .fault (.unwrittenElement .seqin j)) ∧
    (s.nbits.toNat ≤ bitsMax s.cfg → j < s.nbits.toNat → (∀ i < j, (s.bitbuf.read i).isSome = true) →
      s.bitbuf.read j = none →
        exec .pack s = .fault (.unwrittenElement .bitbuf j) ∧
        (s.tv = true → exec .decode s = .fault (.unwrittenElement .bitbuf j))) ∧
    (s.ncells.toNat ≤ s.cfg.cellsMax → j < s.ncells.toNat → (∀ i < j, (s.cellbuf.read i).isSome = true) →
      s.cellbuf.read j = none →
        exec .togrid s = .fault (.unwrittenElement .cellbuf j) ∧
        (s.ncells.toNat = cdiv s.totalbits.toNat 24 → exec .unpack s = .fault (.unwrittenElement .cellbuf j))) ∧
    (s.gw.toNat * s.gh.toNat ≤ s.cfg.cellsMax → j < s.gw.toNat * s.gh.toNat →
      (∀ i < j, (s.grid.read i).isSome = true) → s.grid.read j = none →
        exec .fromgrid s = .fault (.unwrittenElement .grid j)) ∧
    (TreeInv s → s.tv = true → s.seqlen.toNat ≤ s.cfg.seqMax → j < s.seqlen.toNat →
      (∀ i < j, ∃ v, s.seqin.read i = some v ∧ HasLeaf (treeOf s) (leafCount s) v) → s.seqin.read j = none →
        exec .encode s = .fault (.unwrittenElement .seqin j)) ∧
    (s.nsym.toNat ≤ s.cfg.kMax → j < s.nsym.toNat → (∀ i < j, EntryGood s i) →
      (s.wtW.read j = none → exec .build s = .fault (.unwrittenElement .wt j)) ∧
      ∀ w, s.wtW.read j = some w → w ≠ 0 → s.wtS.read j = none →
        (0 < j → exec .build s = .fault (.unwrittenElement .wt j)) ∧
        (s.nsym = 1 → w.toNat < 2 ^ s.cfg.weightW → exec .build s = .fault (.unwrittenElement .wt j)) ∧
        ∀ u, j = 0 → 1 < s.nsym.toNat → s.wtW.read 1 = some u → u ≠ 0 →
          exec .build s = .fault (.unwrittenElement .wt j))

/-! ## Whole-machine rules -/

/-- R126, R24, R231: the arena, `ROOT`, `NNODES` and `TV` change only at a successful BUILD, which leaves `TV = 1`, and at
the two resets, which leave `TV = 0`: no other command, no failed BUILD and no host write changes them. -/
def Obligations.OnlyBuildAndResetChangeTheTree : Prop :=
  ∀ s t : State, step s = .next t →
    ¬ (t.node = s.node ∧ t.root = s.root ∧ t.nnodes = s.nnodes ∧ t.tv = s.tv) →
      (t.tv = true ∧ t.err = 0 ∧ ∃ rest, Commands s 0x00000002 rest) ∨ (t.tv = false ∧ Resets s)

/-- R28: the `CFG` registers report the parameters, and no step changes one, a reset included. -/
def Obligations.ConfigurationIsConstant : Prop :=
  (∀ s t : State, step s = .next t → t.cfg = s.cfg) ∧
    ∀ s : State, hostRead s 0 0x18 = some (wordOf s.cfg.symW) ∧ hostRead s 0 0x19 = some (wordOf s.cfg.kMax) ∧
      hostRead s 0 0x1A = some (wordOf s.cfg.weightW) ∧ hostRead s 0 0x1B = some (wordOf s.cfg.seqMax) ∧
      hostRead s 0 0x1C = some (wordOf s.cfg.cellsMax)

/-! ## Frames (R51) -/

/-- COUNT writes `WT[0..NSYM)` and `NSYM`, BUILD writes `NODE[0..NNODES)`, `ROOT`, `NNODES` and `TV`, and either the error
record; every other register and every other buffer element is unchanged, whether the command succeeds or fails. -/
def Obligations.FrameOfCountAndBuild : Prop :=
  ∀ s t : State, s.cfg.wf →
    (exec .count s = .next t →
      t = { s with err := t.err, einfo := t.einfo, erracc := t.erracc, wtW := t.wtW, wtS := t.wtS, nsym := t.nsym } ∧
      ∀ j, t.nsym.toNat ≤ j → t.wtW.read j = s.wtW.read j ∧ t.wtS.read j = s.wtS.read j) ∧
    (exec .build s = .next t →
      t = { s with err := t.err, einfo := t.einfo, erracc := t.erracc, node := t.node, root := t.root,
                   nnodes := t.nnodes, tv := t.tv } ∧
      ∀ j, t.nnodes.toNat ≤ j → t.node.read j = s.node.read j)

/-- ENCSYM writes `CODEBUF[0..CODELEN)` and `CODELEN`, ENCODE `BITBUF[0..NBITS)` and `NBITS`, DECODE `SYMOUT[0..OUTLEN)` and
`OUTLEN`, each the error record, and nothing else. -/
def Obligations.FrameOfEncodeAndDecode : Prop :=
  ∀ s t : State, s.cfg.wf →
    (exec .encsym s = .next t →
      t = { s with err := t.err, einfo := t.einfo, erracc := t.erracc, codebuf := t.codebuf, codelen := t.codelen } ∧
      ∀ j, t.codelen.toNat ≤ j → t.codebuf.read j = s.codebuf.read j) ∧
    (exec .encode s = .next t →
      t = { s with err := t.err, einfo := t.einfo, erracc := t.erracc, bitbuf := t.bitbuf, nbits := t.nbits } ∧
      ∀ j, t.nbits.toNat ≤ j → t.bitbuf.read j = s.bitbuf.read j) ∧
    (exec .decode s = .next t →
      t = { s with err := t.err, einfo := t.einfo, erracc := t.erracc, symout := t.symout, outlen := t.outlen } ∧
      ∀ j, t.outlen.toNat ≤ j → t.symout.read j = s.symout.read j)

/-- PACK writes `CELLBUF[0..NCELLS)`, `NCELLS` and `TOTALBITS`, UNPACK `BITBUF[0..NBITS)` and `NBITS`, TRIM `NCELLS`, each the
error record, and nothing else. -/
def Obligations.FrameOfPackUnpackTrim : Prop :=
  ∀ s t : State,
    (exec .pack s = .next t →
      t = { s with err := t.err, einfo := t.einfo, erracc := t.erracc, cellbuf := t.cellbuf, ncells := t.ncells,
                   totalbits := t.totalbits } ∧
      ∀ j, t.ncells.toNat ≤ j → t.cellbuf.read j = s.cellbuf.read j) ∧
    (exec .unpack s = .next t →
      t = { s with err := t.err, einfo := t.einfo, erracc := t.erracc, bitbuf := t.bitbuf, nbits := t.nbits } ∧
      ∀ j, t.nbits.toNat ≤ j → t.bitbuf.read j = s.bitbuf.read j) ∧
    (exec .trim s = .next t →
      t = { s with err := t.err, einfo := t.einfo, erracc := t.erracc, ncells := t.ncells })

/-- TOGRID writes `GRID[0..GW x GH)`, `GW` and `GH`, FROMGRID `CELLBUF[0..GW x GH)`, `NCELLS` and `PADIDX`, each the error
record, and nothing else. -/
def Obligations.FrameOfTogridAndFromgrid : Prop :=
  ∀ s t : State, s.cfg.wf →
    (exec .togrid s = .next t →
      t = { s with err := t.err, einfo := t.einfo, erracc := t.erracc, grid := t.grid, gw := t.gw, gh := t.gh } ∧
      ∀ j, t.gw.toNat * t.gh.toNat ≤ j → t.grid.read j = s.grid.read j) ∧
    (exec .fromgrid s = .next t →
      t = { s with err := t.err, einfo := t.einfo, erracc := t.erracc, cellbuf := t.cellbuf, ncells := t.ncells,
                   padidx := t.padidx } ∧
      ∀ j, s.gw.toNat * s.gh.toNat ≤ j → t.cellbuf.read j = s.cellbuf.read j)

/-! ## COUNT -/

/-- R110, R111, R112: COUNT succeeds on a written sequence within the capacities and leaves the frequency table: the
distinct Symbols in order of first occurrence, each with its number of occurrences, the counts adding up to the
length. -/
def Obligations.CountFillsTheFrequencyTable : Prop :=
  ∀ (s : State) (seq : List Symbol), seq.length = s.seqlen.toNat → Holds s.seqin seq →
    s.seqlen.toNat ≤ s.cfg.seqMax → seq.dedup.length ≤ s.cfg.kMax →
      ∃ (t : State) (ws : List Weight) (ss : List Symbol), exec .count s = .next t ∧ t.err = 0 ∧
        Holds t.wtW ws ∧ Holds t.wtS ss ∧ ws.length = t.nsym.toNat ∧ ss.length = t.nsym.toNat ∧
        ss.Nodup ∧ (∀ v, v ∈ ss ↔ v ∈ seq) ∧
        ss.Pairwise (fun u v => seq.idxOf u < seq.idxOf v) ∧
        ws.map BitVec.toNat = ss.map (fun v => seq.count v) ∧
        weightSum ws = s.seqlen.toNat

/-- R112, R209: COUNT's two errors, in their order. -/
def Obligations.CountErrors : Prop :=
  ∀ s : State,
    (s.cfg.seqMax < s.seqlen.toNat → exec .count s = .next (s.raise .capacity 1)) ∧
    (∀ seq : List Symbol, seq.length = s.seqlen.toNat → Holds s.seqin seq → s.seqlen.toNat ≤ s.cfg.seqMax →
      s.cfg.kMax < seq.dedup.length → exec .count s = .next (s.raise .capacity 2))

/-- R113, last sentence: a table COUNT produced passes BUILD's table checks unless it is empty. -/
def Obligations.CountedTableBuilds : Prop :=
  ∀ s t : State, s.cfg.wf → exec .count s = .next t → t.err = 0 → t.nsym ≠ 0 →
    ∃ u, exec .build t = .next u ∧ u.err = 0 ∧ u.tv = true

/-! ## BUILD -/

/-- R121, R125, R41: on a good table of `K` entries BUILD succeeds; the leaves are the entries in table order, `ROOT` is the
last node, and the nodes meet the tree invariants. -/
def Obligations.BuildMakesATreeOfTheTable : Prop :=
  ∀ (s : State) (ws : List Weight) (ss : List Symbol), s.cfg.wf → s.nsym ≠ 0 → s.nsym.toNat ≤ s.cfg.kMax →
    ws.length = s.nsym.toNat → ss.length = s.nsym.toNat → Holds s.wtW ws → Holds s.wtS ss →
    (∀ w ∈ ws, w ≠ 0) → ss.Nodup → weightSum ws < 2 ^ s.cfg.weightW →
      ∃ t, exec .build s = .next t ∧ t.err = 0 ∧ t.tv = true ∧
        t.nnodes.toNat = 2 * s.nsym.toNat - 1 ∧ t.root.toNat = 2 * s.nsym.toNat - 2 ∧
        (∀ i < s.nsym.toNat, ∃ w v, ws[i]? = some w ∧ ss[i]? = some v ∧ t.node.read i = some (.leaf w v)) ∧
        (∀ i < t.nnodes.toNat, (t.node.read i).isSome = true) ∧
        TreeOk s.cfg (treeOf t) s.nsym.toNat

/-- R120, R122, R123: node `n` of a built tree combines the two least trees waiting in the queue, the least as its left
child and the next as its right. -/
def Obligations.BuildCombinesTheTwoLeast : Prop :=
  ∀ s t : State, s.cfg.wf → exec .build s = .next t → t.err = 0 →
    ∀ n, s.nsym.toNat ≤ n → n < 2 * s.nsym.toNat - 1 →
      ∃ w l r, (treeOf t)[n]? = some (.internal w l r) ∧
        w.toNat = weightAt (treeOf t) l + weightAt (treeOf t) r ∧
        Waiting (treeOf t) n l ∧ Waiting (treeOf t) n r ∧ l ≠ r ∧
        (∀ i, Waiting (treeOf t) n i → i ≠ l → PoppedBefore (treeOf t) l i) ∧
        (∀ i, Waiting (treeOf t) n i → i ≠ l → i ≠ r → PoppedBefore (treeOf t) r i)

/-- R124: the four table checks, in their order, each with its error and information. -/
def Obligations.BuildChecksTheTable : Prop :=
  ∀ (s : State) (ws : List Weight) (ss : List Symbol),
    (s.nsym = 0 → exec .build s = .next (s.raise .emptyAlphabet 0)) ∧
    (s.nsym ≠ 0 → s.cfg.kMax < s.nsym.toNat → exec .build s = .next (s.raise .capacity 2)) ∧
    (s.nsym ≠ 0 → s.nsym.toNat ≤ s.cfg.kMax → ws.length = s.nsym.toNat → ss.length = s.nsym.toNat →
      Holds s.wtW ws → Holds s.wtS ss →
      (∀ i < s.nsym.toNat, (∀ j < i, ws[j]? ≠ some 0) → (ss.take i).Nodup →
        (ws[i]? = some 0 → exec .build s = .next (s.raise .invalidTable (wordOf i))) ∧
        (ws[i]? ≠ some 0 → (∃ j < i, ss[j]? = ss[i]?) →
          exec .build s = .next (s.raise .invalidTable (wordOf (0x80000000 + i))))) ∧
      ((∀ w ∈ ws, w ≠ 0) → ss.Nodup → 2 ^ s.cfg.weightW ≤ weightSum ws →
        exec .build s = .next (s.raise .capacity 3)))

/-! ## Codes of a tree -/

/-- R129: `leaf_of` finds the one leaf with a Symbol, and none exactly when there is no such leaf. -/
def Obligations.LeafOfFindsTheOneLeaf : Prop :=
  ∀ (p : Params) (nodes : List Node) (k : Nat) (v : Symbol), TreeOk p nodes k →
    (∀ i, leafOf nodes k v = some i ↔ i < k ∧ ∃ w, nodes[i]? = some (.leaf w v)) ∧
    (leafOf nodes k v = none ↔ ¬ HasLeaf nodes k v)

/-- R128, R127: the defining equations of `path` and `code`. -/
def Obligations.PathsFollowTheChildren : Prop :=
  ∀ (p : Params) (nodes : List Node) (k : Nat), TreeOk p nodes k →
    pathOf nodes (2 * k - 2) (2 * k - 2) = some [] ∧
    (∀ (n : Nat) (w : Weight) (l r : Nat), nodes[n]? = some (.internal w l r) →
      ∃ bits, pathOf nodes (2 * k - 2) n = some bits ∧
        pathOf nodes (2 * k - 2) l = some (bits ++ [false]) ∧
        pathOf nodes (2 * k - 2) r = some (bits ++ [true])) ∧
    ∀ i < k, codeOf nodes (2 * k - 2) k i = if k = 1 then some [false] else pathOf nodes (2 * k - 2) i

/-- R131: every Code has a length between 1 and `K - 1`, and 1 for `K = 1`, so it fits `CODE_W` bits. -/
def Obligations.CodeLengthsAreBounded : Prop :=
  ∀ (p : Params) (nodes : List Node) (k i : Nat), TreeOk p nodes k → i < k →
    ∃ code, codeOf nodes (2 * k - 2) k i = some code ∧ 1 ≤ code.length ∧
      (2 ≤ k → code.length ≤ k - 1) ∧ (k = 1 → code.length = 1) ∧ code.length ≤ codeW p

/-- R130 item 1: "no leaf's code is a prefix of another leaf's code". -/
def Obligations.CodesArePrefixFree : Prop :=
  ∀ (p : Params) (nodes : List Node) (k i j : Nat) (ci cj : List Bool), TreeOk p nodes k → i < k → j < k → i ≠ j →
    codeOf nodes (2 * k - 2) k i = some ci → codeOf nodes (2 * k - 2) k j = some cj → ¬ ci <+: cj

/-- R130 item 2: "every internal node's weight equals the exact sum of all leaf weights beneath it". A leaf is beneath a node
when the node's path begins the leaf's. -/
def Obligations.WeightsAreConserved : Prop :=
  ∀ (p : Params) (nodes : List Node) (k i : Nat) (path : List Bool), TreeOk p nodes k → i < nodes.length →
    pathOf nodes (2 * k - 2) i = some path →
      weightAt nodes i =
        (((List.range k).filter (fun j => (pathOf nodes (2 * k - 2) j).any (fun q => path.isPrefixOf q))).map
          (weightAt nodes)).sum

/-- R147 item 2: `decode_fn(encode_fn(seq)) = ok(seq)` for every sequence of Symbols of the tree. -/
def Obligations.DecodingUndoesEncoding : Prop :=
  ∀ (p : Params) (nodes : List Node) (k : Nat) (seq : List Symbol), TreeOk p nodes k →
    (∀ v ∈ seq, HasLeaf nodes k v) →
      ∃ bits, encodeFn nodes (2 * k - 2) k seq = some bits ∧ decodeFn nodes (2 * k - 2) k bits = .ok seq

/-- R144, R145, R207, and R147 item 3: decoding either finds Symbols whose Codes make up the whole stream, or reports the index
of the first bit that belongs to no complete Code: before it stand whole Codes, and no Code begins at it. -/
def Obligations.DecodingFindsCodesOrTheFirstIncompleteOne : Prop :=
  ∀ (p : Params) (nodes : List Node) (k : Nat) (bits : List Bool), TreeOk p nodes k →
    (∃ out, decodeFn nodes (2 * k - 2) k bits = .ok out ∧ encodeFn nodes (2 * k - 2) k out = some bits) ∨
    (∃ q out, decodeFn nodes (2 * k - 2) k bits = .malformed q ∧ q < bits.length ∧
      encodeFn nodes (2 * k - 2) k out = some (bits.take q) ∧
      ∀ i < k, ∀ c, codeOf nodes (2 * k - 2) k i = some c → ¬ c <+: bits.drop q)

/-! ## ENCSYM, ENCODE, DECODE -/

/-- R141: with a valid tree and a Symbol of it in `ARG`, ENCSYM leaves the Symbol's Code. -/
def Obligations.EncsymGivesTheCode : Prop :=
  ∀ (s : State) (i : Nat) (w : Weight), s.cfg.wf → TreeInv s → s.tv = true → i < leafCount s →
    s.node.read i = some (.leaf w s.arg) →
      ∃ t code, exec .encsym s = .next t ∧ t.err = 0 ∧
        codeOf (treeOf s) (2 * leafCount s - 2) (leafCount s) i = some code ∧
        Holds t.codebuf code ∧ t.codelen.toNat = code.length

/-- R141, R205, R206: ENCSYM's two errors, in their order. -/
def Obligations.EncsymErrors : Prop :=
  ∀ s : State,
    (s.tv = false → exec .encsym s = .next (s.raise .uninitializedTree 0)) ∧
    (TreeInv s → s.tv = true → ¬ HasLeaf (treeOf s) (leafCount s) s.arg →
      exec .encsym s = .next (s.raise .unknownSymbol 0))

/-- R142, R143: with a valid tree, a written sequence of its Symbols and room for the stream, ENCODE leaves
the concatenation of the Codes in input order. -/
def Obligations.EncodeConcatenatesTheCodes : Prop :=
  ∀ (s : State) (seq : List Symbol) (codes : List (List Bool)), s.cfg.wf → TreeInv s → s.tv = true →
    seq.length = s.seqlen.toNat → Holds s.seqin seq → s.seqlen.toNat ≤ s.cfg.seqMax →
    codes.length = seq.length →
    (∀ j < seq.length, ∃ i w v, i < leafCount s ∧ seq[j]? = some v ∧ s.node.read i = some (.leaf w v) ∧
      codeOf (treeOf s) (2 * leafCount s - 2) (leafCount s) i = codes[j]?) →
    codes.flatten.length ≤ bitsMax s.cfg →
      ∃ t, exec .encode s = .next t ∧ t.err = 0 ∧ Holds t.bitbuf codes.flatten ∧
        t.nbits.toNat = codes.flatten.length

/-- R143, R214: ENCODE's four errors, in their order. The sequence need only be written up to the Symbol that is not in
the tree. -/
def Obligations.EncodeErrors : Prop :=
  ∀ s : State,
    (s.tv = false → exec .encode s = .next (s.raise .uninitializedTree 0)) ∧
    (s.tv = true → s.cfg.seqMax < s.seqlen.toNat → exec .encode s = .next (s.raise .capacity 1)) ∧
    (TreeInv s → s.tv = true → s.seqlen.toNat ≤ s.cfg.seqMax →
      (∀ (seq : List Symbol) (v : Symbol), seq.length < s.seqlen.toNat → Holds s.seqin (seq ++ [v]) →
        (∀ u ∈ seq, HasLeaf (treeOf s) (leafCount s) u) → ¬ HasLeaf (treeOf s) (leafCount s) v →
          exec .encode s = .next (s.raise .unknownSymbol (wordOf seq.length))) ∧
      (∀ (seq : List Symbol) (bits : List Bool), seq.length = s.seqlen.toNat → Holds s.seqin seq →
        encodeFn (treeOf s) (2 * leafCount s - 2) (leafCount s) seq = some bits →
        bitsMax s.cfg < bits.length → exec .encode s = .next (s.raise .capacity 4)))

/-- R146, R147: with a valid tree and the stream that `seq` encodes to, DECODE leaves `seq`. -/
def Obligations.DecodeGivesTheSequence : Prop :=
  ∀ (s : State) (seq : List Symbol) (bits : List Bool), s.cfg.wf → TreeInv s → s.tv = true →
    bits.length = s.nbits.toNat → Holds s.bitbuf bits → s.nbits.toNat ≤ bitsMax s.cfg →
    encodeFn (treeOf s) (2 * leafCount s - 2) (leafCount s) seq = some bits → seq.length ≤ s.cfg.seqMax →
      ∃ t, exec .decode s = .next t ∧ t.err = 0 ∧ Holds t.symout seq ∧ t.outlen.toNat = seq.length

/-- R146, R214: DECODE's four errors, in their order. -/
def Obligations.DecodeErrors : Prop :=
  ∀ s : State,
    (s.tv = false → exec .decode s = .next (s.raise .uninitializedTree 0)) ∧
    (s.tv = true → bitsMax s.cfg < s.nbits.toNat → exec .decode s = .next (s.raise .capacity 4)) ∧
    (∀ bits : List Bool, TreeInv s → s.tv = true → bits.length = s.nbits.toNat → Holds s.bitbuf bits →
      s.nbits.toNat ≤ bitsMax s.cfg →
      (∀ p, decodeFn (treeOf s) (2 * leafCount s - 2) (leafCount s) bits = .malformed p →
        exec .decode s = .next (s.raise .malformedStream (wordOf p))) ∧
      (∀ out, decodeFn (treeOf s) (2 * leafCount s - 2) (leafCount s) bits = .ok out → s.cfg.seqMax < out.length →
        exec .decode s = .next (s.raise .capacity 7)))

/-! ## PACK, UNPACK, TRIM -/

/-- R161, R162: PACK's Cells bit by bit. Stream bit `24j + t` is bit `r - 1 - t` of Cell `j`, `r` the length of the chunk, and
the bits from `r` up are zero. -/
def Obligations.PackPlacesTheStreamBits : Prop :=
  ∀ (s : State) (bits : List Bool), bits.length = s.nbits.toNat → Holds s.bitbuf bits →
    s.nbits.toNat ≤ bitsMax s.cfg →
      ∃ t, exec .pack s = .next t ∧ t.err = 0 ∧ t.totalbits = s.nbits ∧
        t.ncells.toNat = cdiv s.nbits.toNat 24 ∧
        ∀ j < t.ncells.toNat, ∃ c, t.cellbuf.read j = some c ∧
          (∀ q < chunkLength bits.length j,
            bits[24 * j + q]? = some (c.getLsbD (chunkLength bits.length j - 1 - q))) ∧
          ∀ q, chunkLength bits.length j ≤ q → c.getLsbD q = false

/-- R163, R165: UNPACK's stream bit by bit: bit `q` is bit `r - 1 - q mod 24` of Cell `q div 24`, `r` the number of meaningful
bits of that Cell. -/
def Obligations.UnpackReadsTheStreamBits : Prop :=
  ∀ (s : State) (cells : List Cell), cells.length = s.ncells.toNat → Holds s.cellbuf cells →
    s.ncells.toNat ≤ s.cfg.cellsMax → s.ncells.toNat = cdiv s.totalbits.toNat 24 →
      ∃ t, exec .unpack s = .next t ∧ t.err = 0 ∧ t.nbits = s.totalbits ∧
        ∀ q < s.totalbits.toNat, ∃ c, cells[q / 24]? = some c ∧
          t.bitbuf.read q = some (c.getLsbD (chunkLength s.totalbits.toNat (q / 24) - 1 - q % 24))

/-- R168: TRIM, whole. -/
def Obligations.TrimSetsTheCellCount : Prop :=
  decode 0x0000000A = .ok .trim ∧
  ∀ s : State,
    (s.cfg.cellsMax < s.ncells.toNat → exec .trim s = .next (s.raise .capacity 5)) ∧
    (s.ncells.toNat ≤ s.cfg.cellsMax → s.ncells.toNat < cdiv s.totalbits.toNat 24 →
      exec .trim s = .next (s.raise .framing (wordOf (cdiv s.totalbits.toNat 24)))) ∧
    (s.ncells.toNat ≤ s.cfg.cellsMax → cdiv s.totalbits.toNat 24 ≤ s.ncells.toNat →
      exec .trim s = .next { s with ncells := wordOf (cdiv s.totalbits.toNat 24), err := 0, einfo := 0 })

/-- R169 item 1: framing idempotence, in commands: PACK then UNPACK leaves the stream as it was, both `ERR` values 0. -/
def Obligations.PackThenUnpackRestoresTheStream : Prop :=
  ∀ (s : State) (bits : List Bool), bits.length = s.nbits.toNat → Holds s.bitbuf bits →
    s.nbits.toNat ≤ bitsMax s.cfg →
      ∃ t u, exec .pack s = .next t ∧ t.err = 0 ∧ exec .unpack t = .next u ∧ u.err = 0 ∧
        Holds u.bitbuf bits ∧ u.nbits = s.nbits

/-! ## TOGRID, FROMGRID -/

/-- R183: the facts about `dims`, all four. -/
def Obligations.GridDimensions : Prop :=
  ∀ n : Nat, 1 ≤ n →
    ((gridWidth n - 1) ^ 2 < n ∧ n ≤ gridWidth n ^ 2) ∧
    (n ≤ gridWidth n * gridHeight n ∧ gridWidth n * gridHeight n - n < gridWidth n) ∧
    (gridHeight n = gridWidth n ∨ gridHeight n = gridWidth n - 1) ∧
    ∀ p : Params, n ≤ p.cellsMax →
      gridWidth n * gridHeight n ≤ gridWidth n ^ 2 ∧ gridWidth n ^ 2 ≤ csqrt p.cellsMax ^ 2 ∧
        csqrt p.cellsMax ^ 2 = gridMax p

/-- R180, R181, R182: TOGRID leaves the least square-fitting width, the least height with that width, the Cells in row-major order
and the marker beyond them; the empty sequence has the empty Grid. -/
def Obligations.TogridPlacesTheCells : Prop :=
  ∀ (s : State) (cells : List Cell), cells.length = s.ncells.toNat → Holds s.cellbuf cells →
    s.ncells.toNat ≤ s.cfg.cellsMax →
      ∃ t, exec .togrid s = .next t ∧ t.err = 0 ∧
        cells.length ≤ t.gw.toNat ^ 2 ∧ (∀ w, cells.length ≤ w ^ 2 → t.gw.toNat ≤ w) ∧
        cells.length ≤ t.gh.toNat * t.gw.toNat ∧
        (∀ h, cells.length ≤ h * t.gw.toNat → t.gh.toNat ≤ h) ∧
        Holds t.grid cells ∧
        ∀ p, cells.length ≤ p → p < t.gw.toNat * t.gh.toNat → t.grid.read p = some 0xFFFFFF

/-- R184, R185: FROMGRID copies every Cell of the Grid and reports the least position of a marker-valued one, or the size. -/
def Obligations.FromgridCopiesTheGrid : Prop :=
  ∀ (s : State) (cells : List Cell), cells.length = s.gw.toNat * s.gh.toNat → Holds s.grid cells →
    s.cfg.wf → s.gw.toNat * s.gh.toNat ≤ s.cfg.cellsMax →
      ∃ t, exec .fromgrid s = .next t ∧ t.err = 0 ∧ t.ncells.toNat = s.gw.toNat * s.gh.toNat ∧
        Holds t.cellbuf cells ∧
        (∀ p < t.padidx.toNat, cells[p]? ≠ some 0xFFFFFF) ∧
        (t.padidx.toNat = cells.length ∨ cells[t.padidx.toNat]? = some 0xFFFFFF)

/-- R162, R165, R181, R185, R208, R209: the errors of PACK, UNPACK, TOGRID and FROMGRID, in their order; the product of `GW`
and `GH` is exact. -/
def Obligations.PackerAndGridErrors : Prop :=
  ∀ s : State,
    (bitsMax s.cfg < s.nbits.toNat → exec .pack s = .next (s.raise .capacity 4)) ∧
    (s.cfg.cellsMax < s.ncells.toNat → exec .unpack s = .next (s.raise .capacity 5)) ∧
    (s.ncells.toNat ≤ s.cfg.cellsMax → s.ncells.toNat ≠ cdiv s.totalbits.toNat 24 →
      exec .unpack s = .next (s.raise .framing (wordOf (cdiv s.totalbits.toNat 24)))) ∧
    (s.cfg.cellsMax < s.ncells.toNat → exec .togrid s = .next (s.raise .capacity 5)) ∧
    (s.cfg.cellsMax < s.gw.toNat * s.gh.toNat → exec .fromgrid s = .next (s.raise .capacity 6))

/-- R187 items 1 and 2: TOGRID, FROMGRID and TRIM give the Cells back. -/
def Obligations.GridRoundTrip : Prop :=
  ∀ (s : State) (cells : List Cell), s.cfg.wf → cells.length = s.ncells.toNat → Holds s.cellbuf cells →
    s.ncells.toNat ≤ s.cfg.cellsMax → gridWidth cells.length * gridHeight cells.length ≤ s.cfg.cellsMax →
    cdiv s.totalbits.toNat 24 = cells.length →
      ∃ t u v, exec .togrid s = .next t ∧ exec .fromgrid t = .next u ∧ exec .trim u = .next v ∧
        t.err = 0 ∧ u.err = 0 ∧ v.err = 0 ∧
        cells.length ≤ t.gw.toNat * t.gh.toNat ∧ u.ncells.toNat = t.gw.toNat * t.gh.toNat ∧
        Holds u.cellbuf cells ∧
        (∀ p, cells.length ≤ p → p < u.ncells.toNat → u.cellbuf.read p = some 0xFFFFFF) ∧
        Holds v.cellbuf cells ∧ v.ncells = s.ncells

/-! ## The two data flows -/

/-- R147 item 1: COUNT, BUILD, ENCODE, DECODE give the sequence back, every `ERR` 0, "given the capacities suffice": the
sequence fits `SEQIN`, its Symbols the table, and its encoding `BITBUF`. The encoding is never longer than the longest
Codes would make it (R131). -/
def Obligations.EncodeDecodeRoundTrip : Prop :=
  ∀ (s : State) (seq : List Symbol), s.cfg.wf → seq.length = s.seqlen.toNat → Holds s.seqin seq → seq ≠ [] →
    s.seqlen.toNat ≤ s.cfg.seqMax → seq.dedup.length ≤ s.cfg.kMax →
      ∃ a b bits, exec .count s = .next a ∧ exec .build a = .next b ∧ a.err = 0 ∧ b.err = 0 ∧
        encodeFn (treeOf b) (2 * leafCount b - 2) (leafCount b) seq = some bits ∧
        bits.length ≤ seq.length * max 1 (seq.dedup.length - 1) ∧
        (bits.length ≤ bitsMax s.cfg →
          ∃ c d, exec .encode b = .next c ∧ exec .decode c = .next d ∧ c.err = 0 ∧ d.err = 0 ∧
            d.outlen = s.seqlen ∧ Holds d.symout seq)

/-- R187 item 3: the whole path, COMPRESS then EXPAND (R97), ends with the sequence in `SYMOUT` and every `ERR` 0, "provided
the capacities suffice": those of the round trip above, and the Grid of the packed Cells fits `CELLBUF` again. -/
def Obligations.CompressExpandRoundTrip : Prop :=
  ∀ (s : State) (seq : List Symbol), s.cfg.wf → seq.length = s.seqlen.toNat → Holds s.seqin seq → seq ≠ [] →
    s.seqlen.toNat ≤ s.cfg.seqMax → seq.dedup.length ≤ s.cfg.kMax →
      ∃ a b bits, exec .count s = .next a ∧ exec .build a = .next b ∧ a.err = 0 ∧ b.err = 0 ∧
        encodeFn (treeOf b) (2 * leafCount b - 2) (leafCount b) seq = some bits ∧
        (bits.length ≤ bitsMax s.cfg →
          ∃ c d e, exec .encode b = .next c ∧ exec .pack c = .next d ∧ exec .togrid d = .next e ∧
            c.err = 0 ∧ d.err = 0 ∧ e.err = 0 ∧ d.ncells.toNat = cdiv bits.length 24 ∧
            (gridWidth (cdiv bits.length 24) * gridHeight (cdiv bits.length 24) ≤ s.cfg.cellsMax →
              ∃ f g h i, exec .fromgrid e = .next f ∧ exec .trim f = .next g ∧ exec .unpack g = .next h ∧
                exec .decode h = .next i ∧ f.err = 0 ∧ g.err = 0 ∧ h.err = 0 ∧ i.err = 0 ∧
                i.erracc = s.erracc ∧ i.outlen = s.seqlen ∧ Holds i.symout seq))

/-! ## Host access -/

/-- R62: a read at a defined address returns its word and changes no state of the block, and a second read of the address
returns the same word. The word is the host view of R23 to R46: of every register (the `CFG` registers stand in
`ConfigurationIsConstant`), of every written arena node, of the written bits of `CODEBUF` and `BITBUF`, and of every other
written element. -/
def Obligations.HostReadChangesNothing : Prop :=
  (∀ (s : State) (space : BitVec 4) (index v : Word) (rest : List HostMove),
    s.pending = .read space index :: rest → hostRead s space index = some v →
      step s = .next { s with pending := rest, readData := v } ∧
      hostRead { s with pending := rest, readData := v } space index = some v) ∧
  ∀ s : State, RegisterViews s ∧ (s.cfg.wf → NodeViews s ∧ BitViews s ∧ ElementViews s)

/-- R70: an access to an undefined address is refused. -/
def Obligations.UndefinedAddressesAreRefused : Prop :=
  ∀ (s : State) (space : BitVec 4) (index v : Word) (rest : List HostMove),
    (9 ≤ space.toNat ∨
      (space = 0 ∧ ((0x13 ≤ index.toNat ∧ index.toNat ≤ 0x17) ∨ 0x1D ≤ index.toNat)) ∨
      ∃ sp, spaceOf space = some sp ∧ sp ≠ .reg ∧ spaceWords s.cfg sp ≤ index.toNat) →
    (s.pending = .read space index :: rest → step s = .refused (.undefinedAddress space index)) ∧
    (s.pending = .write space index v :: rest → step s = .refused (.undefinedAddress space index))

/-- R63, R22: a write to a read-only register or buffer is ignored: no state changes and no error is recorded. -/
def Obligations.WritesToReadOnlyAreIgnored : Prop :=
  ∀ (s : State) (space : BitVec 4) (index v : Word) (rest : List HostMove),
    s.pending = .write space index v :: rest →
    ((∃ r, placeOf s.cfg space index = some (.reg r) ∧ regAccess r = .ro) ∨
      (space = 3 ∧ index.toNat < 4 * nodeMax s.cfg) ∨ (space = 4 ∧ index.toNat < codeWords s.cfg) ∨
      (space = 8 ∧ index.toNat < s.cfg.seqMax)) →
      step s = .next { s with pending := rest, epoch := s.epoch + 1 }

/-- R63: "A write to a `RW` address changes that one element or register and nothing else": the host view of every other
address, written and unwritten bits alike, is as before, and the write starts no command. -/
def Obligations.HostWriteChangesOneElement : Prop :=
  ∀ (s t : State) (space space' : BitVec 4) (index index' v : Word) (rest : List HostMove) (pl : Place),
    s.pending = .write space index v :: rest → ¬ (space = 0 ∧ index = 0x01) → step s = .next t →
    ¬ (space = space' ∧ index = index') → placeOf s.cfg space' index' = some pl →
      viewAt t pl = viewAt s pl

/-- R67, R64, R43: what a write keeps is what a read then gives back, zero-extended: `SYM_W` bits of a Symbol, `WEIGHT_W` bits
of a weight, 24 bits of a Cell, all 32 of a length register; and word bit `31 - q` of `BITBUF` word `j` goes to buffer bit
`32j + q` and comes back from there, for the bits below `BITS_MAX`. -/
def Obligations.HostWritesAreNarrowed : Prop :=
  ∀ (s t : State) (space : BitVec 4) (index v : Word) (rest : List HostMove), s.cfg.wf →
    s.pending = .write space index v :: rest → step s = .next t →
    (space = 1 → hostRead t space index = some (wordOf (v.toNat % 2 ^ s.cfg.symW))) ∧
    (space = 2 → index.toNat % 2 = 0 → hostRead t space index = some (wordOf (v.toNat % 2 ^ s.cfg.weightW))) ∧
    (space = 2 → index.toNat % 2 = 1 → hostRead t space index = some (wordOf (v.toNat % 2 ^ s.cfg.symW))) ∧
    (space = 6 ∨ space = 7 → hostRead t space index = some (wordOf (v.toNat % 2 ^ 24))) ∧
    (space = 0 → index = 0x06 → hostRead t space index = some (wordOf (v.toNat % 2 ^ s.cfg.symW))) ∧
    (space = 0 → 0x07 ≤ index.toNat → index.toNat ≤ 0x0D → hostRead t space index = some v) ∧
    (space = 5 → ∃ u, hostRead t space index = some u ∧ ∀ q < 32, 32 * index.toNat + q < bitsMax s.cfg →
      t.bitbuf.read (32 * index.toNat + q) = some (v.getLsbD (31 - q)) ∧ u.getLsbD (31 - q) = v.getLsbD (31 - q))

/-! ## Invariants -/

/-- The invariant of the machine holds at reset. That the buffers are lists in a canonical form (log entry 8) and that
`State.reset` is in the reference configuration (log entry 1) are the model's choices. -/
def Obligations.InvariantHoldsAtReset : Prop := Inv State.reset

/-- Every step keeps every buffer in its canonical form. -/
def Obligations.StepKeepsBuffersCanonical : Prop :=
  ∀ s t : State, BuffersCanonical s → step s = .next t → BuffersCanonical t

/-- R7, R8, R67: every step keeps every stored Symbol and weight within its width. -/
def Obligations.StepKeepsWidths : Prop :=
  ∀ s t : State, WidthsOk s → step s = .next t → WidthsOk t

/-- R25, R26, R201: every step keeps the error record well-formed. -/
def Obligations.StepKeepsTheErrorRecord : Prop :=
  ∀ s t : State, ErrorRecordOk s → step s = .next t → ErrorRecordOk t

/-- R69: no step writes an element outside a buffer's valid indices. -/
def Obligations.StepKeepsBuffersWithinCapacity : Prop :=
  ∀ s t : State, Inv s → step s = .next t → BuffersWithin t

/-- R41: whenever `TV = 1` the tree invariants hold; every step keeps it so. -/
def Obligations.StepKeepsTheTree : Prop :=
  ∀ s t : State, Inv s → step s = .next t → TreeInv t

/-- No run reaches the model's own fault of a broken tree: from a state that meets the invariant no step answers it. -/
def Obligations.TheTreeIsNeverBroken : Prop :=
  ∀ s : State, Inv s → step s ≠ .fault .brokenTree
end

