-- ==== Sys2Proof/Laws/Arith.lean ====
section
/-! SUPPORT. What the arithmetic of Machine/Arith.lean computes (`00_scope.md` R9, R10). -/

namespace Sys2Proof.Machine

/-- `cdiv(a, b)` is the least `q` with `q x b >= a` (`00_scope.md` R10). -/
theorem cdiv_le_iff {b : Nat} (hb : 0 < b) (a q : Nat) : cdiv a b ≤ q ↔ a ≤ q * b := by
  unfold cdiv
  rw [Nat.div_le_iff_le_mul_add_pred hb, Nat.mul_comm b q]
  omega

theorem le_cdiv_mul {b : Nat} (hb : 0 < b) (a : Nat) : a ≤ cdiv a b * b :=
  (cdiv_le_iff hb a _).1 (Nat.le_refl _)

@[simp] theorem cdiv_zero {b : Nat} (hb : 0 < b) : cdiv 0 b = 0 := by
  have := (cdiv_le_iff hb 0 0).2 (Nat.zero_le _)
  omega

theorem csqrtFrom_spec {n : Nat} :
    ∀ {fuel w : Nat}, n ≤ w + fuel → (∀ v < w, v * v < n) →
      n ≤ csqrtFrom n fuel w * csqrtFrom n fuel w ∧ ∀ v < csqrtFrom n fuel w, v * v < n
  | 0, w, hf, hw => by
    simp only [csqrtFrom]
    exact ⟨Nat.le_trans hf (Nat.le_mul_self w), hw⟩
  | fuel + 1, w, hf, hw => by
    simp only [csqrtFrom]
    split
    · exact ⟨by assumption, hw⟩
    · refine csqrtFrom_spec (by omega) fun v hv => ?_
      rcases Nat.lt_or_ge v w with h | h
      · exact hw v h
      · obtain rfl : v = w := by omega
        omega

theorem csqrt_sq_ge (n : Nat) : n ≤ csqrt n * csqrt n :=
  (csqrtFrom_spec (by omega) (by simp)).1

/-- `csqrt(n)` is the least `w` with `w x w >= n` (`00_scope.md` R10). -/
theorem csqrt_le_iff (n w : Nat) : csqrt n ≤ w ↔ n ≤ w * w := by
  constructor
  · intro h
    exact Nat.le_trans (csqrt_sq_ge n) (Nat.mul_le_mul h h)
  · intro h
    by_contra hc
    have := (csqrtFrom_spec (n := n) (fuel := n) (w := 0) (by omega) (by simp)).2 w (by
      simpa [csqrt] using Nat.lt_of_not_le hc)
    omega

theorem bitsVal_append (s t : List Bool) : bitsVal (s ++ t) = bitsVal s * 2 ^ t.length + bitsVal t := by
  unfold bitsVal
  rw [List.foldl_append]
  generalize s.foldl (fun a b => 2 * a + b.toNat) 0 = a
  induction t using List.reverseRecOn generalizing a with
  | nil => simp
  | append_singleton t b ih =>
    simp only [List.foldl_append, List.foldl_cons, List.foldl_nil, List.length_append, List.length_cons,
      List.length_nil, ih a, Nat.pow_succ]
    ring

@[simp] theorem bitsVal_nil : bitsVal [] = 0 := rfl

@[simp] theorem bitsVal_singleton (b : Bool) : bitsVal [b] = b.toNat := by simp [bitsVal]

/-- A sequence of `r` bits spells a number below `2^r` (`43_bitpacker.md` R161). -/
theorem bitsVal_lt (s : List Bool) : bitsVal s < 2 ^ s.length := by
  induction s using List.reverseRecOn with
  | nil => simp
  | append_singleton s b ih =>
    rw [bitsVal_append]
    have : b.toNat ≤ 1 := Bool.toNat_le b
    simp only [List.length_append, List.length_cons, List.length_nil, bitsVal_singleton, Nat.pow_succ]
    omega

@[simp] theorem length_bitsOf (r v : Nat) : (bitsOf r v).length = r := by simp [bitsOf]

/-- Bit `t` of `bitsof_r(v)`, the first the most significant (`00_scope.md` R9). -/
theorem getElem?_bitsOf {r t : Nat} (v : Nat) (h : t < r) : (bitsOf r v)[t]? = some (v.testBit (r - 1 - t)) := by
  simp [bitsOf, h]

theorem testBit_bitsVal (s : List Bool) (k : Nat) (h : k < s.length) :
    (bitsVal s).testBit k = s[s.length - 1 - k] := by
  induction s using List.reverseRecOn generalizing k with
  | nil => simp at h
  | append_singleton s b ih =>
    have hv : bitsVal (s ++ [b]) = 2 * bitsVal s + b.toNat := by
      rw [bitsVal_append]; simp; ring
    rw [hv]
    cases k with
    | zero => cases b <;> simp [Nat.testBit_zero]
    | succ k =>
      have hk : k < s.length := by simpa using h
      have hdiv : (2 * bitsVal s + b.toNat) / 2 = bitsVal s := by
        have := Bool.toNat_le b
        omega
      rw [Nat.testBit_succ, hdiv, ih k hk]
      have : (s ++ [b]).length - 1 - (k + 1) = s.length - 1 - k := by simp; omega
      simp only [this]
      rw [List.getElem_append_left]

/-- `bitsof_r` undoes `val` on a sequence of length `r` (`00_scope.md` R9). -/
theorem bitsOf_bitsVal (s : List Bool) : bitsOf s.length (bitsVal s) = s := by
  refine List.ext_getElem (by simp) fun t h1 h2 => ?_
  have ht : t < s.length := h2
  simp only [bitsOf, List.getElem_map, List.getElem_range]
  rw [testBit_bitsVal s _ (by omega)]
  congr 1
  omega

end Sys2Proof.Machine
end

