-- ==== Sys2Proof/Laws/Memory.lean ====
section
/-! SUPPORT. The laws of buffers: reading after writing, and that every operation keeps the canonical form. -/

namespace Sys2Proof.Machine

variable {α : Type}

/-- The form of every buffer of `State.reset`. -/
@[simp] theorem Memory.wf_nil : Memory.wf ([] : Memory α) := List.Pairwise.nil

@[simp] theorem Memory.read_nil (i : Nat) : Memory.read ([] : Memory α) i = none := rfl

theorem Memory.read_write (m : Memory α) (i j : Nat) (v : α) :
    (m.write i v).read j = if i = j then some v else m.read j := by
  induction m with
  | nil => simp [Memory.write, Memory.read]
  | cons e rest ih =>
    obtain ⟨k, u⟩ := e
    simp only [Memory.write]
    split
    · simp [Memory.read]
    · split
      · subst i
        simp only [Memory.read]
        split <;> simp_all
      · simp only [Memory.read, ih]
        split <;> split <;> first | rfl | (exfalso; omega)

@[simp] theorem Memory.read_write_same (m : Memory α) (i : Nat) (v : α) : (m.write i v).read i = some v := by
  simp [Memory.read_write]

theorem Memory.read_write_other (m : Memory α) {i j : Nat} (h : i ≠ j) (v : α) :
    (m.write i v).read j = m.read j := by
  simp [Memory.read_write, h]

/-- The entries of a written buffer: the new one, and old ones. -/
theorem Memory.mem_write {m : Memory α} {i : Nat} {v : α} {e : Nat × α} (h : e ∈ m.write i v) :
    e = (i, v) ∨ e ∈ m := by
  induction m with
  | nil => simpa [Memory.write] using h
  | cons e' rest ih =>
    obtain ⟨k, u⟩ := e'
    simp only [Memory.write] at h
    split at h
    · simpa using h
    · split at h
      · rcases List.mem_cons.1 h with h | h
        · exact .inl h
        · exact .inr (List.mem_cons_of_mem _ h)
      · rcases List.mem_cons.1 h with h | h
        · exact .inr (h ▸ List.mem_cons_self)
        · rcases ih h with h | h
          · exact .inl h
          · exact .inr (List.mem_cons_of_mem _ h)

theorem Memory.wf_write {m : Memory α} (h : m.wf) (i : Nat) (v : α) : (m.write i v).wf := by
  induction m with
  | nil => simp [Memory.write, Memory.wf]
  | cons e rest ih =>
    obtain ⟨k, u⟩ := e
    obtain ⟨hk, hr⟩ := List.pairwise_cons.1 h
    simp only [Memory.write]
    split
    · rename_i hik
      exact List.pairwise_cons.2 ⟨fun e he => by
        rcases List.mem_cons.1 he with rfl | he
        · exact hik
        · exact Nat.lt_trans hik (hk e he), h⟩
    · split
      · subst i
        exact List.pairwise_cons.2 ⟨hk, hr⟩
      · refine List.pairwise_cons.2 ⟨fun e he => ?_, ih hr⟩
        rcases Memory.mem_write he with rfl | he
        · show k < i
          omega
        · exact hk e he

theorem Memory.wf_writeRange {m : Memory α} (h : m.wf) (i : Nat) (vs : List α) : (m.writeRange i vs).wf := by
  induction vs generalizing m i with
  | nil => exact h
  | cons v vs ih => exact ih (Memory.wf_write h i v) (i + 1)

theorem Memory.mem_writeRange {m : Memory α} {i : Nat} {vs : List α} {e : Nat × α}
    (h : e ∈ m.writeRange i vs) : (i ≤ e.1 ∧ e.1 < i + vs.length ∧ e.2 ∈ vs) ∨ e ∈ m := by
  induction vs generalizing m i with
  | nil => exact .inr h
  | cons v vs ih =>
    rcases ih h with ⟨h1, h2, h3⟩ | h
    · exact .inl ⟨by omega, by simp only [List.length_cons]; omega, List.mem_cons_of_mem _ h3⟩
    · rcases Memory.mem_write h with rfl | h
      · exact .inl ⟨Nat.le_refl i, by simp, List.mem_cons_self⟩
      · exact .inr h

/-- What a range write leaves at each index: the new element inside the range, the old one outside. -/
theorem Memory.read_writeRange (m : Memory α) (i j : Nat) (vs : List α) :
    (m.writeRange i vs).read j = if i ≤ j ∧ j < i + vs.length then vs[j - i]? else m.read j := by
  induction vs generalizing m i with
  | nil =>
    have h : ¬(i ≤ j ∧ j < i + ([] : List α).length) := by simp
    simp only [Memory.writeRange, if_neg h]
  | cons v vs ih =>
    simp only [Memory.writeRange, ih, Memory.read_write, List.length_cons]
    by_cases hij : i = j
    · subst hij
      have h2 : i ≤ i ∧ i < i + (vs.length + 1) := by omega
      simp [h2]
    · by_cases hin : i + 1 ≤ j ∧ j < i + 1 + vs.length
      · have h2 : i ≤ j ∧ j < i + (vs.length + 1) := by omega
        have h3 : j - i = (j - (i + 1)) + 1 := by omega
        rw [if_pos hin, if_pos h2, h3, List.getElem?_cons_succ]
      · have h2 : ¬(i ≤ j ∧ j < i + (vs.length + 1)) := by omega
        rw [if_neg hin, if_neg h2, if_neg hij]

theorem Memory.read_writeRange_inside (m : Memory α) {j : Nat} {vs : List α} (h : j < vs.length) :
    (m.writeRange 0 vs).read j = vs[j]? := by
  simp [Memory.read_writeRange, h]

theorem Memory.read_writeRange_outside (m : Memory α) {j : Nat} {vs : List α} (h : vs.length ≤ j) :
    (m.writeRange 0 vs).read j = m.read j := by
  simp [Memory.read_writeRange, Nat.not_lt.2 h]

/-- After a range write from index 0 the buffer holds exactly what was written. -/
theorem Memory.holds_writeRange (m : Memory α) (vs : List α) : Safety.Holds (m.writeRange 0 vs) vs :=
  fun _ h => Memory.read_writeRange_inside m h

/-- A read value is one of the entries. -/
theorem Memory.mem_of_read {m : Memory α} {i : Nat} {v : α} (h : m.read i = some v) : (i, v) ∈ m := by
  induction m with
  | nil => cases h
  | cons e rest ih =>
    obtain ⟨k, u⟩ := e
    simp only [Memory.read] at h
    split at h
    · cases h
      subst i
      exact List.mem_cons_self
    · exact List.mem_cons_of_mem _ (ih h)

/-- In canonical form an entry is what its index reads as, so equal contents are equal data. -/
theorem Memory.read_of_mem {m : Memory α} (hw : m.wf) {i : Nat} {v : α} (h : (i, v) ∈ m) :
    m.read i = some v := by
  induction m with
  | nil => cases h
  | cons e rest ih =>
    obtain ⟨k, u⟩ := e
    obtain ⟨hk, hr⟩ := List.pairwise_cons.1 hw
    rcases List.mem_cons.1 h with h | h
    · cases h
      simp [Memory.read]
    · have : k < i := hk _ h
      simp [Memory.read, Nat.ne_of_lt this, ih hr h]

/-- Two canonical buffers that read alike at every index are the same data. -/
theorem Memory.ext_read {m m' : Memory α} (hw : m.wf) (hw' : m'.wf) (h : ∀ i, m.read i = m'.read i) :
    m = m' := by
  have nodup : ∀ {m : Memory α}, m.wf → m.Nodup := fun hw =>
    List.Pairwise.imp (fun hab heq => absurd (congrArg Prod.fst heq) (Nat.ne_of_lt hab)) hw
  refine List.Perm.eq_of_pairwise (le := fun a b => a.1 < b.1) (fun a b _ _ h1 h2 => ?_) hw hw' ?_
  · exact absurd h1 (Nat.lt_asymm h2)
  · refine (List.perm_ext_iff_of_nodup (nodup hw) (nodup hw')).2 fun e => ?_
    obtain ⟨i, v⟩ := e
    exact ⟨fun he => Memory.mem_of_read (h i ▸ Memory.read_of_mem hw he),
      fun he => Memory.mem_of_read ((h i).symm ▸ Memory.read_of_mem hw' he)⟩

end Sys2Proof.Machine
end

