-- ==== Sys2Proof/Laws/State.lean ====
section
/-! SUPPORT. One lemma per field of `State` and per named update of Machine/Ops.lean: what the update leaves in the
field. No later proof unfolds a record update. -/

namespace Sys2Proof.Machine

@[simp] theorem State.raise_cfg (s : State) (e : ErrKind) (info : Word) : (s.raise e info).cfg = s.cfg := rfl
@[simp] theorem State.raise_tv (s : State) (e : ErrKind) (info : Word) : (s.raise e info).tv = s.tv := rfl
@[simp] theorem State.raise_err (s : State) (e : ErrKind) (info : Word) : (s.raise e info).err = errCode e := rfl
@[simp] theorem State.raise_einfo (s : State) (e : ErrKind) (info : Word) : (s.raise e info).einfo = info := rfl
@[simp] theorem State.raise_erracc (s : State) (e : ErrKind) (info : Word) : (s.raise e info).erracc = s.erracc ||| errBit e := rfl
@[simp] theorem State.raise_arg (s : State) (e : ErrKind) (info : Word) : (s.raise e info).arg = s.arg := rfl
@[simp] theorem State.raise_seqlen (s : State) (e : ErrKind) (info : Word) : (s.raise e info).seqlen = s.seqlen := rfl
@[simp] theorem State.raise_nsym (s : State) (e : ErrKind) (info : Word) : (s.raise e info).nsym = s.nsym := rfl
@[simp] theorem State.raise_nbits (s : State) (e : ErrKind) (info : Word) : (s.raise e info).nbits = s.nbits := rfl
@[simp] theorem State.raise_ncells (s : State) (e : ErrKind) (info : Word) : (s.raise e info).ncells = s.ncells := rfl
@[simp] theorem State.raise_totalbits (s : State) (e : ErrKind) (info : Word) : (s.raise e info).totalbits = s.totalbits := rfl
@[simp] theorem State.raise_gw (s : State) (e : ErrKind) (info : Word) : (s.raise e info).gw = s.gw := rfl
@[simp] theorem State.raise_gh (s : State) (e : ErrKind) (info : Word) : (s.raise e info).gh = s.gh := rfl
@[simp] theorem State.raise_outlen (s : State) (e : ErrKind) (info : Word) : (s.raise e info).outlen = s.outlen := rfl
@[simp] theorem State.raise_padidx (s : State) (e : ErrKind) (info : Word) : (s.raise e info).padidx = s.padidx := rfl
@[simp] theorem State.raise_codelen (s : State) (e : ErrKind) (info : Word) : (s.raise e info).codelen = s.codelen := rfl
@[simp] theorem State.raise_root (s : State) (e : ErrKind) (info : Word) : (s.raise e info).root = s.root := rfl
@[simp] theorem State.raise_nnodes (s : State) (e : ErrKind) (info : Word) : (s.raise e info).nnodes = s.nnodes := rfl
@[simp] theorem State.raise_seqin (s : State) (e : ErrKind) (info : Word) : (s.raise e info).seqin = s.seqin := rfl
@[simp] theorem State.raise_wtW (s : State) (e : ErrKind) (info : Word) : (s.raise e info).wtW = s.wtW := rfl
@[simp] theorem State.raise_wtS (s : State) (e : ErrKind) (info : Word) : (s.raise e info).wtS = s.wtS := rfl
@[simp] theorem State.raise_node (s : State) (e : ErrKind) (info : Word) : (s.raise e info).node = s.node := rfl
@[simp] theorem State.raise_codebuf (s : State) (e : ErrKind) (info : Word) : (s.raise e info).codebuf = s.codebuf := rfl
@[simp] theorem State.raise_bitbuf (s : State) (e : ErrKind) (info : Word) : (s.raise e info).bitbuf = s.bitbuf := rfl
@[simp] theorem State.raise_cellbuf (s : State) (e : ErrKind) (info : Word) : (s.raise e info).cellbuf = s.cellbuf := rfl
@[simp] theorem State.raise_grid (s : State) (e : ErrKind) (info : Word) : (s.raise e info).grid = s.grid := rfl
@[simp] theorem State.raise_symout (s : State) (e : ErrKind) (info : Word) : (s.raise e info).symout = s.symout := rfl
@[simp] theorem State.raise_pending (s : State) (e : ErrKind) (info : Word) : (s.raise e info).pending = s.pending := rfl
@[simp] theorem State.raise_readData (s : State) (e : ErrKind) (info : Word) : (s.raise e info).readData = s.readData := rfl
@[simp] theorem State.raise_epoch (s : State) (e : ErrKind) (info : Word) : (s.raise e info).epoch = s.epoch := rfl

@[simp] theorem State.succeed_cfg (s : State) : s.succeed.cfg = s.cfg := rfl
@[simp] theorem State.succeed_tv (s : State) : s.succeed.tv = s.tv := rfl
@[simp] theorem State.succeed_err (s : State) : s.succeed.err = 0 := rfl
@[simp] theorem State.succeed_einfo (s : State) : s.succeed.einfo = 0 := rfl
@[simp] theorem State.succeed_erracc (s : State) : s.succeed.erracc = s.erracc := rfl
@[simp] theorem State.succeed_arg (s : State) : s.succeed.arg = s.arg := rfl
@[simp] theorem State.succeed_seqlen (s : State) : s.succeed.seqlen = s.seqlen := rfl
@[simp] theorem State.succeed_nsym (s : State) : s.succeed.nsym = s.nsym := rfl
@[simp] theorem State.succeed_nbits (s : State) : s.succeed.nbits = s.nbits := rfl
@[simp] theorem State.succeed_ncells (s : State) : s.succeed.ncells = s.ncells := rfl
@[simp] theorem State.succeed_totalbits (s : State) : s.succeed.totalbits = s.totalbits := rfl
@[simp] theorem State.succeed_gw (s : State) : s.succeed.gw = s.gw := rfl
@[simp] theorem State.succeed_gh (s : State) : s.succeed.gh = s.gh := rfl
@[simp] theorem State.succeed_outlen (s : State) : s.succeed.outlen = s.outlen := rfl
@[simp] theorem State.succeed_padidx (s : State) : s.succeed.padidx = s.padidx := rfl
@[simp] theorem State.succeed_codelen (s : State) : s.succeed.codelen = s.codelen := rfl
@[simp] theorem State.succeed_root (s : State) : s.succeed.root = s.root := rfl
@[simp] theorem State.succeed_nnodes (s : State) : s.succeed.nnodes = s.nnodes := rfl
@[simp] theorem State.succeed_seqin (s : State) : s.succeed.seqin = s.seqin := rfl
@[simp] theorem State.succeed_wtW (s : State) : s.succeed.wtW = s.wtW := rfl
@[simp] theorem State.succeed_wtS (s : State) : s.succeed.wtS = s.wtS := rfl
@[simp] theorem State.succeed_node (s : State) : s.succeed.node = s.node := rfl
@[simp] theorem State.succeed_codebuf (s : State) : s.succeed.codebuf = s.codebuf := rfl
@[simp] theorem State.succeed_bitbuf (s : State) : s.succeed.bitbuf = s.bitbuf := rfl
@[simp] theorem State.succeed_cellbuf (s : State) : s.succeed.cellbuf = s.cellbuf := rfl
@[simp] theorem State.succeed_grid (s : State) : s.succeed.grid = s.grid := rfl
@[simp] theorem State.succeed_symout (s : State) : s.succeed.symout = s.symout := rfl
@[simp] theorem State.succeed_pending (s : State) : s.succeed.pending = s.pending := rfl
@[simp] theorem State.succeed_readData (s : State) : s.succeed.readData = s.readData := rfl
@[simp] theorem State.succeed_epoch (s : State) : s.succeed.epoch = s.epoch := rfl

@[simp] theorem State.putTable_cfg (s : State) (ws : List Weight) (ss : List Symbol) : (s.putTable ws ss).cfg = s.cfg := rfl
@[simp] theorem State.putTable_tv (s : State) (ws : List Weight) (ss : List Symbol) : (s.putTable ws ss).tv = s.tv := rfl
@[simp] theorem State.putTable_err (s : State) (ws : List Weight) (ss : List Symbol) : (s.putTable ws ss).err = s.err := rfl
@[simp] theorem State.putTable_einfo (s : State) (ws : List Weight) (ss : List Symbol) : (s.putTable ws ss).einfo = s.einfo := rfl
@[simp] theorem State.putTable_erracc (s : State) (ws : List Weight) (ss : List Symbol) : (s.putTable ws ss).erracc = s.erracc := rfl
@[simp] theorem State.putTable_arg (s : State) (ws : List Weight) (ss : List Symbol) : (s.putTable ws ss).arg = s.arg := rfl
@[simp] theorem State.putTable_seqlen (s : State) (ws : List Weight) (ss : List Symbol) : (s.putTable ws ss).seqlen = s.seqlen := rfl
@[simp] theorem State.putTable_nsym (s : State) (ws : List Weight) (ss : List Symbol) : (s.putTable ws ss).nsym = wordOf ws.length := rfl
@[simp] theorem State.putTable_nbits (s : State) (ws : List Weight) (ss : List Symbol) : (s.putTable ws ss).nbits = s.nbits := rfl
@[simp] theorem State.putTable_ncells (s : State) (ws : List Weight) (ss : List Symbol) : (s.putTable ws ss).ncells = s.ncells := rfl
@[simp] theorem State.putTable_totalbits (s : State) (ws : List Weight) (ss : List Symbol) : (s.putTable ws ss).totalbits = s.totalbits := rfl
@[simp] theorem State.putTable_gw (s : State) (ws : List Weight) (ss : List Symbol) : (s.putTable ws ss).gw = s.gw := rfl
@[simp] theorem State.putTable_gh (s : State) (ws : List Weight) (ss : List Symbol) : (s.putTable ws ss).gh = s.gh := rfl
@[simp] theorem State.putTable_outlen (s : State) (ws : List Weight) (ss : List Symbol) : (s.putTable ws ss).outlen = s.outlen := rfl
@[simp] theorem State.putTable_padidx (s : State) (ws : List Weight) (ss : List Symbol) : (s.putTable ws ss).padidx = s.padidx := rfl
@[simp] theorem State.putTable_codelen (s : State) (ws : List Weight) (ss : List Symbol) : (s.putTable ws ss).codelen = s.codelen := rfl
@[simp] theorem State.putTable_root (s : State) (ws : List Weight) (ss : List Symbol) : (s.putTable ws ss).root = s.root := rfl
@[simp] theorem State.putTable_nnodes (s : State) (ws : List Weight) (ss : List Symbol) : (s.putTable ws ss).nnodes = s.nnodes := rfl
@[simp] theorem State.putTable_seqin (s : State) (ws : List Weight) (ss : List Symbol) : (s.putTable ws ss).seqin = s.seqin := rfl
@[simp] theorem State.putTable_wtW (s : State) (ws : List Weight) (ss : List Symbol) : (s.putTable ws ss).wtW = s.wtW.writeRange 0 ws := rfl
@[simp] theorem State.putTable_wtS (s : State) (ws : List Weight) (ss : List Symbol) : (s.putTable ws ss).wtS = s.wtS.writeRange 0 ss := rfl
@[simp] theorem State.putTable_node (s : State) (ws : List Weight) (ss : List Symbol) : (s.putTable ws ss).node = s.node := rfl
@[simp] theorem State.putTable_codebuf (s : State) (ws : List Weight) (ss : List Symbol) : (s.putTable ws ss).codebuf = s.codebuf := rfl
@[simp] theorem State.putTable_bitbuf (s : State) (ws : List Weight) (ss : List Symbol) : (s.putTable ws ss).bitbuf = s.bitbuf := rfl
@[simp] theorem State.putTable_cellbuf (s : State) (ws : List Weight) (ss : List Symbol) : (s.putTable ws ss).cellbuf = s.cellbuf := rfl
@[simp] theorem State.putTable_grid (s : State) (ws : List Weight) (ss : List Symbol) : (s.putTable ws ss).grid = s.grid := rfl
@[simp] theorem State.putTable_symout (s : State) (ws : List Weight) (ss : List Symbol) : (s.putTable ws ss).symout = s.symout := rfl
@[simp] theorem State.putTable_pending (s : State) (ws : List Weight) (ss : List Symbol) : (s.putTable ws ss).pending = s.pending := rfl
@[simp] theorem State.putTable_readData (s : State) (ws : List Weight) (ss : List Symbol) : (s.putTable ws ss).readData = s.readData := rfl
@[simp] theorem State.putTable_epoch (s : State) (ws : List Weight) (ss : List Symbol) : (s.putTable ws ss).epoch = s.epoch := rfl

@[simp] theorem State.putTree_cfg (s : State) (nodes : List Node) : (s.putTree nodes).cfg = s.cfg := rfl
@[simp] theorem State.putTree_tv (s : State) (nodes : List Node) : (s.putTree nodes).tv = true := rfl
@[simp] theorem State.putTree_err (s : State) (nodes : List Node) : (s.putTree nodes).err = s.err := rfl
@[simp] theorem State.putTree_einfo (s : State) (nodes : List Node) : (s.putTree nodes).einfo = s.einfo := rfl
@[simp] theorem State.putTree_erracc (s : State) (nodes : List Node) : (s.putTree nodes).erracc = s.erracc := rfl
@[simp] theorem State.putTree_arg (s : State) (nodes : List Node) : (s.putTree nodes).arg = s.arg := rfl
@[simp] theorem State.putTree_seqlen (s : State) (nodes : List Node) : (s.putTree nodes).seqlen = s.seqlen := rfl
@[simp] theorem State.putTree_nsym (s : State) (nodes : List Node) : (s.putTree nodes).nsym = s.nsym := rfl
@[simp] theorem State.putTree_nbits (s : State) (nodes : List Node) : (s.putTree nodes).nbits = s.nbits := rfl
@[simp] theorem State.putTree_ncells (s : State) (nodes : List Node) : (s.putTree nodes).ncells = s.ncells := rfl
@[simp] theorem State.putTree_totalbits (s : State) (nodes : List Node) : (s.putTree nodes).totalbits = s.totalbits := rfl
@[simp] theorem State.putTree_gw (s : State) (nodes : List Node) : (s.putTree nodes).gw = s.gw := rfl
@[simp] theorem State.putTree_gh (s : State) (nodes : List Node) : (s.putTree nodes).gh = s.gh := rfl
@[simp] theorem State.putTree_outlen (s : State) (nodes : List Node) : (s.putTree nodes).outlen = s.outlen := rfl
@[simp] theorem State.putTree_padidx (s : State) (nodes : List Node) : (s.putTree nodes).padidx = s.padidx := rfl
@[simp] theorem State.putTree_codelen (s : State) (nodes : List Node) : (s.putTree nodes).codelen = s.codelen := rfl
@[simp] theorem State.putTree_root (s : State) (nodes : List Node) : (s.putTree nodes).root = wordOf (nodes.length - 1) := rfl
@[simp] theorem State.putTree_nnodes (s : State) (nodes : List Node) : (s.putTree nodes).nnodes = wordOf nodes.length := rfl
@[simp] theorem State.putTree_seqin (s : State) (nodes : List Node) : (s.putTree nodes).seqin = s.seqin := rfl
@[simp] theorem State.putTree_wtW (s : State) (nodes : List Node) : (s.putTree nodes).wtW = s.wtW := rfl
@[simp] theorem State.putTree_wtS (s : State) (nodes : List Node) : (s.putTree nodes).wtS = s.wtS := rfl
@[simp] theorem State.putTree_node (s : State) (nodes : List Node) : (s.putTree nodes).node = s.node.writeRange 0 nodes := rfl
@[simp] theorem State.putTree_codebuf (s : State) (nodes : List Node) : (s.putTree nodes).codebuf = s.codebuf := rfl
@[simp] theorem State.putTree_bitbuf (s : State) (nodes : List Node) : (s.putTree nodes).bitbuf = s.bitbuf := rfl
@[simp] theorem State.putTree_cellbuf (s : State) (nodes : List Node) : (s.putTree nodes).cellbuf = s.cellbuf := rfl
@[simp] theorem State.putTree_grid (s : State) (nodes : List Node) : (s.putTree nodes).grid = s.grid := rfl
@[simp] theorem State.putTree_symout (s : State) (nodes : List Node) : (s.putTree nodes).symout = s.symout := rfl
@[simp] theorem State.putTree_pending (s : State) (nodes : List Node) : (s.putTree nodes).pending = s.pending := rfl
@[simp] theorem State.putTree_readData (s : State) (nodes : List Node) : (s.putTree nodes).readData = s.readData := rfl
@[simp] theorem State.putTree_epoch (s : State) (nodes : List Node) : (s.putTree nodes).epoch = s.epoch := rfl

@[simp] theorem State.putCode_cfg (s : State) (code : List Bool) : (s.putCode code).cfg = s.cfg := rfl
@[simp] theorem State.putCode_tv (s : State) (code : List Bool) : (s.putCode code).tv = s.tv := rfl
@[simp] theorem State.putCode_err (s : State) (code : List Bool) : (s.putCode code).err = s.err := rfl
@[simp] theorem State.putCode_einfo (s : State) (code : List Bool) : (s.putCode code).einfo = s.einfo := rfl
@[simp] theorem State.putCode_erracc (s : State) (code : List Bool) : (s.putCode code).erracc = s.erracc := rfl
@[simp] theorem State.putCode_arg (s : State) (code : List Bool) : (s.putCode code).arg = s.arg := rfl
@[simp] theorem State.putCode_seqlen (s : State) (code : List Bool) : (s.putCode code).seqlen = s.seqlen := rfl
@[simp] theorem State.putCode_nsym (s : State) (code : List Bool) : (s.putCode code).nsym = s.nsym := rfl
@[simp] theorem State.putCode_nbits (s : State) (code : List Bool) : (s.putCode code).nbits = s.nbits := rfl
@[simp] theorem State.putCode_ncells (s : State) (code : List Bool) : (s.putCode code).ncells = s.ncells := rfl
@[simp] theorem State.putCode_totalbits (s : State) (code : List Bool) : (s.putCode code).totalbits = s.totalbits := rfl
@[simp] theorem State.putCode_gw (s : State) (code : List Bool) : (s.putCode code).gw = s.gw := rfl
@[simp] theorem State.putCode_gh (s : State) (code : List Bool) : (s.putCode code).gh = s.gh := rfl
@[simp] theorem State.putCode_outlen (s : State) (code : List Bool) : (s.putCode code).outlen = s.outlen := rfl
@[simp] theorem State.putCode_padidx (s : State) (code : List Bool) : (s.putCode code).padidx = s.padidx := rfl
@[simp] theorem State.putCode_codelen (s : State) (code : List Bool) : (s.putCode code).codelen = wordOf code.length := rfl
@[simp] theorem State.putCode_root (s : State) (code : List Bool) : (s.putCode code).root = s.root := rfl
@[simp] theorem State.putCode_nnodes (s : State) (code : List Bool) : (s.putCode code).nnodes = s.nnodes := rfl
@[simp] theorem State.putCode_seqin (s : State) (code : List Bool) : (s.putCode code).seqin = s.seqin := rfl
@[simp] theorem State.putCode_wtW (s : State) (code : List Bool) : (s.putCode code).wtW = s.wtW := rfl
@[simp] theorem State.putCode_wtS (s : State) (code : List Bool) : (s.putCode code).wtS = s.wtS := rfl
@[simp] theorem State.putCode_node (s : State) (code : List Bool) : (s.putCode code).node = s.node := rfl
@[simp] theorem State.putCode_codebuf (s : State) (code : List Bool) : (s.putCode code).codebuf = s.codebuf.writeRange 0 code := rfl
@[simp] theorem State.putCode_bitbuf (s : State) (code : List Bool) : (s.putCode code).bitbuf = s.bitbuf := rfl
@[simp] theorem State.putCode_cellbuf (s : State) (code : List Bool) : (s.putCode code).cellbuf = s.cellbuf := rfl
@[simp] theorem State.putCode_grid (s : State) (code : List Bool) : (s.putCode code).grid = s.grid := rfl
@[simp] theorem State.putCode_symout (s : State) (code : List Bool) : (s.putCode code).symout = s.symout := rfl
@[simp] theorem State.putCode_pending (s : State) (code : List Bool) : (s.putCode code).pending = s.pending := rfl
@[simp] theorem State.putCode_readData (s : State) (code : List Bool) : (s.putCode code).readData = s.readData := rfl
@[simp] theorem State.putCode_epoch (s : State) (code : List Bool) : (s.putCode code).epoch = s.epoch := rfl

@[simp] theorem State.putStream_cfg (s : State) (bits : List Bool) : (s.putStream bits).cfg = s.cfg := rfl
@[simp] theorem State.putStream_tv (s : State) (bits : List Bool) : (s.putStream bits).tv = s.tv := rfl
@[simp] theorem State.putStream_err (s : State) (bits : List Bool) : (s.putStream bits).err = s.err := rfl
@[simp] theorem State.putStream_einfo (s : State) (bits : List Bool) : (s.putStream bits).einfo = s.einfo := rfl
@[simp] theorem State.putStream_erracc (s : State) (bits : List Bool) : (s.putStream bits).erracc = s.erracc := rfl
@[simp] theorem State.putStream_arg (s : State) (bits : List Bool) : (s.putStream bits).arg = s.arg := rfl
@[simp] theorem State.putStream_seqlen (s : State) (bits : List Bool) : (s.putStream bits).seqlen = s.seqlen := rfl
@[simp] theorem State.putStream_nsym (s : State) (bits : List Bool) : (s.putStream bits).nsym = s.nsym := rfl
@[simp] theorem State.putStream_nbits (s : State) (bits : List Bool) : (s.putStream bits).nbits = wordOf bits.length := rfl
@[simp] theorem State.putStream_ncells (s : State) (bits : List Bool) : (s.putStream bits).ncells = s.ncells := rfl
@[simp] theorem State.putStream_totalbits (s : State) (bits : List Bool) : (s.putStream bits).totalbits = s.totalbits := rfl
@[simp] theorem State.putStream_gw (s : State) (bits : List Bool) : (s.putStream bits).gw = s.gw := rfl
@[simp] theorem State.putStream_gh (s : State) (bits : List Bool) : (s.putStream bits).gh = s.gh := rfl
@[simp] theorem State.putStream_outlen (s : State) (bits : List Bool) : (s.putStream bits).outlen = s.outlen := rfl
@[simp] theorem State.putStream_padidx (s : State) (bits : List Bool) : (s.putStream bits).padidx = s.padidx := rfl
@[simp] theorem State.putStream_codelen (s : State) (bits : List Bool) : (s.putStream bits).codelen = s.codelen := rfl
@[simp] theorem State.putStream_root (s : State) (bits : List Bool) : (s.putStream bits).root = s.root := rfl
@[simp] theorem State.putStream_nnodes (s : State) (bits : List Bool) : (s.putStream bits).nnodes = s.nnodes := rfl
@[simp] theorem State.putStream_seqin (s : State) (bits : List Bool) : (s.putStream bits).seqin = s.seqin := rfl
@[simp] theorem State.putStream_wtW (s : State) (bits : List Bool) : (s.putStream bits).wtW = s.wtW := rfl
@[simp] theorem State.putStream_wtS (s : State) (bits : List Bool) : (s.putStream bits).wtS = s.wtS := rfl
@[simp] theorem State.putStream_node (s : State) (bits : List Bool) : (s.putStream bits).node = s.node := rfl
@[simp] theorem State.putStream_codebuf (s : State) (bits : List Bool) : (s.putStream bits).codebuf = s.codebuf := rfl
@[simp] theorem State.putStream_bitbuf (s : State) (bits : List Bool) : (s.putStream bits).bitbuf = s.bitbuf.writeRange 0 bits := rfl
@[simp] theorem State.putStream_cellbuf (s : State) (bits : List Bool) : (s.putStream bits).cellbuf = s.cellbuf := rfl
@[simp] theorem State.putStream_grid (s : State) (bits : List Bool) : (s.putStream bits).grid = s.grid := rfl
@[simp] theorem State.putStream_symout (s : State) (bits : List Bool) : (s.putStream bits).symout = s.symout := rfl
@[simp] theorem State.putStream_pending (s : State) (bits : List Bool) : (s.putStream bits).pending = s.pending := rfl
@[simp] theorem State.putStream_readData (s : State) (bits : List Bool) : (s.putStream bits).readData = s.readData := rfl
@[simp] theorem State.putStream_epoch (s : State) (bits : List Bool) : (s.putStream bits).epoch = s.epoch := rfl

@[simp] theorem State.putSymbols_cfg (s : State) (out : List Symbol) : (s.putSymbols out).cfg = s.cfg := rfl
@[simp] theorem State.putSymbols_tv (s : State) (out : List Symbol) : (s.putSymbols out).tv = s.tv := rfl
@[simp] theorem State.putSymbols_err (s : State) (out : List Symbol) : (s.putSymbols out).err = s.err := rfl
@[simp] theorem State.putSymbols_einfo (s : State) (out : List Symbol) : (s.putSymbols out).einfo = s.einfo := rfl
@[simp] theorem State.putSymbols_erracc (s : State) (out : List Symbol) : (s.putSymbols out).erracc = s.erracc := rfl
@[simp] theorem State.putSymbols_arg (s : State) (out : List Symbol) : (s.putSymbols out).arg = s.arg := rfl
@[simp] theorem State.putSymbols_seqlen (s : State) (out : List Symbol) : (s.putSymbols out).seqlen = s.seqlen := rfl
@[simp] theorem State.putSymbols_nsym (s : State) (out : List Symbol) : (s.putSymbols out).nsym = s.nsym := rfl
@[simp] theorem State.putSymbols_nbits (s : State) (out : List Symbol) : (s.putSymbols out).nbits = s.nbits := rfl
@[simp] theorem State.putSymbols_ncells (s : State) (out : List Symbol) : (s.putSymbols out).ncells = s.ncells := rfl
@[simp] theorem State.putSymbols_totalbits (s : State) (out : List Symbol) : (s.putSymbols out).totalbits = s.totalbits := rfl
@[simp] theorem State.putSymbols_gw (s : State) (out : List Symbol) : (s.putSymbols out).gw = s.gw := rfl
@[simp] theorem State.putSymbols_gh (s : State) (out : List Symbol) : (s.putSymbols out).gh = s.gh := rfl
@[simp] theorem State.putSymbols_outlen (s : State) (out : List Symbol) : (s.putSymbols out).outlen = wordOf out.length := rfl
@[simp] theorem State.putSymbols_padidx (s : State) (out : List Symbol) : (s.putSymbols out).padidx = s.padidx := rfl
@[simp] theorem State.putSymbols_codelen (s : State) (out : List Symbol) : (s.putSymbols out).codelen = s.codelen := rfl
@[simp] theorem State.putSymbols_root (s : State) (out : List Symbol) : (s.putSymbols out).root = s.root := rfl
@[simp] theorem State.putSymbols_nnodes (s : State) (out : List Symbol) : (s.putSymbols out).nnodes = s.nnodes := rfl
@[simp] theorem State.putSymbols_seqin (s : State) (out : List Symbol) : (s.putSymbols out).seqin = s.seqin := rfl
@[simp] theorem State.putSymbols_wtW (s : State) (out : List Symbol) : (s.putSymbols out).wtW = s.wtW := rfl
@[simp] theorem State.putSymbols_wtS (s : State) (out : List Symbol) : (s.putSymbols out).wtS = s.wtS := rfl
@[simp] theorem State.putSymbols_node (s : State) (out : List Symbol) : (s.putSymbols out).node = s.node := rfl
@[simp] theorem State.putSymbols_codebuf (s : State) (out : List Symbol) : (s.putSymbols out).codebuf = s.codebuf := rfl
@[simp] theorem State.putSymbols_bitbuf (s : State) (out : List Symbol) : (s.putSymbols out).bitbuf = s.bitbuf := rfl
@[simp] theorem State.putSymbols_cellbuf (s : State) (out : List Symbol) : (s.putSymbols out).cellbuf = s.cellbuf := rfl
@[simp] theorem State.putSymbols_grid (s : State) (out : List Symbol) : (s.putSymbols out).grid = s.grid := rfl
@[simp] theorem State.putSymbols_symout (s : State) (out : List Symbol) : (s.putSymbols out).symout = s.symout.writeRange 0 out := rfl
@[simp] theorem State.putSymbols_pending (s : State) (out : List Symbol) : (s.putSymbols out).pending = s.pending := rfl
@[simp] theorem State.putSymbols_readData (s : State) (out : List Symbol) : (s.putSymbols out).readData = s.readData := rfl
@[simp] theorem State.putSymbols_epoch (s : State) (out : List Symbol) : (s.putSymbols out).epoch = s.epoch := rfl

@[simp] theorem State.putCells_cfg (s : State) (cells : List Cell) : (s.putCells cells).cfg = s.cfg := rfl
@[simp] theorem State.putCells_tv (s : State) (cells : List Cell) : (s.putCells cells).tv = s.tv := rfl
@[simp] theorem State.putCells_err (s : State) (cells : List Cell) : (s.putCells cells).err = s.err := rfl
@[simp] theorem State.putCells_einfo (s : State) (cells : List Cell) : (s.putCells cells).einfo = s.einfo := rfl
@[simp] theorem State.putCells_erracc (s : State) (cells : List Cell) : (s.putCells cells).erracc = s.erracc := rfl
@[simp] theorem State.putCells_arg (s : State) (cells : List Cell) : (s.putCells cells).arg = s.arg := rfl
@[simp] theorem State.putCells_seqlen (s : State) (cells : List Cell) : (s.putCells cells).seqlen = s.seqlen := rfl
@[simp] theorem State.putCells_nsym (s : State) (cells : List Cell) : (s.putCells cells).nsym = s.nsym := rfl
@[simp] theorem State.putCells_nbits (s : State) (cells : List Cell) : (s.putCells cells).nbits = s.nbits := rfl
@[simp] theorem State.putCells_ncells (s : State) (cells : List Cell) : (s.putCells cells).ncells = wordOf cells.length := rfl
@[simp] theorem State.putCells_totalbits (s : State) (cells : List Cell) : (s.putCells cells).totalbits = s.totalbits := rfl
@[simp] theorem State.putCells_gw (s : State) (cells : List Cell) : (s.putCells cells).gw = s.gw := rfl
@[simp] theorem State.putCells_gh (s : State) (cells : List Cell) : (s.putCells cells).gh = s.gh := rfl
@[simp] theorem State.putCells_outlen (s : State) (cells : List Cell) : (s.putCells cells).outlen = s.outlen := rfl
@[simp] theorem State.putCells_padidx (s : State) (cells : List Cell) : (s.putCells cells).padidx = s.padidx := rfl
@[simp] theorem State.putCells_codelen (s : State) (cells : List Cell) : (s.putCells cells).codelen = s.codelen := rfl
@[simp] theorem State.putCells_root (s : State) (cells : List Cell) : (s.putCells cells).root = s.root := rfl
@[simp] theorem State.putCells_nnodes (s : State) (cells : List Cell) : (s.putCells cells).nnodes = s.nnodes := rfl
@[simp] theorem State.putCells_seqin (s : State) (cells : List Cell) : (s.putCells cells).seqin = s.seqin := rfl
@[simp] theorem State.putCells_wtW (s : State) (cells : List Cell) : (s.putCells cells).wtW = s.wtW := rfl
@[simp] theorem State.putCells_wtS (s : State) (cells : List Cell) : (s.putCells cells).wtS = s.wtS := rfl
@[simp] theorem State.putCells_node (s : State) (cells : List Cell) : (s.putCells cells).node = s.node := rfl
@[simp] theorem State.putCells_codebuf (s : State) (cells : List Cell) : (s.putCells cells).codebuf = s.codebuf := rfl
@[simp] theorem State.putCells_bitbuf (s : State) (cells : List Cell) : (s.putCells cells).bitbuf = s.bitbuf := rfl
@[simp] theorem State.putCells_cellbuf (s : State) (cells : List Cell) : (s.putCells cells).cellbuf = s.cellbuf.writeRange 0 cells := rfl
@[simp] theorem State.putCells_grid (s : State) (cells : List Cell) : (s.putCells cells).grid = s.grid := rfl
@[simp] theorem State.putCells_symout (s : State) (cells : List Cell) : (s.putCells cells).symout = s.symout := rfl
@[simp] theorem State.putCells_pending (s : State) (cells : List Cell) : (s.putCells cells).pending = s.pending := rfl
@[simp] theorem State.putCells_readData (s : State) (cells : List Cell) : (s.putCells cells).readData = s.readData := rfl
@[simp] theorem State.putCells_epoch (s : State) (cells : List Cell) : (s.putCells cells).epoch = s.epoch := rfl

@[simp] theorem State.setTotalbits_cfg (s : State) (n : Nat) : (s.setTotalbits n).cfg = s.cfg := rfl
@[simp] theorem State.setTotalbits_tv (s : State) (n : Nat) : (s.setTotalbits n).tv = s.tv := rfl
@[simp] theorem State.setTotalbits_err (s : State) (n : Nat) : (s.setTotalbits n).err = s.err := rfl
@[simp] theorem State.setTotalbits_einfo (s : State) (n : Nat) : (s.setTotalbits n).einfo = s.einfo := rfl
@[simp] theorem State.setTotalbits_erracc (s : State) (n : Nat) : (s.setTotalbits n).erracc = s.erracc := rfl
@[simp] theorem State.setTotalbits_arg (s : State) (n : Nat) : (s.setTotalbits n).arg = s.arg := rfl
@[simp] theorem State.setTotalbits_seqlen (s : State) (n : Nat) : (s.setTotalbits n).seqlen = s.seqlen := rfl
@[simp] theorem State.setTotalbits_nsym (s : State) (n : Nat) : (s.setTotalbits n).nsym = s.nsym := rfl
@[simp] theorem State.setTotalbits_nbits (s : State) (n : Nat) : (s.setTotalbits n).nbits = s.nbits := rfl
@[simp] theorem State.setTotalbits_ncells (s : State) (n : Nat) : (s.setTotalbits n).ncells = s.ncells := rfl
@[simp] theorem State.setTotalbits_totalbits (s : State) (n : Nat) : (s.setTotalbits n).totalbits = wordOf n := rfl
@[simp] theorem State.setTotalbits_gw (s : State) (n : Nat) : (s.setTotalbits n).gw = s.gw := rfl
@[simp] theorem State.setTotalbits_gh (s : State) (n : Nat) : (s.setTotalbits n).gh = s.gh := rfl
@[simp] theorem State.setTotalbits_outlen (s : State) (n : Nat) : (s.setTotalbits n).outlen = s.outlen := rfl
@[simp] theorem State.setTotalbits_padidx (s : State) (n : Nat) : (s.setTotalbits n).padidx = s.padidx := rfl
@[simp] theorem State.setTotalbits_codelen (s : State) (n : Nat) : (s.setTotalbits n).codelen = s.codelen := rfl
@[simp] theorem State.setTotalbits_root (s : State) (n : Nat) : (s.setTotalbits n).root = s.root := rfl
@[simp] theorem State.setTotalbits_nnodes (s : State) (n : Nat) : (s.setTotalbits n).nnodes = s.nnodes := rfl
@[simp] theorem State.setTotalbits_seqin (s : State) (n : Nat) : (s.setTotalbits n).seqin = s.seqin := rfl
@[simp] theorem State.setTotalbits_wtW (s : State) (n : Nat) : (s.setTotalbits n).wtW = s.wtW := rfl
@[simp] theorem State.setTotalbits_wtS (s : State) (n : Nat) : (s.setTotalbits n).wtS = s.wtS := rfl
@[simp] theorem State.setTotalbits_node (s : State) (n : Nat) : (s.setTotalbits n).node = s.node := rfl
@[simp] theorem State.setTotalbits_codebuf (s : State) (n : Nat) : (s.setTotalbits n).codebuf = s.codebuf := rfl
@[simp] theorem State.setTotalbits_bitbuf (s : State) (n : Nat) : (s.setTotalbits n).bitbuf = s.bitbuf := rfl
@[simp] theorem State.setTotalbits_cellbuf (s : State) (n : Nat) : (s.setTotalbits n).cellbuf = s.cellbuf := rfl
@[simp] theorem State.setTotalbits_grid (s : State) (n : Nat) : (s.setTotalbits n).grid = s.grid := rfl
@[simp] theorem State.setTotalbits_symout (s : State) (n : Nat) : (s.setTotalbits n).symout = s.symout := rfl
@[simp] theorem State.setTotalbits_pending (s : State) (n : Nat) : (s.setTotalbits n).pending = s.pending := rfl
@[simp] theorem State.setTotalbits_readData (s : State) (n : Nat) : (s.setTotalbits n).readData = s.readData := rfl
@[simp] theorem State.setTotalbits_epoch (s : State) (n : Nat) : (s.setTotalbits n).epoch = s.epoch := rfl

@[simp] theorem State.setNcells_cfg (s : State) (n : Nat) : (s.setNcells n).cfg = s.cfg := rfl
@[simp] theorem State.setNcells_tv (s : State) (n : Nat) : (s.setNcells n).tv = s.tv := rfl
@[simp] theorem State.setNcells_err (s : State) (n : Nat) : (s.setNcells n).err = s.err := rfl
@[simp] theorem State.setNcells_einfo (s : State) (n : Nat) : (s.setNcells n).einfo = s.einfo := rfl
@[simp] theorem State.setNcells_erracc (s : State) (n : Nat) : (s.setNcells n).erracc = s.erracc := rfl
@[simp] theorem State.setNcells_arg (s : State) (n : Nat) : (s.setNcells n).arg = s.arg := rfl
@[simp] theorem State.setNcells_seqlen (s : State) (n : Nat) : (s.setNcells n).seqlen = s.seqlen := rfl
@[simp] theorem State.setNcells_nsym (s : State) (n : Nat) : (s.setNcells n).nsym = s.nsym := rfl
@[simp] theorem State.setNcells_nbits (s : State) (n : Nat) : (s.setNcells n).nbits = s.nbits := rfl
@[simp] theorem State.setNcells_ncells (s : State) (n : Nat) : (s.setNcells n).ncells = wordOf n := rfl
@[simp] theorem State.setNcells_totalbits (s : State) (n : Nat) : (s.setNcells n).totalbits = s.totalbits := rfl
@[simp] theorem State.setNcells_gw (s : State) (n : Nat) : (s.setNcells n).gw = s.gw := rfl
@[simp] theorem State.setNcells_gh (s : State) (n : Nat) : (s.setNcells n).gh = s.gh := rfl
@[simp] theorem State.setNcells_outlen (s : State) (n : Nat) : (s.setNcells n).outlen = s.outlen := rfl
@[simp] theorem State.setNcells_padidx (s : State) (n : Nat) : (s.setNcells n).padidx = s.padidx := rfl
@[simp] theorem State.setNcells_codelen (s : State) (n : Nat) : (s.setNcells n).codelen = s.codelen := rfl
@[simp] theorem State.setNcells_root (s : State) (n : Nat) : (s.setNcells n).root = s.root := rfl
@[simp] theorem State.setNcells_nnodes (s : State) (n : Nat) : (s.setNcells n).nnodes = s.nnodes := rfl
@[simp] theorem State.setNcells_seqin (s : State) (n : Nat) : (s.setNcells n).seqin = s.seqin := rfl
@[simp] theorem State.setNcells_wtW (s : State) (n : Nat) : (s.setNcells n).wtW = s.wtW := rfl
@[simp] theorem State.setNcells_wtS (s : State) (n : Nat) : (s.setNcells n).wtS = s.wtS := rfl
@[simp] theorem State.setNcells_node (s : State) (n : Nat) : (s.setNcells n).node = s.node := rfl
@[simp] theorem State.setNcells_codebuf (s : State) (n : Nat) : (s.setNcells n).codebuf = s.codebuf := rfl
@[simp] theorem State.setNcells_bitbuf (s : State) (n : Nat) : (s.setNcells n).bitbuf = s.bitbuf := rfl
@[simp] theorem State.setNcells_cellbuf (s : State) (n : Nat) : (s.setNcells n).cellbuf = s.cellbuf := rfl
@[simp] theorem State.setNcells_grid (s : State) (n : Nat) : (s.setNcells n).grid = s.grid := rfl
@[simp] theorem State.setNcells_symout (s : State) (n : Nat) : (s.setNcells n).symout = s.symout := rfl
@[simp] theorem State.setNcells_pending (s : State) (n : Nat) : (s.setNcells n).pending = s.pending := rfl
@[simp] theorem State.setNcells_readData (s : State) (n : Nat) : (s.setNcells n).readData = s.readData := rfl
@[simp] theorem State.setNcells_epoch (s : State) (n : Nat) : (s.setNcells n).epoch = s.epoch := rfl

@[simp] theorem State.putGrid_cfg (s : State) (w h : Nat) (cells : List Cell) : (s.putGrid w h cells).cfg = s.cfg := rfl
@[simp] theorem State.putGrid_tv (s : State) (w h : Nat) (cells : List Cell) : (s.putGrid w h cells).tv = s.tv := rfl
@[simp] theorem State.putGrid_err (s : State) (w h : Nat) (cells : List Cell) : (s.putGrid w h cells).err = s.err := rfl
@[simp] theorem State.putGrid_einfo (s : State) (w h : Nat) (cells : List Cell) : (s.putGrid w h cells).einfo = s.einfo := rfl
@[simp] theorem State.putGrid_erracc (s : State) (w h : Nat) (cells : List Cell) : (s.putGrid w h cells).erracc = s.erracc := rfl
@[simp] theorem State.putGrid_arg (s : State) (w h : Nat) (cells : List Cell) : (s.putGrid w h cells).arg = s.arg := rfl
@[simp] theorem State.putGrid_seqlen (s : State) (w h : Nat) (cells : List Cell) : (s.putGrid w h cells).seqlen = s.seqlen := rfl
@[simp] theorem State.putGrid_nsym (s : State) (w h : Nat) (cells : List Cell) : (s.putGrid w h cells).nsym = s.nsym := rfl
@[simp] theorem State.putGrid_nbits (s : State) (w h : Nat) (cells : List Cell) : (s.putGrid w h cells).nbits = s.nbits := rfl
@[simp] theorem State.putGrid_ncells (s : State) (w h : Nat) (cells : List Cell) : (s.putGrid w h cells).ncells = s.ncells := rfl
@[simp] theorem State.putGrid_totalbits (s : State) (w h : Nat) (cells : List Cell) : (s.putGrid w h cells).totalbits = s.totalbits := rfl
@[simp] theorem State.putGrid_gw (s : State) (w h : Nat) (cells : List Cell) : (s.putGrid w h cells).gw = wordOf w := rfl
@[simp] theorem State.putGrid_gh (s : State) (w h : Nat) (cells : List Cell) : (s.putGrid w h cells).gh = wordOf h := rfl
@[simp] theorem State.putGrid_outlen (s : State) (w h : Nat) (cells : List Cell) : (s.putGrid w h cells).outlen = s.outlen := rfl
@[simp] theorem State.putGrid_padidx (s : State) (w h : Nat) (cells : List Cell) : (s.putGrid w h cells).padidx = s.padidx := rfl
@[simp] theorem State.putGrid_codelen (s : State) (w h : Nat) (cells : List Cell) : (s.putGrid w h cells).codelen = s.codelen := rfl
@[simp] theorem State.putGrid_root (s : State) (w h : Nat) (cells : List Cell) : (s.putGrid w h cells).root = s.root := rfl
@[simp] theorem State.putGrid_nnodes (s : State) (w h : Nat) (cells : List Cell) : (s.putGrid w h cells).nnodes = s.nnodes := rfl
@[simp] theorem State.putGrid_seqin (s : State) (w h : Nat) (cells : List Cell) : (s.putGrid w h cells).seqin = s.seqin := rfl
@[simp] theorem State.putGrid_wtW (s : State) (w h : Nat) (cells : List Cell) : (s.putGrid w h cells).wtW = s.wtW := rfl
@[simp] theorem State.putGrid_wtS (s : State) (w h : Nat) (cells : List Cell) : (s.putGrid w h cells).wtS = s.wtS := rfl
@[simp] theorem State.putGrid_node (s : State) (w h : Nat) (cells : List Cell) : (s.putGrid w h cells).node = s.node := rfl
@[simp] theorem State.putGrid_codebuf (s : State) (w h : Nat) (cells : List Cell) : (s.putGrid w h cells).codebuf = s.codebuf := rfl
@[simp] theorem State.putGrid_bitbuf (s : State) (w h : Nat) (cells : List Cell) : (s.putGrid w h cells).bitbuf = s.bitbuf := rfl
@[simp] theorem State.putGrid_cellbuf (s : State) (w h : Nat) (cells : List Cell) : (s.putGrid w h cells).cellbuf = s.cellbuf := rfl
@[simp] theorem State.putGrid_grid (s : State) (w h : Nat) (cells : List Cell) : (s.putGrid w h cells).grid = s.grid.writeRange 0 cells := rfl
@[simp] theorem State.putGrid_symout (s : State) (w h : Nat) (cells : List Cell) : (s.putGrid w h cells).symout = s.symout := rfl
@[simp] theorem State.putGrid_pending (s : State) (w h : Nat) (cells : List Cell) : (s.putGrid w h cells).pending = s.pending := rfl
@[simp] theorem State.putGrid_readData (s : State) (w h : Nat) (cells : List Cell) : (s.putGrid w h cells).readData = s.readData := rfl
@[simp] theorem State.putGrid_epoch (s : State) (w h : Nat) (cells : List Cell) : (s.putGrid w h cells).epoch = s.epoch := rfl

@[simp] theorem State.setPadidx_cfg (s : State) (n : Nat) : (s.setPadidx n).cfg = s.cfg := rfl
@[simp] theorem State.setPadidx_tv (s : State) (n : Nat) : (s.setPadidx n).tv = s.tv := rfl
@[simp] theorem State.setPadidx_err (s : State) (n : Nat) : (s.setPadidx n).err = s.err := rfl
@[simp] theorem State.setPadidx_einfo (s : State) (n : Nat) : (s.setPadidx n).einfo = s.einfo := rfl
@[simp] theorem State.setPadidx_erracc (s : State) (n : Nat) : (s.setPadidx n).erracc = s.erracc := rfl
@[simp] theorem State.setPadidx_arg (s : State) (n : Nat) : (s.setPadidx n).arg = s.arg := rfl
@[simp] theorem State.setPadidx_seqlen (s : State) (n : Nat) : (s.setPadidx n).seqlen = s.seqlen := rfl
@[simp] theorem State.setPadidx_nsym (s : State) (n : Nat) : (s.setPadidx n).nsym = s.nsym := rfl
@[simp] theorem State.setPadidx_nbits (s : State) (n : Nat) : (s.setPadidx n).nbits = s.nbits := rfl
@[simp] theorem State.setPadidx_ncells (s : State) (n : Nat) : (s.setPadidx n).ncells = s.ncells := rfl
@[simp] theorem State.setPadidx_totalbits (s : State) (n : Nat) : (s.setPadidx n).totalbits = s.totalbits := rfl
@[simp] theorem State.setPadidx_gw (s : State) (n : Nat) : (s.setPadidx n).gw = s.gw := rfl
@[simp] theorem State.setPadidx_gh (s : State) (n : Nat) : (s.setPadidx n).gh = s.gh := rfl
@[simp] theorem State.setPadidx_outlen (s : State) (n : Nat) : (s.setPadidx n).outlen = s.outlen := rfl
@[simp] theorem State.setPadidx_padidx (s : State) (n : Nat) : (s.setPadidx n).padidx = wordOf n := rfl
@[simp] theorem State.setPadidx_codelen (s : State) (n : Nat) : (s.setPadidx n).codelen = s.codelen := rfl
@[simp] theorem State.setPadidx_root (s : State) (n : Nat) : (s.setPadidx n).root = s.root := rfl
@[simp] theorem State.setPadidx_nnodes (s : State) (n : Nat) : (s.setPadidx n).nnodes = s.nnodes := rfl
@[simp] theorem State.setPadidx_seqin (s : State) (n : Nat) : (s.setPadidx n).seqin = s.seqin := rfl
@[simp] theorem State.setPadidx_wtW (s : State) (n : Nat) : (s.setPadidx n).wtW = s.wtW := rfl
@[simp] theorem State.setPadidx_wtS (s : State) (n : Nat) : (s.setPadidx n).wtS = s.wtS := rfl
@[simp] theorem State.setPadidx_node (s : State) (n : Nat) : (s.setPadidx n).node = s.node := rfl
@[simp] theorem State.setPadidx_codebuf (s : State) (n : Nat) : (s.setPadidx n).codebuf = s.codebuf := rfl
@[simp] theorem State.setPadidx_bitbuf (s : State) (n : Nat) : (s.setPadidx n).bitbuf = s.bitbuf := rfl
@[simp] theorem State.setPadidx_cellbuf (s : State) (n : Nat) : (s.setPadidx n).cellbuf = s.cellbuf := rfl
@[simp] theorem State.setPadidx_grid (s : State) (n : Nat) : (s.setPadidx n).grid = s.grid := rfl
@[simp] theorem State.setPadidx_symout (s : State) (n : Nat) : (s.setPadidx n).symout = s.symout := rfl
@[simp] theorem State.setPadidx_pending (s : State) (n : Nat) : (s.setPadidx n).pending = s.pending := rfl
@[simp] theorem State.setPadidx_readData (s : State) (n : Nat) : (s.setPadidx n).readData = s.readData := rfl
@[simp] theorem State.setPadidx_epoch (s : State) (n : Nat) : (s.setPadidx n).epoch = s.epoch := rfl

@[simp] theorem State.dropMove_cfg (s : State) : s.dropMove.cfg = s.cfg := rfl
@[simp] theorem State.dropMove_tv (s : State) : s.dropMove.tv = s.tv := rfl
@[simp] theorem State.dropMove_err (s : State) : s.dropMove.err = s.err := rfl
@[simp] theorem State.dropMove_einfo (s : State) : s.dropMove.einfo = s.einfo := rfl
@[simp] theorem State.dropMove_erracc (s : State) : s.dropMove.erracc = s.erracc := rfl
@[simp] theorem State.dropMove_arg (s : State) : s.dropMove.arg = s.arg := rfl
@[simp] theorem State.dropMove_seqlen (s : State) : s.dropMove.seqlen = s.seqlen := rfl
@[simp] theorem State.dropMove_nsym (s : State) : s.dropMove.nsym = s.nsym := rfl
@[simp] theorem State.dropMove_nbits (s : State) : s.dropMove.nbits = s.nbits := rfl
@[simp] theorem State.dropMove_ncells (s : State) : s.dropMove.ncells = s.ncells := rfl
@[simp] theorem State.dropMove_totalbits (s : State) : s.dropMove.totalbits = s.totalbits := rfl
@[simp] theorem State.dropMove_gw (s : State) : s.dropMove.gw = s.gw := rfl
@[simp] theorem State.dropMove_gh (s : State) : s.dropMove.gh = s.gh := rfl
@[simp] theorem State.dropMove_outlen (s : State) : s.dropMove.outlen = s.outlen := rfl
@[simp] theorem State.dropMove_padidx (s : State) : s.dropMove.padidx = s.padidx := rfl
@[simp] theorem State.dropMove_codelen (s : State) : s.dropMove.codelen = s.codelen := rfl
@[simp] theorem State.dropMove_root (s : State) : s.dropMove.root = s.root := rfl
@[simp] theorem State.dropMove_nnodes (s : State) : s.dropMove.nnodes = s.nnodes := rfl
@[simp] theorem State.dropMove_seqin (s : State) : s.dropMove.seqin = s.seqin := rfl
@[simp] theorem State.dropMove_wtW (s : State) : s.dropMove.wtW = s.wtW := rfl
@[simp] theorem State.dropMove_wtS (s : State) : s.dropMove.wtS = s.wtS := rfl
@[simp] theorem State.dropMove_node (s : State) : s.dropMove.node = s.node := rfl
@[simp] theorem State.dropMove_codebuf (s : State) : s.dropMove.codebuf = s.codebuf := rfl
@[simp] theorem State.dropMove_bitbuf (s : State) : s.dropMove.bitbuf = s.bitbuf := rfl
@[simp] theorem State.dropMove_cellbuf (s : State) : s.dropMove.cellbuf = s.cellbuf := rfl
@[simp] theorem State.dropMove_grid (s : State) : s.dropMove.grid = s.grid := rfl
@[simp] theorem State.dropMove_symout (s : State) : s.dropMove.symout = s.symout := rfl
@[simp] theorem State.dropMove_pending (s : State) : s.dropMove.pending = s.pending.tail := rfl
@[simp] theorem State.dropMove_readData (s : State) : s.dropMove.readData = s.readData := rfl
@[simp] theorem State.dropMove_epoch (s : State) : s.dropMove.epoch = s.epoch := rfl

@[simp] theorem State.returnWord_cfg (s : State) (v : Word) : (s.returnWord v).cfg = s.cfg := rfl
@[simp] theorem State.returnWord_tv (s : State) (v : Word) : (s.returnWord v).tv = s.tv := rfl
@[simp] theorem State.returnWord_err (s : State) (v : Word) : (s.returnWord v).err = s.err := rfl
@[simp] theorem State.returnWord_einfo (s : State) (v : Word) : (s.returnWord v).einfo = s.einfo := rfl
@[simp] theorem State.returnWord_erracc (s : State) (v : Word) : (s.returnWord v).erracc = s.erracc := rfl
@[simp] theorem State.returnWord_arg (s : State) (v : Word) : (s.returnWord v).arg = s.arg := rfl
@[simp] theorem State.returnWord_seqlen (s : State) (v : Word) : (s.returnWord v).seqlen = s.seqlen := rfl
@[simp] theorem State.returnWord_nsym (s : State) (v : Word) : (s.returnWord v).nsym = s.nsym := rfl
@[simp] theorem State.returnWord_nbits (s : State) (v : Word) : (s.returnWord v).nbits = s.nbits := rfl
@[simp] theorem State.returnWord_ncells (s : State) (v : Word) : (s.returnWord v).ncells = s.ncells := rfl
@[simp] theorem State.returnWord_totalbits (s : State) (v : Word) : (s.returnWord v).totalbits = s.totalbits := rfl
@[simp] theorem State.returnWord_gw (s : State) (v : Word) : (s.returnWord v).gw = s.gw := rfl
@[simp] theorem State.returnWord_gh (s : State) (v : Word) : (s.returnWord v).gh = s.gh := rfl
@[simp] theorem State.returnWord_outlen (s : State) (v : Word) : (s.returnWord v).outlen = s.outlen := rfl
@[simp] theorem State.returnWord_padidx (s : State) (v : Word) : (s.returnWord v).padidx = s.padidx := rfl
@[simp] theorem State.returnWord_codelen (s : State) (v : Word) : (s.returnWord v).codelen = s.codelen := rfl
@[simp] theorem State.returnWord_root (s : State) (v : Word) : (s.returnWord v).root = s.root := rfl
@[simp] theorem State.returnWord_nnodes (s : State) (v : Word) : (s.returnWord v).nnodes = s.nnodes := rfl
@[simp] theorem State.returnWord_seqin (s : State) (v : Word) : (s.returnWord v).seqin = s.seqin := rfl
@[simp] theorem State.returnWord_wtW (s : State) (v : Word) : (s.returnWord v).wtW = s.wtW := rfl
@[simp] theorem State.returnWord_wtS (s : State) (v : Word) : (s.returnWord v).wtS = s.wtS := rfl
@[simp] theorem State.returnWord_node (s : State) (v : Word) : (s.returnWord v).node = s.node := rfl
@[simp] theorem State.returnWord_codebuf (s : State) (v : Word) : (s.returnWord v).codebuf = s.codebuf := rfl
@[simp] theorem State.returnWord_bitbuf (s : State) (v : Word) : (s.returnWord v).bitbuf = s.bitbuf := rfl
@[simp] theorem State.returnWord_cellbuf (s : State) (v : Word) : (s.returnWord v).cellbuf = s.cellbuf := rfl
@[simp] theorem State.returnWord_grid (s : State) (v : Word) : (s.returnWord v).grid = s.grid := rfl
@[simp] theorem State.returnWord_symout (s : State) (v : Word) : (s.returnWord v).symout = s.symout := rfl
@[simp] theorem State.returnWord_pending (s : State) (v : Word) : (s.returnWord v).pending = s.pending := rfl
@[simp] theorem State.returnWord_readData (s : State) (v : Word) : (s.returnWord v).readData = v := rfl
@[simp] theorem State.returnWord_epoch (s : State) (v : Word) : (s.returnWord v).epoch = s.epoch := rfl

@[simp] theorem State.tick_cfg (s : State) : s.tick.cfg = s.cfg := rfl
@[simp] theorem State.tick_tv (s : State) : s.tick.tv = s.tv := rfl
@[simp] theorem State.tick_err (s : State) : s.tick.err = s.err := rfl
@[simp] theorem State.tick_einfo (s : State) : s.tick.einfo = s.einfo := rfl
@[simp] theorem State.tick_erracc (s : State) : s.tick.erracc = s.erracc := rfl
@[simp] theorem State.tick_arg (s : State) : s.tick.arg = s.arg := rfl
@[simp] theorem State.tick_seqlen (s : State) : s.tick.seqlen = s.seqlen := rfl
@[simp] theorem State.tick_nsym (s : State) : s.tick.nsym = s.nsym := rfl
@[simp] theorem State.tick_nbits (s : State) : s.tick.nbits = s.nbits := rfl
@[simp] theorem State.tick_ncells (s : State) : s.tick.ncells = s.ncells := rfl
@[simp] theorem State.tick_totalbits (s : State) : s.tick.totalbits = s.totalbits := rfl
@[simp] theorem State.tick_gw (s : State) : s.tick.gw = s.gw := rfl
@[simp] theorem State.tick_gh (s : State) : s.tick.gh = s.gh := rfl
@[simp] theorem State.tick_outlen (s : State) : s.tick.outlen = s.outlen := rfl
@[simp] theorem State.tick_padidx (s : State) : s.tick.padidx = s.padidx := rfl
@[simp] theorem State.tick_codelen (s : State) : s.tick.codelen = s.codelen := rfl
@[simp] theorem State.tick_root (s : State) : s.tick.root = s.root := rfl
@[simp] theorem State.tick_nnodes (s : State) : s.tick.nnodes = s.nnodes := rfl
@[simp] theorem State.tick_seqin (s : State) : s.tick.seqin = s.seqin := rfl
@[simp] theorem State.tick_wtW (s : State) : s.tick.wtW = s.wtW := rfl
@[simp] theorem State.tick_wtS (s : State) : s.tick.wtS = s.wtS := rfl
@[simp] theorem State.tick_node (s : State) : s.tick.node = s.node := rfl
@[simp] theorem State.tick_codebuf (s : State) : s.tick.codebuf = s.codebuf := rfl
@[simp] theorem State.tick_bitbuf (s : State) : s.tick.bitbuf = s.bitbuf := rfl
@[simp] theorem State.tick_cellbuf (s : State) : s.tick.cellbuf = s.cellbuf := rfl
@[simp] theorem State.tick_grid (s : State) : s.tick.grid = s.grid := rfl
@[simp] theorem State.tick_symout (s : State) : s.tick.symout = s.symout := rfl
@[simp] theorem State.tick_pending (s : State) : s.tick.pending = s.pending := rfl
@[simp] theorem State.tick_readData (s : State) : s.tick.readData = s.readData := rfl
@[simp] theorem State.tick_epoch (s : State) : s.tick.epoch = s.epoch + 1 := rfl

@[simp] theorem State.resetBlock_cfg (s : State) : s.resetBlock.cfg = s.cfg := rfl
@[simp] theorem State.resetBlock_tv (s : State) : s.resetBlock.tv = false := rfl
@[simp] theorem State.resetBlock_err (s : State) : s.resetBlock.err = 0 := rfl
@[simp] theorem State.resetBlock_einfo (s : State) : s.resetBlock.einfo = 0 := rfl
@[simp] theorem State.resetBlock_erracc (s : State) : s.resetBlock.erracc = 0 := rfl
@[simp] theorem State.resetBlock_arg (s : State) : s.resetBlock.arg = 0 := rfl
@[simp] theorem State.resetBlock_seqlen (s : State) : s.resetBlock.seqlen = 0 := rfl
@[simp] theorem State.resetBlock_nsym (s : State) : s.resetBlock.nsym = 0 := rfl
@[simp] theorem State.resetBlock_nbits (s : State) : s.resetBlock.nbits = 0 := rfl
@[simp] theorem State.resetBlock_ncells (s : State) : s.resetBlock.ncells = 0 := rfl
@[simp] theorem State.resetBlock_totalbits (s : State) : s.resetBlock.totalbits = 0 := rfl
@[simp] theorem State.resetBlock_gw (s : State) : s.resetBlock.gw = 0 := rfl
@[simp] theorem State.resetBlock_gh (s : State) : s.resetBlock.gh = 0 := rfl
@[simp] theorem State.resetBlock_outlen (s : State) : s.resetBlock.outlen = 0 := rfl
@[simp] theorem State.resetBlock_padidx (s : State) : s.resetBlock.padidx = 0 := rfl
@[simp] theorem State.resetBlock_codelen (s : State) : s.resetBlock.codelen = 0 := rfl
@[simp] theorem State.resetBlock_root (s : State) : s.resetBlock.root = nil := rfl
@[simp] theorem State.resetBlock_nnodes (s : State) : s.resetBlock.nnodes = 0 := rfl
@[simp] theorem State.resetBlock_seqin (s : State) : s.resetBlock.seqin = [] := rfl
@[simp] theorem State.resetBlock_wtW (s : State) : s.resetBlock.wtW = [] := rfl
@[simp] theorem State.resetBlock_wtS (s : State) : s.resetBlock.wtS = [] := rfl
@[simp] theorem State.resetBlock_node (s : State) : s.resetBlock.node = [] := rfl
@[simp] theorem State.resetBlock_codebuf (s : State) : s.resetBlock.codebuf = [] := rfl
@[simp] theorem State.resetBlock_bitbuf (s : State) : s.resetBlock.bitbuf = [] := rfl
@[simp] theorem State.resetBlock_cellbuf (s : State) : s.resetBlock.cellbuf = [] := rfl
@[simp] theorem State.resetBlock_grid (s : State) : s.resetBlock.grid = [] := rfl
@[simp] theorem State.resetBlock_symout (s : State) : s.resetBlock.symout = [] := rfl
@[simp] theorem State.resetBlock_pending (s : State) : s.resetBlock.pending = s.pending := rfl
@[simp] theorem State.resetBlock_readData (s : State) : s.resetBlock.readData = s.readData := rfl
@[simp] theorem State.resetBlock_epoch (s : State) : s.resetBlock.epoch = s.epoch := rfl

end Sys2Proof.Machine
end

