-- ==== Sys2Proof/Laws/Ops.lean ====
section
/-! SUPPORT. One lemma for each shared operation that says everything it can do. -/

namespace Sys2Proof.Machine

/-- A sequence of checks answers a value when its first part does and the rest does. -/
theorem bind_eq_ok {ε α β : Type} {x : Except ε α} {f : α → Except ε β} {b : β} :
    (x >>= f) = .ok b ↔ ∃ a, x = .ok a ∧ f a = .ok b := by
  cases x with
  | error e =>
    constructor
    · intro h
      cases h
    · rintro ⟨_, h, _⟩
      cases h
  | ok a =>
    constructor
    · intro h
      exact ⟨a, rfl, h⟩
    · rintro ⟨_, h, h'⟩
      cases h
      exact h'

/-- A sequence of checks stops where its first part stops, or after it where the rest does. -/
theorem bind_eq_error {ε α β : Type} {x : Except ε α} {f : α → Except ε β} {e : ε} :
    (x >>= f) = .error e ↔ x = .error e ∨ ∃ a, x = .ok a ∧ f a = .error e := by
  cases x with
  | error e' =>
    constructor
    · intro h
      cases h
      exact .inl rfl
    · rintro (h | ⟨_, h, _⟩)
      · cases h
        rfl
      · cases h
  | ok a =>
    constructor
    · intro h
      exact .inr ⟨a, rfl, h⟩
    · rintro (h | ⟨_, h, h'⟩)
      · cases h
      · cases h
        exact h'

@[simp] theorem ok_bind {ε α β : Type} (a : α) (f : α → Except ε β) : (Except.ok a >>= f) = f a := rfl

@[simp] theorem error_bind {ε α β : Type} (e : ε) (f : α → Except ε β) :
    (Except.error e >>= f) = Except.error e := rfl

@[simp] theorem failIf_eq_ok {bad : Bool} {e : ErrKind} {info : Word} {u : Unit} :
    failIf bad e info = .ok u ↔ bad = false := by
  cases bad <;> simp [failIf]

@[simp] theorem failIf_eq_error {bad : Bool} {e : ErrKind} {info : Word} {x : Stop} :
    failIf bad e info = .error x ↔ bad = true ∧ x = .error e info := by
  cases bad <;> simp [failIf, eq_comm]

@[simp] theorem failIf_false (e : ErrKind) (info : Word) : failIf false e info = .ok () := rfl

@[simp] theorem failIf_true (e : ErrKind) (info : Word) : failIf true e info = .error (.error e info) := rfl

@[simp] theorem readElem_eq_ok {α : Type} {sp : Space} {m : Memory α} {i : Nat} {v : α} :
    readElem sp m i = .ok v ↔ m.read i = some v := by
  unfold readElem
  split <;> simp_all

@[simp] theorem readElem_eq_error {α : Type} {sp : Space} {m : Memory α} {i : Nat} {x : Stop} :
    readElem sp m i = .error x ↔ m.read i = none ∧ x = .fault (.unwrittenElement sp i) := by
  unfold readElem
  cases m.read i <;> simp [eq_comm]

/-- Reading a range answers the elements that stand there. -/
theorem readElems_eq_ok {α : Type} {sp : Space} {m : Memory α} {i n : Nat} {vs : List α} :
    readElems sp m i n = .ok vs ↔ vs.length = n ∧ ∀ j < n, m.read (i + j) = vs[j]? := by
  induction n generalizing i vs with
  | zero => simp [readElems, eq_comm]
  | succ n ih =>
    simp only [readElems, bind_eq_ok, readElem_eq_ok, ih]
    constructor
    · rintro ⟨v, hv, ws, ⟨hl, hws⟩, h⟩
      cases h
      refine ⟨by simp [hl], fun j hj => ?_⟩
      cases j with
      | zero => simpa using hv
      | succ j => simpa [Nat.add_assoc, Nat.add_comm 1] using hws j (by omega)
    · rintro ⟨hl, h⟩
      cases vs with
      | nil => simp at hl
      | cons v vs =>
        refine ⟨v, by simpa using h 0 (by omega), vs, ⟨by simpa using hl, fun j hj => ?_⟩, rfl⟩
        simpa [Nat.add_assoc, Nat.add_comm 1] using h (j + 1) (by omega)

/-- From index 0: the buffer holds the elements answered. -/
theorem readElems_zero_eq_ok {α : Type} {sp : Space} {m : Memory α} {n : Nat} {vs : List α} :
    readElems sp m 0 n = .ok vs ↔ vs.length = n ∧ Safety.Holds m vs := by
  rw [readElems_eq_ok]
  constructor
  · rintro ⟨rfl, h⟩
    exact ⟨rfl, fun j hj => by simpa using h j hj⟩
  · rintro ⟨rfl, h⟩
    exact ⟨rfl, fun j hj => by simpa using h j hj⟩

/-- Reading a range stops only at an unwritten element of it, and only with that fault. -/
theorem readElems_eq_error {α : Type} {sp : Space} {m : Memory α} {i n : Nat} {x : Stop}
    (h : readElems sp m i n = .error x) :
    ∃ j < n, m.read (i + j) = none ∧ x = .fault (.unwrittenElement sp (i + j)) := by
  induction n generalizing i with
  | zero => simp [readElems] at h
  | succ n ih =>
    rcases bind_eq_error.1 h with h | ⟨v, _, h⟩
    · exact ⟨0, by omega, by simpa using h⟩
    · rcases bind_eq_error.1 h with h | ⟨vs, _, h⟩
      · obtain ⟨j, hj, h1, h2⟩ := ih h
        exact ⟨j + 1, by omega, by rwa [Nat.add_assoc, Nat.add_comm 1] at h1,
          by rwa [Nat.add_assoc, Nat.add_comm 1] at h2⟩
      · cases h

/-- The one inversion of the end of a command: it goes on with its writes and a cleared error record, or with
the error taken in the state it started from. -/
theorem commit_eq_next {s t : State} {r : Except Stop State} :
    commit s r = .next t ↔
      (∃ u, r = .ok u ∧ t = u.succeed) ∨ (∃ e info, r = .error (.error e info) ∧ t = s.raise e info) := by
  rcases r with (⟨e, info⟩ | f) | u <;> simp [commit, eq_comm]

/-- A command stops only where its body faults. -/
theorem commit_eq_fault {s : State} {f : Fault} {r : Except Stop State} :
    commit s r = .fault f ↔ r = .error (.fault f) := by
  rcases r with (⟨e, info⟩ | f) | u <;> simp [commit]

/-- No command is refused. -/
theorem commit_ne_refused {s : State} {x : Refusal} {r : Except Stop State} : commit s r ≠ .refused x := by
  rcases r with (⟨e, info⟩ | f) | u <;> simp [commit]

@[simp] theorem commit_ok (s t : State) : commit s (.ok t) = .next t.succeed := rfl

@[simp] theorem commit_error (s : State) (e : ErrKind) (info : Word) :
    commit s (.error (.error e info)) = .next (s.raise e info) := rfl

@[simp] theorem commit_fault (s : State) (f : Fault) : commit s (.error (.fault f)) = .fault f := rfl

theorem seqLength_eq_ok {s : State} {n : Nat} :
    seqLength s = .ok n ↔ s.seqlen.toNat ≤ s.cfg.seqMax ∧ n = s.seqlen.toNat := by
  rw [seqLength, bind_eq_ok]
  simp only [failIf_eq_ok, decide_eq_false_iff_not, Nat.not_lt, Except.ok.injEq]
  exact ⟨fun ⟨_, h, e⟩ => ⟨h, e.symm⟩, fun ⟨h, e⟩ => ⟨(), h, e.symm⟩⟩

theorem seqLength_eq_error {s : State} {x : Stop} :
    seqLength s = .error x ↔ s.cfg.seqMax < s.seqlen.toNat ∧ x = .error .capacity capSeq := by
  simp [seqLength, bind_eq_error]

theorem streamLength_eq_ok {s : State} {n : Nat} :
    streamLength s = .ok n ↔ s.nbits.toNat ≤ bitsMax s.cfg ∧ n = s.nbits.toNat := by
  rw [streamLength, bind_eq_ok]
  simp only [failIf_eq_ok, decide_eq_false_iff_not, Nat.not_lt, Except.ok.injEq]
  exact ⟨fun ⟨_, h, e⟩ => ⟨h, e.symm⟩, fun ⟨h, e⟩ => ⟨(), h, e.symm⟩⟩

theorem streamLength_eq_error {s : State} {x : Stop} :
    streamLength s = .error x ↔ bitsMax s.cfg < s.nbits.toNat ∧ x = .error .capacity capBits := by
  simp [streamLength, bind_eq_error]

theorem cellCount_eq_ok {s : State} {n : Nat} :
    cellCount s = .ok n ↔ s.ncells.toNat ≤ s.cfg.cellsMax ∧ n = s.ncells.toNat := by
  rw [cellCount, bind_eq_ok]
  simp only [failIf_eq_ok, decide_eq_false_iff_not, Nat.not_lt, Except.ok.injEq]
  exact ⟨fun ⟨_, h, e⟩ => ⟨h, e.symm⟩, fun ⟨h, e⟩ => ⟨(), h, e.symm⟩⟩

theorem cellCount_eq_error {s : State} {x : Stop} :
    cellCount s = .error x ↔ s.cfg.cellsMax < s.ncells.toNat ∧ x = .error .capacity capCells := by
  simp [cellCount, bind_eq_error]

theorem gridSize_eq_ok {s : State} {n : Nat} :
    gridSize s = .ok n ↔ s.gw.toNat * s.gh.toNat ≤ s.cfg.cellsMax ∧ n = s.gw.toNat * s.gh.toNat := by
  rw [gridSize, bind_eq_ok]
  simp only [failIf_eq_ok, decide_eq_false_iff_not, Nat.not_lt, Except.ok.injEq]
  exact ⟨fun ⟨_, h, e⟩ => ⟨h, e.symm⟩, fun ⟨h, e⟩ => ⟨(), h, e.symm⟩⟩

theorem gridSize_eq_error {s : State} {x : Stop} :
    gridSize s = .error x ↔ s.cfg.cellsMax < s.gw.toNat * s.gh.toNat ∧ x = .error .capacity capGrid := by
  simp [gridSize, bind_eq_error]

theorem requireTree_eq_ok {s : State} {u : Unit} : requireTree s = .ok u ↔ s.tv = true := by
  simp [requireTree]

theorem requireTree_eq_error {s : State} {x : Stop} :
    requireTree s = .error x ↔ s.tv = false ∧ x = .error .uninitializedTree 0 := by
  simp [requireTree]

/-- A length that fits a register is what the register then holds. -/
theorem toNat_wordOf {n : Nat} (h : n < 2 ^ 32) : (wordOf n).toNat = n := by
  simpa [wordOf] using h

@[simp] theorem wordOf_toNat (w : Word) : wordOf w.toNat = w := by
  simp [wordOf]

end Sys2Proof.Machine
end

