-- ==== Sys2Proof/Laws/Commands.lean ====
section
/-! SUPPORT. For each command: when its body succeeds and with what, when it raises an error and which. A proof
about a command cites these and `commit_eq_next`, and never unfolds the command. -/

namespace Sys2Proof.Machine

open Sys2Proof.Safety

/-- Reading a range raises no error, it only faults. -/
theorem readElems_ne_raise {α : Type} {sp : Space} {m : Memory α} {i n : Nat} {e : ErrKind} {info : Word} :
    readElems sp m i n ≠ .error (.error e info) := by
  intro h
  obtain ⟨_, _, _, h⟩ := readElems_eq_error h
  cases h

/-- A missing tree value raises no error, it only faults. -/
theorem orBroken_eq_ok {α : Type} {o : Option α} {a : α} : orBroken o = .ok a ↔ o = some a := by
  cases o <;> simp [orBroken]

theorem orBroken_ne_raise {α : Type} {o : Option α} {e : ErrKind} {info : Word} :
    orBroken o ≠ .error (.error e info) := by
  cases o <;> simp [orBroken]

/-! ## COUNT -/

theorem countBody_eq_ok {s u : State} :
    countBody s = .ok u ↔ s.seqlen.toNat ≤ s.cfg.seqMax ∧
      ∃ seq, seq.length = s.seqlen.toNat ∧ Holds s.seqin seq ∧ (countTable seq).length ≤ s.cfg.kMax ∧
        u = s.putTable ((countTable seq).map (fun e => wordOf e.1)) ((countTable seq).map (fun e => e.2)) := by
  simp only [countBody, bind_eq_ok, seqLength_eq_ok, readSeq, readElems_zero_eq_ok, failIf_eq_ok,
    decide_eq_false_iff_not, Nat.not_lt, Except.ok.injEq]
  constructor
  · rintro ⟨_, ⟨h1, rfl⟩, seq, ⟨h2, h3⟩, _, h4, rfl⟩
    exact ⟨h1, seq, h2, h3, h4, rfl⟩
  · rintro ⟨h1, seq, h2, h3, h4, rfl⟩
    exact ⟨_, ⟨h1, rfl⟩, seq, ⟨h2, h3⟩, (), h4, rfl⟩

theorem countBody_eq_raise {s : State} {e : ErrKind} {info : Word} :
    countBody s = .error (.error e info) ↔ e = .capacity ∧
      ((s.cfg.seqMax < s.seqlen.toNat ∧ info = capSeq) ∨
        (s.seqlen.toNat ≤ s.cfg.seqMax ∧ info = capSyms ∧
          ∃ seq, seq.length = s.seqlen.toNat ∧ Holds s.seqin seq ∧ s.cfg.kMax < (countTable seq).length)) := by
  simp only [countBody, bind_eq_error, seqLength_eq_ok, seqLength_eq_error, readSeq, readElems_zero_eq_ok,
    readElems_ne_raise, failIf_eq_error, decide_eq_true_eq, Stop.error.injEq, false_or, reduceCtorEq, and_false,
    exists_false, or_false]
  constructor
  · rintro (⟨h, rfl, rfl⟩ | ⟨_, ⟨h1, rfl⟩, seq, ⟨h2, h3⟩, h4, rfl, rfl⟩)
    · exact ⟨rfl, .inl ⟨h, rfl⟩⟩
    · exact ⟨rfl, .inr ⟨h1, rfl, seq, h2, h3, h4⟩⟩
  · rintro ⟨rfl, (⟨h, rfl⟩ | ⟨h1, rfl, seq, h2, h3, h4⟩)⟩
    · exact .inl ⟨h, rfl, rfl⟩
    · exact .inr ⟨_, ⟨h1, rfl⟩, seq, ⟨h2, h3⟩, h4, rfl, rfl⟩

/-! ## BUILD -/

theorem repeatsEarlier_eq_ok {s : State} {i : Nat} {b : Bool} (h : repeatsEarlier s i = .ok b) :
    (b = true ↔ ∃ j < i, ∃ v, s.wtS.read j = some v ∧ s.wtS.read i = some v) := by
  unfold repeatsEarlier at h
  split at h
  · cases h
    simp_all
  · obtain ⟨earlier, h1, h⟩ := bind_eq_ok.1 h
    obtain ⟨v, h2, h⟩ := bind_eq_ok.1 h
    cases h
    obtain ⟨rfl, hold⟩ := readElems_zero_eq_ok.1 h1
    rw [readElem_eq_ok] at h2
    rw [List.contains_iff_mem]
    constructor
    · intro hv
      obtain ⟨j, hj, hjv⟩ := List.getElem_of_mem hv
      exact ⟨j, hj, v, by rw [hold j hj, List.getElem?_eq_getElem hj, hjv], h2⟩
    · rintro ⟨j, hj, v', hv', h2'⟩
      obtain rfl : v = v' := by simpa [h2] using h2'
      rw [hold j hj] at hv'
      exact List.mem_of_getElem? hv'

theorem repeatsEarlier_ne_raise {s : State} {i : Nat} {e : ErrKind} {info : Word} :
    repeatsEarlier s i ≠ .error (.error e info) := by
  unfold repeatsEarlier
  split
  · simp
  · simp [bind_eq_error, readElems_ne_raise]

/-- `repeatsEarlier` answers as soon as the Symbols up to its index are written. -/
theorem repeatsEarlier_of_holds {s : State} {ss : List Symbol} (h : Holds s.wtS ss) {i : Nat} (hi : i < ss.length) :
    ∃ b, repeatsEarlier s i = .ok b := by
  unfold repeatsEarlier
  split
  · exact ⟨_, rfl⟩
  · have h1 : readElems .wt s.wtS 0 i = .ok (ss.take i) :=
      readElems_zero_eq_ok.2 ⟨by simp; omega, fun j hj => by
        have : j < i := by simp at hj; omega
        rw [h j (by omega), List.getElem?_take_of_lt this]⟩
    have h2 : readElem .wt s.wtS i = .ok ss[i] := readElem_eq_ok.2 (by rw [h i hi, List.getElem?_eq_getElem hi])
    simp [h1, h2]

/-- Check 3 passes exactly when the weights are not zero and no Symbol stands at a lower index too, and what it
reads is written. -/
theorem checkTable_eq_ok {s : State} {i n : Nat} {u : Unit} :
    checkTable s i n = .ok u ↔
      ∀ j < n, (∃ w, s.wtW.read (i + j) = some w ∧ w ≠ 0) ∧ repeatsEarlier s (i + j) = .ok false := by
  induction n generalizing i with
  | zero => simp [checkTable]
  | succ n ih =>
    simp only [checkTable, bind_eq_ok, readElem_eq_ok, failIf_eq_ok, ih, beq_eq_false_iff_ne]
    constructor
    · rintro ⟨w, hw, _, hne, b, hb, _, rfl, h⟩ j hj
      cases j with
      | zero => exact ⟨⟨w, hw, hne⟩, hb⟩
      | succ j => simpa [Nat.add_assoc, Nat.add_comm 1] using h j (by omega)
    · intro h
      obtain ⟨⟨w, hw, hne⟩, hb⟩ := h 0 (by omega)
      refine ⟨w, hw, (), hne, false, hb, (), rfl, fun j hj => ?_⟩
      simpa [Nat.add_assoc, Nat.add_comm 1] using h (j + 1) (by omega)

/-- Check 3 raises at the first index that offends; a zero weight is reported before a repeated Symbol. -/
theorem checkTable_eq_raise {s : State} {i n : Nat} {e : ErrKind} {info : Word} :
    checkTable s i n = .error (.error e info) ↔ e = .invalidTable ∧ ∃ j < n,
      (∀ k < j, (∃ w, s.wtW.read (i + k) = some w ∧ w ≠ 0) ∧ repeatsEarlier s (i + k) = .ok false) ∧
      ((s.wtW.read (i + j) = some 0 ∧ info = wordOf (i + j)) ∨
        ((∃ w, s.wtW.read (i + j) = some w ∧ w ≠ 0) ∧ repeatsEarlier s (i + j) = .ok true ∧
          info = repeatInfo (i + j))) := by
  induction n generalizing i with
  | zero => simp [checkTable]
  | succ n ih =>
    simp only [checkTable, bind_eq_error, readElem_eq_ok, readElem_eq_error, failIf_eq_ok, failIf_eq_error, ih,
      beq_iff_eq, beq_eq_false_iff_ne, repeatsEarlier_ne_raise, reduceCtorEq, and_false, false_or, Stop.error.injEq]
    constructor
    · rintro ⟨w, hw, (⟨rfl, rfl, rfl⟩ | ⟨_, hne, b, hb, (⟨rfl, rfl, rfl⟩ | ⟨_, rfl, rfl, j, hj, h1, h2⟩)⟩)⟩
      · exact ⟨rfl, 0, by omega, by simp, .inl ⟨hw, rfl⟩⟩
      · exact ⟨rfl, 0, by omega, by simp, .inr ⟨⟨w, hw, hne⟩, hb, rfl⟩⟩
      · refine ⟨rfl, j + 1, by omega, fun k hk => ?_, ?_⟩
        · cases k with
          | zero => exact ⟨⟨w, hw, hne⟩, hb⟩
          | succ k => simpa [Nat.add_assoc, Nat.add_comm 1] using h1 k (by omega)
        · simpa [Nat.add_assoc, Nat.add_comm 1] using h2
    · rintro ⟨rfl, j, hj, h1, h2⟩
      cases j with
      | zero =>
        rcases h2 with ⟨hw, rfl⟩ | ⟨⟨w, hw, hne⟩, hb, rfl⟩
        · exact ⟨0, hw, .inl ⟨rfl, rfl, rfl⟩⟩
        · exact ⟨w, hw, .inr ⟨(), hne, true, hb, .inl ⟨rfl, rfl, rfl⟩⟩⟩
      | succ j =>
        obtain ⟨⟨w, hw, hne⟩, hb⟩ := h1 0 (by omega)
        refine ⟨w, hw, .inr ⟨(), hne, false, hb, .inr ⟨(), rfl, rfl, j, by omega, fun k hk => ?_, ?_⟩⟩⟩
        · simpa [Nat.add_assoc, Nat.add_comm 1] using h1 (k + 1) (by omega)
        · simpa [Nat.add_assoc, Nat.add_comm 1] using h2

theorem buildBody_eq_ok {s u : State} :
    buildBody s = .ok u ↔ s.nsym ≠ 0 ∧ s.nsym.toNat ≤ s.cfg.kMax ∧
      ∃ ws ss, ws.length = s.nsym.toNat ∧ ss.length = s.nsym.toNat ∧ Holds s.wtW ws ∧ Holds s.wtS ss ∧
        (∀ j < s.nsym.toNat, (∃ w, s.wtW.read j = some w ∧ w ≠ 0) ∧ repeatsEarlier s j = .ok false) ∧
        weightSum ws < 2 ^ s.cfg.weightW ∧ u = s.putTree (buildNodes ws ss) := by
  simp only [buildBody, bind_eq_ok, failIf_eq_ok, checkTable_eq_ok, readElems_zero_eq_ok, Nat.zero_add,
    decide_eq_false_iff_not, Nat.not_lt, Nat.not_le, beq_eq_false_iff_ne, Except.ok.injEq]
  have hz : s.nsym.toNat ≠ 0 ↔ s.nsym ≠ 0 := by simp [BitVec.toNat_eq]
  rw [hz]
  constructor
  · rintro ⟨_, h1, _, h2, _, h3, ws, ⟨h4, h5⟩, _, h6, ss, ⟨h7, h8⟩, rfl⟩
    exact ⟨h1, h2, ws, ss, h4, h7, h5, h8, h3, h6, rfl⟩
  · rintro ⟨h1, h2, ws, ss, h4, h7, h5, h8, h3, h6, rfl⟩
    exact ⟨(), h1, (), h2, (), h3, ws, ⟨h4, h5⟩, (), h6, ss, ⟨h7, h8⟩, rfl⟩

theorem buildBody_eq_raise {s : State} {e : ErrKind} {info : Word} (h : buildBody s = .error (.error e info)) :
    (s.nsym = 0 ∧ e = .emptyAlphabet ∧ info = 0) ∨
    (s.nsym ≠ 0 ∧ s.cfg.kMax < s.nsym.toNat ∧ e = .capacity ∧ info = capSyms) ∨
    (s.nsym ≠ 0 ∧ s.nsym.toNat ≤ s.cfg.kMax ∧ checkTable s 0 s.nsym.toNat = .error (.error e info)) ∨
    (s.nsym ≠ 0 ∧ s.nsym.toNat ≤ s.cfg.kMax ∧ checkTable s 0 s.nsym.toNat = .ok () ∧
      (∃ ws, ws.length = s.nsym.toNat ∧ Holds s.wtW ws ∧ 2 ^ s.cfg.weightW ≤ weightSum ws) ∧
      e = .capacity ∧ info = capWeight) := by
  have hz : s.nsym.toNat ≠ 0 ↔ s.nsym ≠ 0 := by simp [BitVec.toNat_eq]
  simp only [buildBody, bind_eq_error, failIf_eq_ok, failIf_eq_error, readElems_ne_raise, readElems_zero_eq_ok,
    decide_eq_false_iff_not, decide_eq_true_eq, Nat.not_lt, beq_iff_eq, beq_eq_false_iff_ne, Stop.error.injEq, false_or,
    reduceCtorEq, and_false, exists_false, or_false, hz] at h
  rcases h with ⟨h, rfl, rfl⟩ | ⟨_, h0, (⟨h, rfl, rfl⟩ | ⟨_, h1, (h | ⟨_, h, ws, ⟨h2, h3⟩, h4, rfl, rfl⟩)⟩)⟩
  · exact .inl ⟨by simpa [BitVec.toNat_eq] using h, rfl, rfl⟩
  · exact .inr (.inl ⟨h0, h, rfl, rfl⟩)
  · exact .inr (.inr (.inl ⟨h0, h1, h⟩))
  · exact .inr (.inr (.inr ⟨h0, h1, h, ⟨ws, h2, h3, h4⟩, rfl, rfl⟩))

/-! ## ENCSYM, ENCODE, DECODE -/

theorem readTree_eq_ok {s : State} {nodes : List Node} :
    readTree s = .ok nodes ↔ nodes.length = s.nnodes.toNat ∧ Holds s.node nodes := by
  simp [readTree, readElems_zero_eq_ok]

theorem readTree_ne_raise {s : State} {e : ErrKind} {info : Word} : readTree s ≠ .error (.error e info) :=
  readElems_ne_raise

theorem encsymBody_eq_ok {s u : State} :
    encsymBody s = .ok u ↔ s.tv = true ∧
      ∃ nodes, nodes.length = s.nnodes.toNat ∧ Holds s.node nodes ∧
        ∃ i, leafOf nodes (leafCount s) s.arg = some i ∧
          ∃ code, codeOf nodes s.root.toNat (leafCount s) i = some code ∧ u = s.putCode code := by
  simp only [encsymBody, bind_eq_ok, requireTree_eq_ok, readTree_eq_ok]
  constructor
  · rintro ⟨_, h1, nodes, ⟨h2, h3⟩, h⟩
    refine ⟨h1, nodes, h2, h3, ?_⟩
    split at h
    · cases h
    · rename_i i hi
      obtain ⟨code, hc, h⟩ := bind_eq_ok.1 h
      cases h
      exact ⟨i, hi, code, orBroken_eq_ok.1 hc, rfl⟩
  · rintro ⟨h1, nodes, h2, h3, i, hi, code, hc, rfl⟩
    exact ⟨(), h1, nodes, ⟨h2, h3⟩, by simp [hi, orBroken_eq_ok.2 hc]⟩

theorem encsymBody_eq_raise {s : State} {e : ErrKind} {info : Word} :
    encsymBody s = .error (.error e info) ↔ info = 0 ∧
      ((s.tv = false ∧ e = .uninitializedTree) ∨
        (s.tv = true ∧ e = .unknownSymbol ∧
          ∃ nodes, nodes.length = s.nnodes.toNat ∧ Holds s.node nodes ∧
            leafOf nodes (leafCount s) s.arg = none)) := by
  simp only [encsymBody, bind_eq_error, requireTree_eq_ok, requireTree_eq_error, readTree_eq_ok, readTree_ne_raise,
    false_or, Stop.error.injEq]
  constructor
  · rintro (⟨h1, rfl, rfl⟩ | ⟨_, h1, nodes, ⟨h2, h3⟩, h⟩)
    · exact ⟨rfl, .inl ⟨h1, rfl⟩⟩
    · split at h
      · rename_i hn
        cases h
        exact ⟨rfl, .inr ⟨h1, rfl, nodes, h2, h3, hn⟩⟩
      · rcases bind_eq_error.1 h with h | ⟨_, _, h⟩
        · exact absurd h orBroken_ne_raise
        · cases h
  · rintro ⟨rfl, (⟨h1, rfl⟩ | ⟨h1, rfl, nodes, h2, h3, hn⟩)⟩
    · exact .inl ⟨h1, rfl, rfl⟩
    · exact .inr ⟨(), h1, nodes, ⟨h2, h3⟩, by simp [hn]⟩

theorem lookUp_eq_ok {s : State} {nodes : List Node} {i n : Nat} {leaves : List Nat} :
    lookUp s nodes i n = .ok leaves ↔ leaves.length = n ∧
      ∀ j < n, ∃ v, s.seqin.read (i + j) = some v ∧ leafOf nodes (leafCount s) v = leaves[j]? := by
  induction n generalizing i leaves with
  | zero => simp [lookUp, eq_comm]
  | succ n ih =>
    simp only [lookUp, bind_eq_ok, readElem_eq_ok]
    constructor
    · rintro ⟨v, hv, h⟩
      split at h
      · cases h
      · rename_i l hl
        obtain ⟨js, hjs, h⟩ := bind_eq_ok.1 h
        cases h
        obtain ⟨h1, h2⟩ := ih.1 hjs
        refine ⟨by simp [h1], fun j hj => ?_⟩
        cases j with
        | zero => exact ⟨v, hv, by simpa using hl⟩
        | succ j => simpa [Nat.add_assoc, Nat.add_comm 1] using h2 j (by omega)
    · rintro ⟨hl, h⟩
      cases leaves with
      | nil => simp at hl
      | cons l leaves =>
        obtain ⟨v, hv, hvl⟩ := h 0 (by omega)
        have hrest : lookUp s nodes (i + 1) n = .ok leaves := ih.2 ⟨by simpa using hl, fun j hj => by
          simpa [Nat.add_assoc, Nat.add_comm 1] using h (j + 1) (by omega)⟩
        have hvl' : leafOf nodes (leafCount s) v = some l := by simpa using hvl
        exact ⟨v, hv, by simp [hvl', hrest]⟩

/-- The look-up raises at the first Symbol that is not in the tree, with its index. -/
theorem lookUp_eq_raise {s : State} {nodes : List Node} {i n : Nat} {e : ErrKind} {info : Word} :
    lookUp s nodes i n = .error (.error e info) ↔ e = .unknownSymbol ∧ ∃ j < n, info = wordOf (i + j) ∧
      (∃ v, s.seqin.read (i + j) = some v ∧ leafOf nodes (leafCount s) v = none) ∧
      ∀ k < j, ∃ v l, s.seqin.read (i + k) = some v ∧ leafOf nodes (leafCount s) v = some l := by
  induction n generalizing i with
  | zero => simp [lookUp]
  | succ n ih =>
    simp only [lookUp, bind_eq_error, readElem_eq_ok, readElem_eq_error, reduceCtorEq, and_false, false_or]
    constructor
    · rintro ⟨v, hv, h⟩
      split at h
      · rename_i hn
        cases h
        exact ⟨rfl, 0, by omega, rfl, ⟨v, hv, hn⟩, by simp⟩
      · rename_i l hl
        rcases bind_eq_error.1 h with h | ⟨_, _, h⟩
        · obtain ⟨rfl, j, hj, h1, h2, h3⟩ := ih.1 h
          refine ⟨rfl, j + 1, by omega, ?_, ?_, fun k hk => ?_⟩
          · simpa [Nat.add_assoc, Nat.add_comm 1] using h1
          · simpa [Nat.add_assoc, Nat.add_comm 1] using h2
          · cases k with
            | zero => exact ⟨v, l, hv, hl⟩
            | succ k => simpa [Nat.add_assoc, Nat.add_comm 1] using h3 k (by omega)
        · cases h
    · rintro ⟨rfl, j, hj, rfl, ⟨v, hv, hn⟩, h⟩
      cases j with
      | zero => exact ⟨v, hv, by simp [hn]⟩
      | succ j =>
        obtain ⟨v0, l, hv0, hl⟩ := h 0 (by omega)
        have hrest : lookUp s nodes (i + 1) n = .error (.error .unknownSymbol (wordOf (i + (j + 1)))) :=
          ih.2 ⟨rfl, j, by omega, by rw [show i + (j + 1) = i + 1 + j by omega],
            ⟨v, by rwa [show i + 1 + j = i + (j + 1) by omega], hn⟩,
            fun k hk => by
              simpa [Nat.add_assoc, Nat.add_comm 1] using h (k + 1) (by omega)⟩
        exact ⟨v0, hv0, by simp [hl, hrest]⟩

theorem encodeBody_eq_ok {s u : State} :
    encodeBody s = .ok u ↔ s.tv = true ∧ s.seqlen.toNat ≤ s.cfg.seqMax ∧
      ∃ nodes, nodes.length = s.nnodes.toNat ∧ Holds s.node nodes ∧
        ∃ leaves, lookUp s nodes 0 s.seqlen.toNat = .ok leaves ∧
          ∃ bits, encodeLeaves nodes s.root.toNat (leafCount s) leaves = some bits ∧
            bits.length ≤ bitsMax s.cfg ∧ u = s.putStream bits := by
  simp only [encodeBody, bind_eq_ok, requireTree_eq_ok, seqLength_eq_ok, readTree_eq_ok, orBroken_eq_ok, failIf_eq_ok,
    decide_eq_false_iff_not, Nat.not_lt, Except.ok.injEq]
  constructor
  · rintro ⟨_, h1, _, ⟨h2, rfl⟩, nodes, ⟨h3, h4⟩, leaves, h5, bits, h6, _, h7, rfl⟩
    exact ⟨h1, h2, nodes, h3, h4, leaves, h5, bits, h6, h7, rfl⟩
  · rintro ⟨h1, h2, nodes, h3, h4, leaves, h5, bits, h6, h7, rfl⟩
    exact ⟨(), h1, _, ⟨h2, rfl⟩, nodes, ⟨h3, h4⟩, leaves, h5, bits, h6, (), h7, rfl⟩

theorem encodeBody_eq_raise {s : State} {e : ErrKind} {info : Word} :
    encodeBody s = .error (.error e info) ↔
      (s.tv = false ∧ e = .uninitializedTree ∧ info = 0) ∨
      (s.tv = true ∧ s.cfg.seqMax < s.seqlen.toNat ∧ e = .capacity ∧ info = capSeq) ∨
      (s.tv = true ∧ s.seqlen.toNat ≤ s.cfg.seqMax ∧
        ∃ nodes, nodes.length = s.nnodes.toNat ∧ Holds s.node nodes ∧
          (lookUp s nodes 0 s.seqlen.toNat = .error (.error e info) ∨
            ∃ leaves, lookUp s nodes 0 s.seqlen.toNat = .ok leaves ∧
              ∃ bits, encodeLeaves nodes s.root.toNat (leafCount s) leaves = some bits ∧
                bitsMax s.cfg < bits.length ∧ e = .capacity ∧ info = capBits)) := by
  simp only [encodeBody, bind_eq_error, requireTree_eq_ok, requireTree_eq_error, seqLength_eq_ok, seqLength_eq_error,
    readTree_eq_ok, readTree_ne_raise, orBroken_eq_ok, orBroken_ne_raise, failIf_eq_error,
    decide_eq_true_eq, false_or, Stop.error.injEq, reduceCtorEq, and_false, exists_false, or_false]
  constructor
  · rintro (⟨h, rfl, rfl⟩ | ⟨_, h1, (⟨h, rfl, rfl⟩ | ⟨_, ⟨h2, rfl⟩, nodes, ⟨h3, h4⟩, h⟩)⟩)
    · exact .inl ⟨h, rfl, rfl⟩
    · exact .inr (.inl ⟨h1, h, rfl, rfl⟩)
    · refine .inr (.inr ⟨h1, h2, nodes, h3, h4, ?_⟩)
      rcases h with h | ⟨leaves, h5, bits, h6, h7, rfl, rfl⟩
      · exact .inl h
      · exact .inr ⟨leaves, h5, bits, h6, h7, rfl, rfl⟩
  · rintro (⟨h, rfl, rfl⟩ | ⟨h1, h, rfl, rfl⟩ | ⟨h1, h2, nodes, h3, h4, h⟩)
    · exact .inl ⟨h, rfl, rfl⟩
    · exact .inr ⟨(), h1, .inl ⟨h, rfl, rfl⟩⟩
    · refine .inr ⟨(), h1, .inr ⟨_, ⟨h2, rfl⟩, nodes, ⟨h3, h4⟩, ?_⟩⟩
      rcases h with h | ⟨leaves, h5, bits, h6, h7, rfl, rfl⟩
      · exact .inl h
      · exact .inr ⟨leaves, h5, bits, h6, h7, rfl, rfl⟩

theorem decodeBody_eq_ok {s u : State} :
    decodeBody s = .ok u ↔ s.tv = true ∧ s.nbits.toNat ≤ bitsMax s.cfg ∧
      ∃ bits, bits.length = s.nbits.toNat ∧ Holds s.bitbuf bits ∧
        ∃ nodes, nodes.length = s.nnodes.toNat ∧ Holds s.node nodes ∧
          ∃ out, decodeFn nodes s.root.toNat (leafCount s) bits = .ok out ∧
            out.length ≤ s.cfg.seqMax ∧ u = s.putSymbols out := by
  simp only [decodeBody, bind_eq_ok, requireTree_eq_ok, streamLength_eq_ok, readStream, readElems_zero_eq_ok,
    readTree_eq_ok]
  constructor
  · rintro ⟨_, h1, _, ⟨h2, rfl⟩, bits, ⟨h3, h4⟩, nodes, ⟨h5, h6⟩, h⟩
    refine ⟨h1, h2, bits, h3, h4, nodes, h5, h6, ?_⟩
    split at h
    · cases h
    · cases h
    · rename_i out hd
      obtain ⟨_, h7, h⟩ := bind_eq_ok.1 h
      cases h
      exact ⟨out, hd, by simpa using h7, rfl⟩
  · rintro ⟨h1, h2, bits, h3, h4, nodes, h5, h6, out, hd, h7, rfl⟩
    refine ⟨(), h1, _, ⟨h2, rfl⟩, bits, ⟨h3, h4⟩, nodes, ⟨h5, h6⟩, ?_⟩
    rw [hd]
    exact bind_eq_ok.2 ⟨(), by simpa using h7, rfl⟩

theorem decodeBody_eq_raise {s : State} {e : ErrKind} {info : Word} :
    decodeBody s = .error (.error e info) ↔
      (s.tv = false ∧ e = .uninitializedTree ∧ info = 0) ∨
      (s.tv = true ∧ bitsMax s.cfg < s.nbits.toNat ∧ e = .capacity ∧ info = capBits) ∨
      (s.tv = true ∧ s.nbits.toNat ≤ bitsMax s.cfg ∧
        ∃ bits, bits.length = s.nbits.toNat ∧ Holds s.bitbuf bits ∧
          ∃ nodes, nodes.length = s.nnodes.toNat ∧ Holds s.node nodes ∧
            ((∃ p, decodeFn nodes s.root.toNat (leafCount s) bits = .malformed p ∧
                e = .malformedStream ∧ info = wordOf p) ∨
              ∃ out, decodeFn nodes s.root.toNat (leafCount s) bits = .ok out ∧
                s.cfg.seqMax < out.length ∧ e = .capacity ∧ info = capOut)) := by
  simp only [decodeBody, bind_eq_error, requireTree_eq_ok, requireTree_eq_error, streamLength_eq_ok,
    streamLength_eq_error, readStream, readElems_zero_eq_ok, readElems_ne_raise, readTree_eq_ok, readTree_ne_raise,
    false_or, Stop.error.injEq]
  constructor
  · rintro (⟨h, rfl, rfl⟩ | ⟨_, h1, (⟨h, rfl, rfl⟩ | ⟨_, ⟨h2, rfl⟩, bits, ⟨h3, h4⟩, nodes, ⟨h5, h6⟩, h⟩)⟩)
    · exact .inl ⟨h, rfl, rfl⟩
    · exact .inr (.inl ⟨h1, h, rfl, rfl⟩)
    · refine .inr (.inr ⟨h1, h2, bits, h3, h4, nodes, h5, h6, ?_⟩)
      split at h
      · rename_i p hd
        cases h
        exact .inl ⟨p, hd, rfl, rfl⟩
      · cases h
      · rename_i out hd
        rcases bind_eq_error.1 h with h | ⟨_, _, h⟩
        · obtain ⟨h7, h8⟩ := failIf_eq_error.1 h
          cases h8
          exact .inr ⟨out, hd, by simpa using h7, rfl, rfl⟩
        · cases h
  · rintro (⟨h, rfl, rfl⟩ | ⟨h1, h, rfl, rfl⟩ | ⟨h1, h2, bits, h3, h4, nodes, h5, h6, h⟩)
    · exact .inl ⟨h, rfl, rfl⟩
    · exact .inr ⟨(), h1, .inl ⟨h, rfl, rfl⟩⟩
    · refine .inr ⟨(), h1, .inr ⟨_, ⟨h2, rfl⟩, bits, ⟨h3, h4⟩, nodes, ⟨h5, h6⟩, ?_⟩⟩
      rcases h with ⟨p, hd, rfl, rfl⟩ | ⟨out, hd, h7, rfl, rfl⟩
      · rw [hd]
      · rw [hd]
        exact bind_eq_error.2 (.inl (failIf_eq_error.2 ⟨by simpa using h7, rfl⟩))

/-! ## PACK, UNPACK, TRIM -/

theorem packBody_eq_ok {s u : State} :
    packBody s = .ok u ↔ s.nbits.toNat ≤ bitsMax s.cfg ∧
      ∃ bits, bits.length = s.nbits.toNat ∧ Holds s.bitbuf bits ∧
        u = (s.putCells (packFn bits)).setTotalbits s.nbits.toNat := by
  simp only [packBody, bind_eq_ok, streamLength_eq_ok, readStream, readElems_zero_eq_ok, Except.ok.injEq]
  constructor
  · rintro ⟨_, ⟨h1, rfl⟩, bits, ⟨h2, h3⟩, rfl⟩
    exact ⟨h1, bits, h2, h3, rfl⟩
  · rintro ⟨h1, bits, h2, h3, rfl⟩
    exact ⟨_, ⟨h1, rfl⟩, bits, ⟨h2, h3⟩, rfl⟩

theorem packBody_eq_raise {s : State} {e : ErrKind} {info : Word} :
    packBody s = .error (.error e info) ↔ bitsMax s.cfg < s.nbits.toNat ∧ e = .capacity ∧ info = capBits := by
  simp [packBody, bind_eq_error, streamLength_eq_error, readStream, readElems_ne_raise]

theorem unpackBody_eq_ok {s u : State} :
    unpackBody s = .ok u ↔ s.ncells.toNat ≤ s.cfg.cellsMax ∧ s.ncells.toNat = cellsNeeded s ∧
      ∃ cells, cells.length = s.ncells.toNat ∧ Holds s.cellbuf cells ∧
        u = s.putStream (unpackFn cells s.totalbits.toNat) := by
  simp only [unpackBody, bind_eq_ok, cellCount_eq_ok, readCells, readElems_zero_eq_ok, failIf_eq_ok, bne_eq_false_iff_eq,
    Except.ok.injEq]
  constructor
  · rintro ⟨_, ⟨h1, rfl⟩, _, h2, cells, ⟨h3, h4⟩, rfl⟩
    exact ⟨h1, h2, cells, h3, h4, rfl⟩
  · rintro ⟨h1, h2, cells, h3, h4, rfl⟩
    exact ⟨_, ⟨h1, rfl⟩, (), h2, cells, ⟨h3, h4⟩, rfl⟩

theorem unpackBody_eq_raise {s : State} {e : ErrKind} {info : Word} :
    unpackBody s = .error (.error e info) ↔
      (s.cfg.cellsMax < s.ncells.toNat ∧ e = .capacity ∧ info = capCells) ∨
      (s.ncells.toNat ≤ s.cfg.cellsMax ∧ s.ncells.toNat ≠ cellsNeeded s ∧ e = .framing ∧
        info = wordOf (cellsNeeded s)) := by
  simp only [unpackBody, bind_eq_error, cellCount_eq_ok, cellCount_eq_error, readCells, readElems_ne_raise,
    failIf_eq_error, bne_iff_ne, Stop.error.injEq, reduceCtorEq, and_false, exists_false, or_false]
  constructor
  · rintro (h | ⟨_, ⟨h1, rfl⟩, h2, rfl, rfl⟩)
    · exact .inl h
    · exact .inr ⟨h1, h2, rfl, rfl⟩
  · rintro (h | ⟨h1, h2, rfl, rfl⟩)
    · exact .inl h
    · exact .inr ⟨_, ⟨h1, rfl⟩, h2, rfl, rfl⟩

theorem trimBody_eq_ok {s u : State} :
    trimBody s = .ok u ↔ s.ncells.toNat ≤ s.cfg.cellsMax ∧ cellsNeeded s ≤ s.ncells.toNat ∧
      u = s.setNcells (cellsNeeded s) := by
  simp only [trimBody, bind_eq_ok, cellCount_eq_ok, failIf_eq_ok, decide_eq_false_iff_not, Nat.not_lt, Except.ok.injEq]
  constructor
  · rintro ⟨_, ⟨h1, rfl⟩, _, h2, rfl⟩
    exact ⟨h1, h2, rfl⟩
  · rintro ⟨h1, h2, rfl⟩
    exact ⟨_, ⟨h1, rfl⟩, (), h2, rfl⟩

theorem trimBody_eq_raise {s : State} {e : ErrKind} {info : Word} :
    trimBody s = .error (.error e info) ↔
      (s.cfg.cellsMax < s.ncells.toNat ∧ e = .capacity ∧ info = capCells) ∨
      (s.ncells.toNat ≤ s.cfg.cellsMax ∧ s.ncells.toNat < cellsNeeded s ∧ e = .framing ∧
        info = wordOf (cellsNeeded s)) := by
  simp only [trimBody, bind_eq_error, cellCount_eq_ok, cellCount_eq_error, failIf_eq_error, decide_eq_true_eq,
    Stop.error.injEq, reduceCtorEq, and_false, exists_false, or_false]
  constructor
  · rintro (h | ⟨_, ⟨h1, rfl⟩, h2, rfl, rfl⟩)
    · exact .inl h
    · exact .inr ⟨h1, h2, rfl, rfl⟩
  · rintro (h | ⟨h1, h2, rfl, rfl⟩)
    · exact .inl h
    · exact .inr ⟨_, ⟨h1, rfl⟩, h2, rfl, rfl⟩

/-! ## TOGRID, FROMGRID -/

theorem togridBody_eq_ok {s u : State} :
    togridBody s = .ok u ↔ s.ncells.toNat ≤ s.cfg.cellsMax ∧
      ∃ cells, cells.length = s.ncells.toNat ∧ Holds s.cellbuf cells ∧
        u = s.putGrid (gridWidth s.ncells.toNat) (gridHeight s.ncells.toNat) (gridCells cells) := by
  simp only [togridBody, bind_eq_ok, cellCount_eq_ok, readCells, readElems_zero_eq_ok, Except.ok.injEq]
  constructor
  · rintro ⟨_, ⟨h1, rfl⟩, cells, ⟨h2, h3⟩, rfl⟩
    exact ⟨h1, cells, h2, h3, rfl⟩
  · rintro ⟨h1, cells, h2, h3, rfl⟩
    exact ⟨_, ⟨h1, rfl⟩, cells, ⟨h2, h3⟩, rfl⟩

theorem togridBody_eq_raise {s : State} {e : ErrKind} {info : Word} :
    togridBody s = .error (.error e info) ↔ s.cfg.cellsMax < s.ncells.toNat ∧ e = .capacity ∧ info = capCells := by
  simp [togridBody, bind_eq_error, cellCount_eq_error, readCells, readElems_ne_raise]

theorem fromgridBody_eq_ok {s u : State} :
    fromgridBody s = .ok u ↔ s.gw.toNat * s.gh.toNat ≤ s.cfg.cellsMax ∧
      ∃ cells, cells.length = s.gw.toNat * s.gh.toNat ∧ Holds s.grid cells ∧
        u = (s.putCells cells).setPadidx (firstMarker cells) := by
  simp only [fromgridBody, bind_eq_ok, gridSize_eq_ok, readGrid, readElems_zero_eq_ok, Except.ok.injEq]
  constructor
  · rintro ⟨_, ⟨h1, rfl⟩, cells, ⟨h2, h3⟩, rfl⟩
    exact ⟨h1, cells, h2, h3, rfl⟩
  · rintro ⟨h1, cells, h2, h3, rfl⟩
    exact ⟨_, ⟨h1, rfl⟩, cells, ⟨h2, h3⟩, rfl⟩

theorem fromgridBody_eq_raise {s : State} {e : ErrKind} {info : Word} :
    fromgridBody s = .error (.error e info) ↔
      s.cfg.cellsMax < s.gw.toNat * s.gh.toNat ∧ e = .capacity ∧ info = capGrid := by
  simp [fromgridBody, bind_eq_error, gridSize_eq_error, readGrid, readElems_ne_raise]

end Sys2Proof.Machine
end

