-- ==== Sys2Proof/Laws/HostAccess.lean ====
section
/-! SUPPORT. Host views: the word a view reads as, bit by bit, and what a narrowed write keeps. -/

namespace Sys2Proof.Machine

/-- A view all of whose bits are defined reads as its word. -/
@[simp] theorem viewWord_wholeView (v free : Word) : viewWord (wholeView v) free = v := by
  have h : ~~~(0 : Word) = BitVec.allOnes 32 := rfl
  rw [viewWord, wholeView, h, BitVec.not_allOnes]
  simp only [BitVec.and_allOnes, BitVec.and_zero, BitVec.or_zero]

/-- A written element reads as itself. -/
@[simp] theorem elementView_some (w : Nat) (v : Word) : elementView w (some v) = wholeView v := rfl

/-- A defined bit of a view is the value's, any other the free word's. -/
theorem getLsbD_viewWord (v : View) (free : Word) {i : Nat} (h : i < 32) :
    (viewWord v free).getLsbD i = if v.defined.getLsbD i then v.value.getLsbD i else free.getLsbD i := by
  simp only [viewWord, BitVec.getLsbD_or, BitVec.getLsbD_and, BitVec.getLsbD_not]
  cases v.defined.getLsbD i <;> simp [h]

/-- The word 32 bits spell has the bit of index `t` at `31 - t` (`20_memory.md` R64). -/
theorem getLsbD_wordOfBits {bits : List Bool} (hl : bits.length = 32) {t : Nat} (ht : t < 32) :
    some ((wordOfBits bits).getLsbD (31 - t)) = bits[t]? := by
  have hb := getElem?_bitsOf (bitsVal bits) (show t < 32 from ht)
  have hs := bitsOf_bitsVal bits
  rw [hl] at hs
  rw [hs] at hb
  rw [hb]
  simp only [wordOfBits, wordOf, BitVec.getLsbD_ofNat]
  rw [show 32 - 1 - t = 31 - t from rfl, decide_eq_true (show 31 - t < 32 by omega), Bool.true_and]

/-- Word `j` of a bit buffer, bit by bit: the bit and whether it is defined. -/
theorem getLsbD_bitWordView (m : Memory Bool) (size : Nat) (beyond : Bool × Bool) (j : Nat) {t : Nat} (ht : t < 32) :
    (bitWordView m size beyond j).value.getLsbD (31 - t) = (bitView m size beyond (32 * j + t)).1 ∧
      (bitWordView m size beyond j).defined.getLsbD (31 - t) = (bitView m size beyond (32 * j + t)).2 := by
  constructor
  · apply Option.some.inj
    rw [bitWordView, getLsbD_wordOfBits (by simp) ht]
    simp [ht]
  · apply Option.some.inj
    rw [bitWordView, getLsbD_wordOfBits (by simp) ht]
    simp [ht]

/-- A narrowed write keeps the low bits (`20_memory.md` R67). -/
theorem keepLow_eq {w : Nat} (h : w ≤ 32) (v : Word) : keepLow w v = wordOf (v.toNat % 2 ^ w) := by
  apply BitVec.eq_of_toNat_eq
  have hp : 2 ^ w ≤ 2 ^ 32 := Nat.pow_le_pow_right (by omega) h
  have h1 : 2 ^ w - 1 < 2 ^ 32 := by omega
  have h2 : v.toNat % 2 ^ w < 2 ^ 32 := lt_of_le_of_lt (Nat.mod_le _ _) v.isLt
  simp only [keepLow, lowMask, wordOf, BitVec.toNat_and, BitVec.toNat_ofNat, Nat.mod_eq_of_lt h1, Nat.mod_eq_of_lt h2,
    Nat.and_two_pow_sub_one_eq_mod]

end Sys2Proof.Machine
end

