-- ==== Sys2Proof/Laws/PerInstr.lean ====
section
/-! SUPPORT. One lemma for each constructor of `Instr`: its opcode is a row of the opcode map, and its word is that opcode
below 24 zero bits (`30_encoding.md` R90, R92). -/

/-- The word of the command has the shape of format `C`, and the opcode map has it in the command's row. -/
def Sys2Proof.Laws.WordShape.Statement (i : Sys2Proof.Instr) : Prop :=
  Sys2Proof.zeroField (Sys2Proof.encode i) = 0 ∧ Sys2Proof.opField (Sys2Proof.encode i) = Sys2Proof.opcode i ∧
    (Sys2Proof.opcode i, i) ∈ Sys2Proof.opcodeRows ∧ i.wf = true

theorem Sys2Proof.Laws.WordShape.nop : Sys2Proof.Laws.WordShape.Statement .nop := by
  unfold Sys2Proof.Laws.WordShape.Statement
  decide

theorem Sys2Proof.Laws.WordShape.count : Sys2Proof.Laws.WordShape.Statement .count := by
  unfold Sys2Proof.Laws.WordShape.Statement
  decide

theorem Sys2Proof.Laws.WordShape.build : Sys2Proof.Laws.WordShape.Statement .build := by
  unfold Sys2Proof.Laws.WordShape.Statement
  decide

theorem Sys2Proof.Laws.WordShape.encsym : Sys2Proof.Laws.WordShape.Statement .encsym := by
  unfold Sys2Proof.Laws.WordShape.Statement
  decide

theorem Sys2Proof.Laws.WordShape.encode : Sys2Proof.Laws.WordShape.Statement .encode := by
  unfold Sys2Proof.Laws.WordShape.Statement
  decide

theorem Sys2Proof.Laws.WordShape.decode : Sys2Proof.Laws.WordShape.Statement .decode := by
  unfold Sys2Proof.Laws.WordShape.Statement
  decide

theorem Sys2Proof.Laws.WordShape.pack : Sys2Proof.Laws.WordShape.Statement .pack := by
  unfold Sys2Proof.Laws.WordShape.Statement
  decide

theorem Sys2Proof.Laws.WordShape.unpack : Sys2Proof.Laws.WordShape.Statement .unpack := by
  unfold Sys2Proof.Laws.WordShape.Statement
  decide

theorem Sys2Proof.Laws.WordShape.togrid : Sys2Proof.Laws.WordShape.Statement .togrid := by
  unfold Sys2Proof.Laws.WordShape.Statement
  decide

theorem Sys2Proof.Laws.WordShape.fromgrid : Sys2Proof.Laws.WordShape.Statement .fromgrid := by
  unfold Sys2Proof.Laws.WordShape.Statement
  decide

theorem Sys2Proof.Laws.WordShape.trim : Sys2Proof.Laws.WordShape.Statement .trim := by
  unfold Sys2Proof.Laws.WordShape.Statement
  decide

theorem Sys2Proof.Laws.WordShape.reset : Sys2Proof.Laws.WordShape.Statement .reset := by
  unfold Sys2Proof.Laws.WordShape.Statement
  decide
end

