-- ==== Sys2Proof/Laws/Queue.lean ====
section
/-! SUPPORT. The queue of BUILD: `pop` takes the least entry and leaves the others (`41_huffman_build.md` R122). -/

namespace Sys2Proof.Machine

/-- The queue's order is the lexicographic one. -/
theorem before_eq_true {x y : Nat × Nat} : before x y = true ↔ x.1 < y.1 ∨ (x.1 = y.1 ∧ x.2 < y.2) := by
  simp [before]

/-- The least entry stands in the queue. -/
theorem leastOf_mem (x : Nat × Nat) (rest : List (Nat × Nat)) : leastOf x rest ∈ x :: rest := by
  induction rest generalizing x with
  | nil => simp [leastOf]
  | cons y rest ih =>
    rw [leastOf]
    rcases List.mem_cons.1 (ih (if before y x then y else x)) with h | h
    · rw [h]
      split <;> simp
    · simp [h]

/-- No entry of the queue comes before the least one. -/
theorem not_before_leastOf (x : Nat × Nat) (rest : List (Nat × Nat)) :
    ∀ y ∈ x :: rest, before y (leastOf x rest) = false := by
  induction rest generalizing x with
  | nil =>
    intro y hy
    rw [List.mem_singleton.1 hy]
    simp [leastOf, before]
  | cons z rest ih =>
    intro y hy
    rw [leastOf]
    have h := ih (if before z x then z else x)
    have h0 := h _ List.mem_cons_self
    have hrest : ∀ u ∈ rest, before u (leastOf (if before z x then z else x) rest) = false :=
      fun u hu => h u (List.mem_cons_of_mem _ hu)
    generalize leastOf (if before z x then z else x) rest = m at h0 hrest ⊢
    simp only [List.mem_cons] at hy
    rcases hy with rfl | rfl | hy
    · split at h0
      · rename_i hb
        rw [Bool.eq_false_iff, ne_eq, before_eq_true] at h0 ⊢
        rw [before_eq_true] at hb
        omega
      · exact h0
    · split at h0
      · exact h0
      · rename_i hb
        rw [before_eq_true] at hb
        rw [Bool.eq_false_iff, ne_eq, before_eq_true] at h0 ⊢
        omega
    · exact hrest y hy

/-- All that `pop` does. -/
theorem pop_spec {q q' : List (Nat × Nat)} {x : Nat × Nat} (h : pop q = some (x, q')) :
    x ∈ q ∧ q' = q.erase x ∧ q.Perm (x :: q') ∧ ∀ y ∈ q, before y x = false := by
  cases q with
  | nil => cases h
  | cons z rest =>
    cases h
    have hm := leastOf_mem z rest
    exact ⟨hm, rfl, List.perm_cons_erase hm, not_before_leastOf z rest⟩

/-- Only the empty queue has nothing to pop. -/
theorem pop_eq_none {q : List (Nat × Nat)} : pop q = none ↔ q = [] := by
  cases q <;> simp [pop]

end Sys2Proof.Machine
end

