-- ==== Sys2Proof/Laws/Step.lean ====
section
/-! SUPPORT. Everything one step can do, said once: idle, a host read, a data write, a command, an illegal command
word, a hard reset. A proof about every step cites `step_cases` and unfolds neither `step` nor `hostMove`. -/

namespace Sys2Proof.Machine

/-- A command word executes the command it decodes to, or raises `IllegalCommandError`. -/
theorem issue_cases (c : Word) (s : State) :
    (∃ i, decode c = .ok i ∧ issue c s = exec i s) ∨
      ((∃ x, decode c = .error x) ∧ issue c s = .next (s.raise .illegalCommand c)) := by
  unfold issue
  cases h : decode c with
  | ok i => exact .inl ⟨i, rfl, rfl⟩
  | error x => exact .inr ⟨⟨x, rfl⟩, rfl⟩

/-- The inversion of a step that goes on. -/
theorem step_cases {s t : State} (h : step s = .next t) :
    (s.pending = [] ∧ t = s) ∨
    (∃ space index v rest, s.pending = .read space index :: rest ∧ hostRead s.dropMove space index = some v ∧
      t = s.dropMove.returnWord v) ∨
    (∃ space index v rest pl, s.pending = .write space index v :: rest ∧ placeOf s.cfg space index = some pl ∧
      pl ≠ .reg .cmd ∧ t = store s.dropMove.tick v pl) ∨
    (∃ space index c rest i, s.pending = .write space index c :: rest ∧
      placeOf s.cfg space index = some (.reg .cmd) ∧ decode c = .ok i ∧ exec i s.dropMove.tick = .next t) ∨
    (∃ space index c rest x, s.pending = .write space index c :: rest ∧
      placeOf s.cfg space index = some (.reg .cmd) ∧ decode c = .error x ∧
      t = s.dropMove.tick.raise .illegalCommand c) ∨
    (∃ rest, s.pending = .hardReset :: rest ∧ t = s.dropMove.tick.resetBlock) := by
  unfold step nextMove at h
  split at h
  · rename_i hp
    cases h
    exact .inl ⟨hp, rfl⟩
  · rename_i m rest hp
    cases m with
    | hardReset =>
      cases h
      exact .inr (.inr (.inr (.inr (.inr ⟨rest, hp, rfl⟩))))
    | read space index =>
      simp only [hostMove] at h
      split at h
      · rename_i v hv
        cases h
        exact .inr (.inl ⟨space, index, v, rest, hp, hv, rfl⟩)
      · cases h
    | write space index v =>
      simp only [hostMove] at h
      split at h
      · rename_i hpl
        rcases issue_cases v s.dropMove.tick with ⟨i, hd, he⟩ | ⟨⟨x, hd⟩, he⟩
        · exact .inr (.inr (.inr (.inl ⟨space, index, v, rest, i, hp, hpl, hd, he ▸ h⟩)))
        · rw [he] at h
          cases h
          exact .inr (.inr (.inr (.inr (.inl ⟨space, index, v, rest, x, hp, hpl, hd, rfl⟩))))
      · rename_i pl hne hpl
        cases h
        exact .inr (.inr (.inl ⟨space, index, v, rest, pl, hp, hpl, hne, rfl⟩))
      · cases h

/-- A step faults only where a command does. -/
theorem step_fault_cases {s : State} {f : Fault} (h : step s = .fault f) :
    ∃ space index c rest i, s.pending = .write space index c :: rest ∧
      placeOf s.cfg space index = some (.reg .cmd) ∧ decode c = .ok i ∧ exec i s.dropMove.tick = .fault f := by
  unfold step nextMove at h
  split at h
  · cases h
  · rename_i m rest hp
    cases m with
    | hardReset => cases h
    | read space index =>
      simp only [hostMove] at h
      split at h <;> cases h
    | write space index v =>
      simp only [hostMove] at h
      split at h
      · rename_i hpl
        rcases issue_cases v s.dropMove.tick with ⟨i, hd, he⟩ | ⟨_, he⟩
        · exact ⟨space, index, v, rest, i, hp, hpl, hd, he ▸ h⟩
        · rw [he] at h
          cases h
      · cases h
      · cases h

/-- The register map lists `CMD` at index 1 and nowhere else (`20_memory.md` R61). -/
theorem regRows_cmd : ∀ row ∈ regRows, row.2 = .cmd → row.1 = 1 := by decide

/-- `CMD` stands at its one address. -/
theorem placeOf_eq_cmd {p : Params} {space : BitVec 4} {index : Word}
    (h : placeOf p space index = some (.reg .cmd)) : space = 0 ∧ index = 0x01 := by
  unfold placeOf at h
  split at h
  · cases h
  · rename_i hs
    have hsp : space = 0 := by
      revert hs
      revert space
      decide
    refine ⟨hsp, ?_⟩
    simp only [regOf, Option.map_map, Option.map_eq_some_iff, Function.comp, Place.reg.injEq] at h
    obtain ⟨row, hrow, hcmd⟩ := h
    have hidx : row.1 = index.toNat := by simpa using List.find?_some hrow
    have h1 : row.1 = 1 := regRows_cmd row (List.mem_of_find?_eq_some hrow) hcmd
    exact BitVec.eq_of_toNat_eq (by simp [← hidx, h1])
  · rename_i sp _ _
    split at h
    · cases sp <;> simp [bufferPlace] at h
      · split at h <;> cases h
      · split at h <;> cases h
    · cases h

/-- A data write changes at most one `RW` register or one `RW` buffer: the error record, the tree, the result registers, the
parameters and the host's side are as before. -/
theorem store_eq (s : State) (v : Word) (pl : Place) :
    store s v pl = { s with
      arg := (store s v pl).arg, seqlen := (store s v pl).seqlen, nsym := (store s v pl).nsym
      nbits := (store s v pl).nbits, ncells := (store s v pl).ncells, totalbits := (store s v pl).totalbits
      gw := (store s v pl).gw, gh := (store s v pl).gh, seqin := (store s v pl).seqin
      wtW := (store s v pl).wtW, wtS := (store s v pl).wtS, bitbuf := (store s v pl).bitbuf
      cellbuf := (store s v pl).cellbuf, grid := (store s v pl).grid } := by
  cases pl with
  | reg r => cases r <;> rfl
  | _ => rfl

end Sys2Proof.Machine
end

