-- ==== Sys2Proof/Tests/Slice0.lean ====
section
/-! SUPPORT. Our own tests. Section 1: decoding, words written out from `30_encoding.md` R90 and R92. Section 2: each check of
WellFormed refuses an ill-formed term. Section 3: one step each, expected results from `95_test_vectors.md` (the row is named). Section 4:
for every obligation with hypotheses a state and operands that meet them. -/

namespace Sys2Proof.Tests

open Sys2Proof Sys2Proof.Machine Sys2Proof.Safety

/-- The state a step went on to, if it did. -/
def out : Host.Outcome State Fault Refusal → Option State
  | .next t => some t
  | .fault _ => none
  | .refused _ => none

/-- The fault a step stopped with. -/
def faultOf : Host.Outcome State Fault Refusal → Option Fault
  | .next _ => none
  | .fault f => some f
  | .refused _ => none

/-- The refusal a step stopped with. -/
def refusalOf : Host.Outcome State Fault Refusal → Option Refusal
  | .next _ => none
  | .fault _ => none
  | .refused r => some r

/-- Elements standing from index 0 on. -/
def elems {α β : Type} (f : α → β) (vs : List α) : Memory β := vs.zipIdx.map (fun e => (e.2, f e.1))

/-- A state with a sequence loaded. -/
def withSeq (vs : List Nat) (s : State) : State := { s with seqin := elems wordOf vs, seqlen := wordOf vs.length }

/-- A state with a weight table loaded. -/
def withTable (t : List (Nat × Nat)) (s : State) : State :=
  { s with wtW := elems (fun e => wordOf e.1) t, wtS := elems (fun e => wordOf e.2) t, nsym := wordOf t.length }

/-- A state with a stream loaded. -/
def withBits (bs : List Bool) (s : State) : State := { s with bitbuf := elems id bs, nbits := wordOf bs.length }

/-- A state with Cells loaded. -/
def withCells (cs : List Nat) (s : State) : State :=
  { s with cellbuf := elems (BitVec.ofNat 24) cs, ncells := wordOf cs.length }

/-- The nodes of V-B1, the tree of `[(2,'a'), (1,'b')]`: Codes a = "1", b = "0". -/
def nodesAB : List Node := [.leaf 2 0x61, .leaf 1 0x62, .internal 3 1 0]

/-- The one-leaf tree of V-B4, `[(5,'a')]`. -/
def nodesA : List Node := [.leaf 5 0x61]

/-- A state with a tree. -/
def withTree (ns : List Node) (s : State) : State :=
  { s with tv := true, node := elems id ns, root := wordOf (ns.length - 1), nnodes := wordOf ns.length }

/-- The state with the tree of V-B1. -/
def treeAB : State := withTree nodesAB State.reset

/-- The state with the tree of V-B4. -/
def treeA : State := withTree nodesA State.reset

/-- The state with one host move pending. -/
def pend (m : HostMove) (s : State) : State := { s with pending := [m] }

/-! ## 1. Decoding -/

/-- R92: "The full command words are `0x00000000` to `0x0000000A` and `0x0000000F`", bit by bit. -/
theorem test_decode_words :
    decode 0b00000000000000000000000000000000 = .ok .nop ∧
    decode 0b00000000000000000000000000000001 = .ok .count ∧
    decode 0b00000000000000000000000000000010 = .ok .build ∧
    decode 0b00000000000000000000000000000011 = .ok .encsym ∧
    decode 0b00000000000000000000000000000100 = .ok .encode ∧
    decode 0b00000000000000000000000000000101 = .ok .decode ∧
    decode 0b00000000000000000000000000000110 = .ok .pack ∧
    decode 0b00000000000000000000000000000111 = .ok .unpack ∧
    decode 0b00000000000000000000000000001000 = .ok .togrid ∧
    decode 0b00000000000000000000000000001001 = .ok .fromgrid ∧
    decode 0b00000000000000000000000000001010 = .ok .trim ∧
    decode 0b00000000000000000000000000001111 = .ok .reset := by decide

/-- V-S1 to V-S4: reserved opcodes, and a low byte of COUNT's under a set bit. -/
theorem test_decode_rejects :
    decode 0x0000000B = .error (.reservedOpcode 0x0000000B) ∧
    decode 0x0000000E = .error (.reservedOpcode 0x0000000E) ∧
    decode 0x00000010 = .error (.reservedOpcode 0x00000010) ∧
    decode 0x000000FF = .error (.reservedOpcode 0x000000FF) ∧
    decode 0x00000101 = .error (.highBits 0x00000101) ∧
    decode 0xFFFFFFFF = .error (.highBits 0xFFFFFFFF) := by decide

/-- The opcode map has no opcode twice. -/
theorem test_opcodes_distinct : (opcodeRows.map (fun row => row.1)).Nodup := by decide

/-- The table word of BUILD, and of a word that is no row of the table. -/
theorem test_decodeTableWord :
    decodeTableWord 32 2 = some .build ∧ decodeTableWord 32 11 = none := by decide

/-! ## 2. Well-formed terms -/

/-- The reference configuration meets R6, and every command is well-formed. -/
theorem test_wf_reference : Params.reference.wf ∧ Instr.wf .fromgrid = true := by decide

theorem test_wf_symW : ¬ ({ Params.reference with symW := 33 } : Params).symWOk := by decide
theorem test_wf_kMax : ¬ ({ Params.reference with kMax := 257 } : Params).kMaxOk := by decide
theorem test_wf_kMax_arena : ¬ ({ Params.reference with symW := 32, kMax := 2 ^ 28 + 1 } : Params).kMaxOk := by decide
theorem test_wf_weightW : ¬ ({ Params.reference with weightW := 16 } : Params).weightWOk := by decide
theorem test_wf_seqMax : ¬ ({ Params.reference with seqMax := 0 } : Params).seqMaxOk := by decide
theorem test_wf_cellsMax : ¬ ({ Params.reference with cellsMax := 178956971 } : Params).cellsMaxOk := by decide

/-- A buffer whose indices do not rise is not in canonical form. -/
theorem test_wf_memory : ¬ Memory.wf [(1, true), (1, false)] ∧ ¬ Memory.wf [(2, true), (1, false)] := by decide

/-! ## 3. One step each -/

/-- V-S5. -/
theorem test_nop :
    (out (exec .nop { State.reset with err := 2, einfo := 5, erracc := 0x004 })).map
      (fun t => (t.err, t.einfo, t.erracc)) = some (0, 0, 0x004) := by decide

/-- V-C2, "baa": the table is in order of first occurrence. -/
theorem test_count_order :
    (out (exec .count (withSeq [0x62, 0x61, 0x61] State.reset))).map (fun t => (t.nsym, t.wtW, t.wtS)) =
      some (2, [(0, 1), (1, 2)], [(0, 0x62), (1, 0x61)]) := by decide

/-- V-C8. -/
theorem test_count_capacity :
    (out (exec .count { State.reset with seqlen := 65537 })).map (fun t => (t.err, t.einfo, t.erracc)) =
      some (7, 1, 0x080) := by decide

/-- V-B8: in round 2 the leaf 2 and node 5 tie at weight 2 and the leaf pops first. -/
theorem test_build_tie :
    (out (exec .build (withTable [(1, 0x61), (1, 0x62), (2, 0x63), (4, 0x64), (8, 0x65)] State.reset))).map
      (fun t => (t.root, t.nnodes, t.tv, t.node.drop 5)) =
      some (8, 9, true, [(5, .internal 2 0 1), (6, .internal 4 2 5), (7, .internal 8 3 6), (8, .internal 16 4 7)]) := by
  decide

/-- V-B26: the lowest offending index is reported, here a repeated Symbol at 2 before a zero weight at 3. -/
theorem test_build_repeat :
    (out (exec .build (withTable [(1, 0x61), (2, 0x62), (1, 0x61), (0, 0x63)] State.reset))).map
      (fun t => (t.err, t.einfo, t.tv)) = some (6, 0x80000002, false) := by decide

/-- V-B1 with `ENCSYM 'a'`: the Code "1". -/
theorem test_encsym :
    (out (exec .encsym { treeAB with arg := 0x61 })).map (fun t => (t.codelen, t.codebuf)) =
      some (1, [(0, true)]) := by decide

/-- S3, `ENCSYM 'z'`. -/
theorem test_encsym_unknown :
    (out (exec .encsym { treeAB with arg := 0x7A })).map (fun t => (t.err, t.einfo, t.codelen)) =
      some (2, 0, 0) := by decide

/-- V-E11, "aab" gives "110" (`90_conflicts.md` C1). -/
theorem test_encode :
    (out (exec .encode (withSeq [0x61, 0x61, 0x62] treeAB))).map (fun t => (t.nbits, t.bitbuf)) =
      some (3, [(0, true), (1, true), (2, false)]) := by decide

/-- V-E9's shape: the least index of an unknown Symbol. -/
theorem test_encode_unknown :
    (out (exec .encode (withSeq [0x61, 0x62, 0x7A, 0x61, 0x7A] treeAB))).map (fun t => (t.err, t.einfo, t.nbits)) =
      some (2, 2, 0) := by decide

/-- S1: "110" decodes to "aab". -/
theorem test_decode :
    (out (exec .decode (withBits [true, true, false] treeAB))).map (fun t => (t.outlen, t.symout)) =
      some (3, [(0, 0x61), (1, 0x61), (2, 0x62)]) := by decide

/-- V-D24: with a one-leaf tree a bit 1 is malformed at its index. -/
theorem test_decode_one_leaf :
    (out (exec .decode (withBits [false, false, true] treeA))).map (fun t => (t.err, t.einfo, t.outlen)) =
      some (4, 2, 0) := by decide

/-- V-P8, 24 ones and "10": the short last chunk stands in the low bits. -/
theorem test_pack :
    (out (exec .pack (withBits (List.replicate 24 true ++ [true, false]) State.reset))).map
      (fun t => (t.ncells, t.totalbits, t.cellbuf)) = some (2, 26, [(0, 0xFFFFFF), (1, 0x000002)]) := by decide

/-- V-P13. -/
theorem test_pack_capacity :
    (out (exec .pack { State.reset with nbits := 1572865 })).map (fun t => (t.err, t.einfo)) = some (7, 4) := by decide

/-- V-P22: padding bits that are not zero are ignored. -/
theorem test_unpack_padding :
    (out (exec .unpack { withCells [0xFFFFFE] State.reset with totalbits := 3 })).map (fun t => (t.nbits, t.bitbuf)) =
      some (3, [(0, true), (1, true), (2, false)]) := by decide

/-- V-P25: a remainder of 0 is inconsistent. -/
theorem test_unpack_framing :
    (out (exec .unpack { withCells [6, 6] State.reset with totalbits := 24 })).map (fun t => (t.err, t.einfo)) =
      some (5, 1) := by decide

/-- V-P40. -/
theorem test_trim :
    (out (exec .trim { State.reset with ncells := 4, totalbits := 49 })).map (fun t => (t.ncells, t.err)) =
      some (3, 0) := by decide

/-- V-P47. -/
theorem test_trim_framing :
    (out (exec .trim { State.reset with ncells := 4, totalbits := 0xFFFFFFFF })).map (fun t => (t.err, t.einfo)) =
      some (5, 0x0AAAAAAB) := by decide

/-- V-G5. -/
theorem test_togrid :
    (out (exec .togrid (withCells [1, 2, 3, 4, 5] State.reset))).map (fun t => (t.gw, t.gh, t.grid)) =
      some (3, 2, [(0, 1), (1, 2), (2, 3), (3, 4), (4, 5), (5, 0xFFFFFF)]) := by decide

/-- V-G1. -/
theorem test_togrid_empty :
    (out (exec .togrid { State.reset with gw := 9, gh := 9 })).map (fun t => (t.gw, t.gh, t.grid)) =
      some (0, 0, []) := by decide

/-- V-G11: a data Cell equal to the marker is copied like any other, and `PADIDX` is its position. -/
theorem test_fromgrid :
    (out (exec .fromgrid { State.reset with gw := 2, gh := 2, grid := elems (BitVec.ofNat 24) [0xFFFFFF, 0, 1, 0xFFFFFF] })).map
      (fun t => (t.ncells, t.padidx, t.cellbuf)) =
      some (4, 0, [(0, 0xFFFFFF), (1, 0), (2, 1), (3, 0xFFFFFF)]) := by decide

/-- V-G16: the product 2^32 is not wrapped to 0. -/
theorem test_fromgrid_product :
    (out (exec .fromgrid { State.reset with gw := 65536, gh := 65536 })).map (fun t => (t.err, t.einfo)) =
      some (7, 6) := by decide

/-- V-S6. -/
theorem test_reset :
    (out (exec .reset { treeAB with nbits := 46, erracc := 0x14A })).map
      (fun t => (t.tv, t.nbits, t.root, t.nnodes, t.erracc, t.node.length)) =
      some (false, 0, 0xFFFFFFFF, 0, 0, 0) := by decide

/-- V-S2, V-S13, V-S11: an illegal word, a write to the read-only arena, a narrowed write. -/
theorem test_host_writes :
    (out (step (pend (.write 0 1 0x101) State.reset))).map (fun t => (t.err, t.einfo, t.erracc)) = some (8, 0x101, 0x100) ∧
    (out (step (pend (.write 3 0 99) treeAB))).map (fun t => (t.node, t.err)) = some (treeAB.node, 0) ∧
    (out (step (pend (.write 1 0 0x161) State.reset))).map (fun t => t.seqin) = some [(0, 0x61)] := by decide

/-- V-S7, V-S9, and the arena words of V-B1: node 2 is `3, 0, 1, 0`. -/
theorem test_host_views :
    viewAt State.reset (.reg .id) = wholeView 0x49444801 ∧ viewAt State.reset (.reg .cmd) = wholeView 0 ∧
    placeOf Params.reference 3 10 = some (.nodeLeft 2) ∧
    viewAt treeAB (.nodeWeight 2) = wholeView 3 ∧ viewAt treeAB (.nodeSymbol 2) = wholeView 0 ∧
    viewAt treeAB (.nodeLeft 2) = wholeView 1 ∧ viewAt treeAB (.nodeRight 2) = wholeView 0 ∧
    viewAt treeAB (.nodeLeft 1) = wholeView 0xFFFFFFFF := by decide

/-- V-E11: `BITBUF[0] => 0xC0000000 (mask 0xE0000000)`. -/
theorem test_bit_view :
    viewAt (withBits [true, true, false] State.reset) (.bitWord 0) = { value := 0xC0000000, defined := 0xE0000000 } := by
  decide

/-- R50: COUNT faults at the element nothing has written. -/
theorem test_unwritten :
    faultOf (exec .count { withSeq [0x61] State.reset with seqlen := 4 }) = some (.unwrittenElement .seqin 1) := by decide

/-- R188, rows 10, 17, 26 and 4033. -/
theorem test_dims :
    [10, 17, 26, 4033].map (fun n => (gridWidth n, gridHeight n)) = [(4, 3), (5, 4), (6, 5), (64, 64)] := by decide

/-- The very next step after `withFetchWord` runs the command (log entry 2): COUNT of nothing. -/
theorem test_withFetchWord :
    (out (step (State.reset.withFetchWord 32 1))).map (fun t => (t.err, t.nsym, t.pending)) = some (0, 0, []) := by decide

/-! ## 4. The hypotheses of the obligations can be met -/

/-- A step that goes on to a state with a property. -/
theorem exists_next {o : Host.Outcome State Fault Refusal} {p : State → Prop} [DecidablePred p]
    (h : (out o).any (fun t => decide (p t)) = true) : ∃ t, o = .next t ∧ p t := by
  cases o with
  | next t => exact ⟨t, rfl, by simpa [out] using h⟩
  | fault f => simp [out] at h
  | refused r => simp [out] at h

/-- The table of V-B1 loaded. -/
def tableAB : State := withTable [(2, 0x61), (1, 0x62)] State.reset

/-- The state with the tree of V-B1 and the sequence "aab" loaded. -/
def seqAAB : State := withSeq [0x61, 0x61, 0x62] treeAB

theorem test_witness_StepRunsTheDecodedCommand :
    Commands (pend (.write 0 1 2) State.reset) 2 [] ∧ decode 2 = .ok .build ∧ Instr.wf .build = true := by decide

/-- One word for each clause, at its ends. -/
theorem test_witness_IllegalWordsRaise :
    (∀ c ∈ [0x00000100, 0xFFFFFFFF, 0x0B, 0x0E, 0x10, 0xFF], Commands (pend (.write 0 1 (wordOf c)) State.reset) (wordOf c) []) ∧
    0x00000100 / 256 ≠ 0 ∧ 0xFFFFFFFF / 256 ≠ 0 ∧ (0x0B ≤ 0x0B % 256 ∧ 0x0E % 256 ≤ 0x0E) ∧
    0x10 ≤ 0x10 % 256 ∧ 0x10 ≤ 0xFF % 256 := by decide

theorem test_witness_ResetsLeaveTheResetState :
    (pend .hardReset treeAB).pending = .hardReset :: [] ∧ ¬ Resets (pend (.write 0 1 0) treeAB) ∧
    ∃ t, step (pend (.write 0 1 0) treeAB) = .next t ∧ t.tv = true := by
  refine ⟨by decide, ?_, exists_next (by decide)⟩
  rintro (⟨rest, h⟩ | ⟨rest, h⟩) <;> simp [pend, Commands] at h

theorem test_witness_FailedCommandWritesOnlyTheErrorRecord :
    ∃ t, exec .decode State.reset = .next t ∧ t.err ≠ 0 := exists_next (by decide)

theorem test_witness_SuccessfulCommandClearsErr :
    ∃ t, exec .count { State.reset with err := 3, einfo := 7 } = .next t ∧ t.err = 0 := exists_next (by decide)

/-- Every row of the table of errors is met by some state. -/
theorem test_witness_CommandsRaiseOnlyTheirErrors :
    (∃ t, exec .count { State.reset with seqlen := 65537 } = .next t ∧ t.err ≠ 0) ∧
    (∃ t, exec .build State.reset = .next t ∧ t.err ≠ 0) ∧
    (∃ t, exec .encsym State.reset = .next t ∧ t.err ≠ 0) ∧
    (∃ t, exec .encode State.reset = .next t ∧ t.err ≠ 0) ∧
    (∃ t, exec .decode State.reset = .next t ∧ t.err ≠ 0) ∧
    (∃ t, exec .pack { State.reset with nbits := 1572865 } = .next t ∧ t.err ≠ 0) ∧
    (∃ t, exec .unpack { State.reset with ncells := 1 } = .next t ∧ t.err ≠ 0) ∧
    (∃ t, exec .trim { State.reset with totalbits := 1 } = .next t ∧ t.err ≠ 0) ∧
    (∃ t, exec .togrid { State.reset with ncells := 65537 } = .next t ∧ t.err ≠ 0) ∧
    (∃ t, exec .fromgrid { State.reset with gw := 257, gh := 256 } = .next t ∧ t.err ≠ 0) :=
  ⟨exists_next (by decide), exists_next (by decide), exists_next (by decide), exists_next (by decide),
    exists_next (by decide), exists_next (by decide), exists_next (by decide), exists_next (by decide),
    exists_next (by decide), exists_next (by decide)⟩

theorem test_witness_ErrAccAccumulates :
    (∃ t, step (pend (.write 0 1 3) { State.reset with erracc := 0x004 }) = .next t ∧ t.err ≠ 0) ∧
    ¬ Resets (pend (.write 0 1 3) { State.reset with erracc := 0x004 }) ∧
    Commands (pend (.write 0 1 3) { State.reset with erracc := 0x004 }) 3 [] :=
  ⟨exists_next (by decide), by simp [Resets, Commands, pend], by decide⟩

/-- One state for each clause. -/
theorem test_witness_UnwrittenElementsFault :
    (let s := { withSeq [0x61] State.reset with seqlen := 2 }
     s.seqlen.toNat ≤ s.cfg.seqMax ∧ 1 < s.seqlen.toNat ∧ (∀ i < 1, (s.seqin.read i).isSome = true) ∧ s.seqin.read 1 = none) ∧
    (let s := { withBits [true] treeAB with nbits := 2 }
     s.nbits.toNat ≤ bitsMax s.cfg ∧ 1 < s.nbits.toNat ∧ (∀ i < 1, (s.bitbuf.read i).isSome = true) ∧
       s.bitbuf.read 1 = none ∧ s.tv = true) ∧
    (let s := { withCells [6] State.reset with ncells := 2, totalbits := 25 }
     s.ncells.toNat ≤ s.cfg.cellsMax ∧ 1 < s.ncells.toNat ∧ (∀ i < 1, (s.cellbuf.read i).isSome = true) ∧
       s.cellbuf.read 1 = none ∧ s.ncells.toNat = cdiv s.totalbits.toNat 24) ∧
    (let s := { State.reset with gw := 2, gh := 1, grid := [(0, 6)] }
     s.gw.toNat * s.gh.toNat ≤ s.cfg.cellsMax ∧ 1 < s.gw.toNat * s.gh.toNat ∧
       (∀ i < 1, (s.grid.read i).isSome = true) ∧ s.grid.read 1 = none) := by decide

/-- ENCODE's clause: the second Symbol is not written. -/
theorem test_witness_UnwrittenElementsFault_encode :
    let s : State := { withSeq [0x61] treeAB with seqlen := 2 }
    TreeInv s ∧ s.tv = true ∧ s.seqlen.toNat ≤ s.cfg.seqMax ∧ 1 < s.seqlen.toNat ∧
    (∀ i < 1, ∃ v, s.seqin.read i = some v ∧ HasLeaf (treeOf s) (leafCount s) v) ∧ s.seqin.read 1 = none := by
  refine ⟨by decide, by decide, by decide, by decide, fun i hi => ?_, by decide⟩
  obtain rfl : i = 0 := by omega
  exact ⟨0x61, by decide, 0, by decide, 2, by decide⟩

/-- A table of which only the first weights and Symbols are written. -/
def partTable (ws ss : List Nat) (n : Nat) : State :=
  { State.reset with wtW := elems wordOf ws, wtS := elems wordOf ss, nsym := wordOf n }

/-- BUILD's clauses: the weight of the second entry, its Symbol, and the Symbol of the first entry of one and of two. -/
theorem test_witness_UnwrittenElementsFault_build :
    (∀ i < 1, EntryGood (partTable [2] [0x61] 2) i) ∧ (partTable [2] [0x61] 2).wtW.read 1 = none ∧
    (∀ i < 1, EntryGood (partTable [2, 1] [0x61] 2) i) ∧ (partTable [2, 1] [0x61] 2).wtW.read 1 = some 1 ∧
    (partTable [2, 1] [0x61] 2).wtS.read 1 = none ∧
    (let s := partTable [2] [] 1
     s.nsym = 1 ∧ s.wtW.read 0 = some 2 ∧ (2 : Weight).toNat < 2 ^ s.cfg.weightW ∧ s.wtS.read 0 = none) ∧
    (let s := partTable [2, 1] [] 2
     s.wtW.read 0 = some 2 ∧ s.wtS.read 0 = none ∧ 1 < s.nsym.toNat ∧ s.wtW.read 1 = some 1) := by
  have h : ∀ s : State, s.wtW.read 0 = some 2 → s.wtS.read 0 = some 0x61 → ∀ i < 1, EntryGood s i := by
    intro s h1 h2 i hi
    obtain rfl : i = 0 := by omega
    exact ⟨⟨2, h1, by decide⟩, 0x61, h2, fun j hj => absurd hj (by omega)⟩
  exact ⟨h _ (by decide) (by decide), by decide, h _ (by decide) (by decide), by decide, by decide, by decide, by decide⟩

/-- BUILD and ENCODE fault at the elements of these states. -/
theorem test_unwritten_build_encode :
    faultOf (exec .build (partTable [2] [0x61] 2)) = some (.unwrittenElement .wt 1) ∧
    faultOf (exec .build (partTable [2, 1] [0x61] 2)) = some (.unwrittenElement .wt 1) ∧
    faultOf (exec .build (partTable [2] [] 1)) = some (.unwrittenElement .wt 0) ∧
    faultOf (exec .build (partTable [2, 1] [] 2)) = some (.unwrittenElement .wt 0) ∧
    faultOf (exec .encode { withSeq [0x61] treeAB with seqlen := 2 }) = some (.unwrittenElement .seqin 1) := by
  decide

theorem test_witness_OnlyBuildAndResetChangeTheTree :
    (∃ t, step (pend (.write 0 1 2) tableAB) = .next t ∧
      ¬ (t.node = tableAB.node ∧ t.root = tableAB.root ∧ t.nnodes = tableAB.nnodes ∧ t.tv = tableAB.tv)) ∧
    (∃ t, step (pend .hardReset treeAB) = .next t ∧
      ¬ (t.node = treeAB.node ∧ t.root = treeAB.root ∧ t.nnodes = treeAB.nnodes ∧ t.tv = treeAB.tv)) :=
  ⟨exists_next (by decide), exists_next (by decide)⟩

theorem test_witness_ConfigurationIsConstant : ∃ t, step (pend .hardReset treeAB) = .next t ∧ t.tv = false :=
  exists_next (by decide)

/-- Each command of the four frames goes on from some state, with success. -/
theorem test_witness_Frames :
    State.reset.cfg.wf ∧
    (∃ t, exec .count seqAAB = .next t ∧ t.err = 0) ∧ (∃ t, exec .build tableAB = .next t ∧ t.err = 0) ∧
    (∃ t, exec .encsym { treeAB with arg := 0x61 } = .next t ∧ t.err = 0) ∧
    (∃ t, exec .encode seqAAB = .next t ∧ t.err = 0) ∧
    (∃ t, exec .decode (withBits [true, false] treeAB) = .next t ∧ t.err = 0) ∧
    (∃ t, exec .pack (withBits [true, false] treeAB) = .next t ∧ t.err = 0) ∧
    (∃ t, exec .unpack { withCells [6] State.reset with totalbits := 3 } = .next t ∧ t.err = 0) ∧
    (∃ t, exec .trim { State.reset with ncells := 4, totalbits := 96 } = .next t ∧ t.err = 0) ∧
    (∃ t, exec .togrid (withCells [1, 2, 3] State.reset) = .next t ∧ t.err = 0) ∧
    (∃ t, exec .fromgrid { State.reset with gw := 1, gh := 1, grid := [(0, 6)] } = .next t ∧ t.err = 0) :=
  ⟨by decide, exists_next (by decide), exists_next (by decide), exists_next (by decide), exists_next (by decide),
    exists_next (by decide), exists_next (by decide), exists_next (by decide), exists_next (by decide),
    exists_next (by decide), exists_next (by decide)⟩

theorem test_witness_CountFillsTheFrequencyTable :
    ([0x61, 0x61, 0x62] : List Symbol).length = seqAAB.seqlen.toNat ∧ Holds seqAAB.seqin [0x61, 0x61, 0x62] ∧
    seqAAB.seqlen.toNat ≤ seqAAB.cfg.seqMax ∧ ([0x61, 0x61, 0x62] : List Symbol).dedup.length ≤ seqAAB.cfg.kMax := by
  decide

/-- The second clause in a block of two Symbols. -/
theorem test_witness_CountErrors :
    (65536 : Nat) < ({ State.reset with seqlen := 65537 } : State).seqlen.toNat ∧
    (let s := withSeq [1, 2, 3] { State.reset with cfg := { Params.reference with kMax := 2 } }
     ([1, 2, 3] : List Symbol).length = s.seqlen.toNat ∧ Holds s.seqin [1, 2, 3] ∧
       s.seqlen.toNat ≤ s.cfg.seqMax ∧ s.cfg.kMax < ([1, 2, 3] : List Symbol).dedup.length) := by decide

theorem test_witness_CountedTableBuilds :
    seqAAB.cfg.wf ∧ ∃ t, exec .count seqAAB = .next t ∧ (t.err = 0 ∧ t.nsym ≠ 0) :=
  ⟨by decide, exists_next (by decide)⟩

theorem test_witness_BuildMakesATreeOfTheTable :
    tableAB.cfg.wf ∧ tableAB.nsym ≠ 0 ∧ tableAB.nsym.toNat ≤ tableAB.cfg.kMax ∧
    ([2, 1] : List Weight).length = tableAB.nsym.toNat ∧ ([0x61, 0x62] : List Symbol).length = tableAB.nsym.toNat ∧
    Holds tableAB.wtW [2, 1] ∧ Holds tableAB.wtS [0x61, 0x62] ∧ (∀ w ∈ ([2, 1] : List Weight), w ≠ 0) ∧
    ([0x61, 0x62] : List Symbol).Nodup ∧ weightSum [2, 1] < 2 ^ tableAB.cfg.weightW :=
  ⟨by decide, by decide, by decide, by decide, by decide, by decide, by decide, by simp, by decide, by decide⟩

theorem test_witness_BuildCombinesTheTwoLeast :
    tableAB.cfg.wf ∧ (∃ t, exec .build tableAB = .next t ∧ t.err = 0) ∧
    tableAB.nsym.toNat ≤ 2 ∧ 2 < 2 * tableAB.nsym.toNat - 1 :=
  ⟨by decide, exists_next (by decide), by decide⟩

/-- One table for each clause: V-B20, V-B21, V-B25, V-B26, V-B27. -/
theorem test_witness_BuildChecksTheTable :
    State.reset.nsym = 0 ∧ ({ State.reset with nsym := 257 } : State).cfg.kMax < ({ State.reset with nsym := 257 } : State).nsym.toNat ∧
    (let s := withTable [(1, 0x61), (2, 0x62), (0, 0x63), (1, 0x61)] State.reset
     Holds s.wtW [1, 2, 0, 1] ∧ Holds s.wtS [0x61, 0x62, 0x63, 0x61] ∧ 2 < s.nsym.toNat ∧
       (∀ j < 2, ([1, 2, 0, 1] : List Weight)[j]? ≠ some 0) ∧ (([0x61, 0x62, 0x63, 0x61] : List Symbol).take 2).Nodup ∧
       ([1, 2, 0, 1] : List Weight)[2]? = some 0) ∧
    (let s := withTable [(1, 0x61), (2, 0x62), (1, 0x61), (0, 0x63)] State.reset
     Holds s.wtW [1, 2, 1, 0] ∧ Holds s.wtS [0x61, 0x62, 0x61, 0x63] ∧ 2 < s.nsym.toNat ∧
       (∀ j < 2, ([1, 2, 1, 0] : List Weight)[j]? ≠ some 0) ∧ (([0x61, 0x62, 0x61, 0x63] : List Symbol).take 2).Nodup ∧
       ([1, 2, 1, 0] : List Weight)[2]? ≠ some 0 ∧
       ∃ j < 2, ([0x61, 0x62, 0x61, 0x63] : List Symbol)[j]? = ([0x61, 0x62, 0x61, 0x63] : List Symbol)[2]?) ∧
    (let s := withTable [(0xFFFFFFFF, 0x61), (1, 0x62)] State.reset
     Holds s.wtW [0xFFFFFFFF, 1] ∧ Holds s.wtS [0x61, 0x62] ∧ s.nsym ≠ 0 ∧ s.nsym.toNat ≤ s.cfg.kMax ∧
       (∀ w ∈ ([0xFFFFFFFF, 1] : List Weight), w ≠ 0) ∧ ([0x61, 0x62] : List Symbol).Nodup ∧
       2 ^ s.cfg.weightW ≤ weightSum [0xFFFFFFFF, 1]) :=
  ⟨by decide, by decide, by decide, by decide, by decide, by decide, by decide, by decide, by simp, by decide, by decide⟩

/-- Trees of one leaf and of two, for the statements about trees. -/
theorem test_witness_Trees :
    TreeOk Params.reference nodesAB 2 ∧ TreeOk Params.reference nodesA 1 ∧
    nodesAB[2]? = some (.internal 3 1 0) ∧
    codeOf nodesAB (2 * 2 - 2) 2 0 = some [true] ∧ codeOf nodesAB (2 * 2 - 2) 2 1 = some [false] ∧
    pathOf nodesAB (2 * 2 - 2) 2 = some [] ∧
    (∃ i < 2, ∃ w ∈ ([2, 1] : List Weight), nodesAB[i]? = some (.leaf w 0x61)) :=
  ⟨by decide, by decide, by decide, by decide, by decide, by decide, 0, by decide, 2, by simp, rfl⟩

theorem test_witness_DecodingUndoesEncoding :
    TreeOk Params.reference nodesAB 2 ∧ ∀ v ∈ ([0x61, 0x62] : List Symbol), HasLeaf nodesAB 2 v := by
  refine ⟨by decide, fun v hv => ?_⟩
  rcases List.mem_cons.1 hv with rfl | hv
  · exact ⟨0, by decide, 2, rfl⟩
  · rw [List.mem_singleton.1 hv]
    exact ⟨1, by decide, 1, rfl⟩

theorem test_witness_EncsymGivesTheCode :
    let s : State := { treeAB with arg := 0x61 }
    s.cfg.wf ∧ TreeInv s ∧ s.tv = true ∧ 0 < leafCount s ∧ s.node.read 0 = some (.leaf 2 s.arg) := by decide

theorem test_witness_EncsymErrors :
    State.reset.tv = false ∧ TreeInv { treeAB with arg := 0x7A } ∧
    ¬ HasLeaf (treeOf { treeAB with arg := 0x7A }) (leafCount { treeAB with arg := 0x7A }) 0x7A := by
  refine ⟨by decide, by decide, ?_⟩
  rintro ⟨i, hi, w, h⟩
  have h2 : i < 2 := hi
  interval_cases i <;> simp [treeOf, treeAB, withTree, nodesAB, elems, State.reset, Memory.read, wordOf, List.range,
    List.range.loop] at h

theorem test_witness_EncodeConcatenatesTheCodes :
    seqAAB.cfg.wf ∧ TreeInv seqAAB ∧ seqAAB.tv = true ∧
    Holds seqAAB.seqin [0x61, 0x61, 0x62] ∧ seqAAB.seqlen.toNat = 3 ∧
    seqAAB.node.read 0 = some (.leaf 2 0x61) ∧ seqAAB.node.read 1 = some (.leaf 1 0x62) ∧
    codeOf (treeOf seqAAB) (2 * leafCount seqAAB - 2) (leafCount seqAAB) 0 = some [true] ∧
    codeOf (treeOf seqAAB) (2 * leafCount seqAAB - 2) (leafCount seqAAB) 1 = some [false] ∧
    ([[true], [true], [false]] : List (List Bool)).flatten.length ≤ bitsMax seqAAB.cfg := by decide

/-- The last clause in a block with one Cell: 25 Symbols of one bit each. -/
theorem test_witness_EncodeErrors :
    ({ treeAB with seqlen := 65537 } : State).cfg.seqMax < ({ treeAB with seqlen := 65537 } : State).seqlen.toNat ∧
    (let s := withSeq [0x61, 0x7A, 0x61] treeAB
     TreeInv s ∧ s.tv = true ∧ s.seqlen.toNat ≤ s.cfg.seqMax ∧ 1 < s.seqlen.toNat ∧ Holds s.seqin ([0x61] ++ [0x7A]) ∧
       leafOf (treeOf s) (leafCount s) 0x61 = some 0 ∧ leafOf (treeOf s) (leafCount s) 0x7A = none) ∧
    (let s := withSeq (List.replicate 25 0x61) { treeAB with cfg := { Params.reference with cellsMax := 1 } }
     TreeInv s ∧ s.tv = true ∧ s.seqlen.toNat ≤ s.cfg.seqMax ∧ Holds s.seqin (List.replicate 25 0x61) ∧
       encodeFn (treeOf s) (2 * leafCount s - 2) (leafCount s) (List.replicate 25 0x61) = some (List.replicate 25 true) ∧
       bitsMax s.cfg < (List.replicate 25 true).length) :=
  ⟨by decide, by decide, by decide +kernel⟩

theorem test_witness_DecodeGivesTheSequence :
    let s := withBits [true, true, false] treeAB
    s.cfg.wf ∧ TreeInv s ∧ s.tv = true ∧ ([true, true, false] : List Bool).length = s.nbits.toNat ∧
    Holds s.bitbuf [true, true, false] ∧ s.nbits.toNat ≤ bitsMax s.cfg ∧
    encodeFn (treeOf s) (2 * leafCount s - 2) (leafCount s) [0x61, 0x61, 0x62] = some [true, true, false] := by decide

/-- The last clause in a block that takes one decoded Symbol. -/
theorem test_witness_DecodeErrors :
    bitsMax State.reset.cfg < ({ treeA with nbits := 1572865 } : State).nbits.toNat ∧
    (let s := withBits [false, true] treeA
     TreeInv s ∧ s.tv = true ∧ Holds s.bitbuf [false, true] ∧ s.nbits.toNat ≤ bitsMax s.cfg ∧
       decodeFn (treeOf s) (2 * leafCount s - 2) (leafCount s) [false, true] = .malformed 1) ∧
    (let s := withBits [false, false] { treeA with cfg := { Params.reference with seqMax := 1 } }
     TreeInv s ∧ s.tv = true ∧ Holds s.bitbuf [false, false] ∧ s.nbits.toNat ≤ bitsMax s.cfg ∧
       decodeFn (treeOf s) (2 * leafCount s - 2) (leafCount s) [false, false] = .ok [0x61, 0x61] ∧
       s.cfg.seqMax < ([0x61, 0x61] : List Symbol).length) :=
  ⟨by decide, by decide, by decide⟩

/-- A stream with a full chunk and a short one. -/
theorem test_witness_PackPlacesTheStreamBits :
    let bits := List.replicate 24 true ++ [true]
    let s := withBits bits State.reset
    bits.length = s.nbits.toNat ∧ Holds s.bitbuf bits ∧ s.nbits.toNat ≤ bitsMax s.cfg := by decide

theorem test_witness_UnpackReadsTheStreamBits :
    let s := { withCells [0xFFFFFF, 1] State.reset with totalbits := 25 }
    ([0xFFFFFF, 1] : List Cell).length = s.ncells.toNat ∧ Holds s.cellbuf [0xFFFFFF, 1] ∧
    s.ncells.toNat ≤ s.cfg.cellsMax ∧ s.ncells.toNat = cdiv s.totalbits.toNat 24 := by decide

/-- The three clauses of TRIM, at their ends. -/
theorem test_witness_TrimSetsTheCellCount :
    State.reset.cfg.cellsMax < ({ State.reset with ncells := 65537 } : State).ncells.toNat ∧
    (4 < cdiv 97 24 ∧ cdiv 96 24 ≤ 4) := by decide

theorem test_witness_GridDimensions : 1 ≤ 65536 ∧ 65536 ≤ Params.reference.cellsMax := by decide

theorem test_witness_TogridPlacesTheCells :
    let s := withCells [1, 2, 3] State.reset
    ([1, 2, 3] : List Cell).length = s.ncells.toNat ∧ Holds s.cellbuf [1, 2, 3] ∧ s.ncells.toNat ≤ s.cfg.cellsMax := by
  decide

theorem test_witness_FromgridCopiesTheGrid :
    let s : State := { State.reset with gw := 5, gh := 1, grid := elems (BitVec.ofNat 24) [1, 2, 3, 0xFFFFFF, 5] }
    ([1, 2, 3, 0xFFFFFF, 5] : List Cell).length = s.gw.toNat * s.gh.toNat ∧ Holds s.grid [1, 2, 3, 0xFFFFFF, 5] ∧
    s.cfg.wf ∧ s.gw.toNat * s.gh.toNat ≤ s.cfg.cellsMax := by decide

theorem test_witness_PackerAndGridErrors :
    bitsMax State.reset.cfg < (1572865 : Word).toNat ∧ State.reset.cfg.cellsMax < (65537 : Word).toNat ∧
    (1 ≤ State.reset.cfg.cellsMax ∧ 1 ≠ cdiv 25 24) ∧
    State.reset.cfg.cellsMax < (257 : Word).toNat * (256 : Word).toNat := by decide

theorem test_witness_GridRoundTrip :
    let s := { withCells [1, 2, 3] State.reset with totalbits := 49 }
    s.cfg.wf ∧ ([1, 2, 3] : List Cell).length = s.ncells.toNat ∧ Holds s.cellbuf [1, 2, 3] ∧
    s.ncells.toNat ≤ s.cfg.cellsMax ∧ gridWidth 3 * gridHeight 3 ≤ s.cfg.cellsMax ∧
    cdiv s.totalbits.toNat 24 = 3 := by decide

/-- Both data flows, in a block of five Cells, which is no square: "aab" and its table give the tree of V-B1, its three bits
fit, and so does the Grid of their one Cell. -/
theorem test_witness_RoundTrips :
    let s : State := { withSeq [0x61, 0x61, 0x62] State.reset with cfg := { Params.reference with cellsMax := 5 } }
    s.cfg.wf ∧ ([0x61, 0x61, 0x62] : List Symbol) ≠ [] ∧ Holds s.seqin [0x61, 0x61, 0x62] ∧
    s.seqlen.toNat = 3 ∧ 3 ≤ s.cfg.seqMax ∧ ([0x61, 0x61, 0x62] : List Symbol).dedup.length ≤ s.cfg.kMax ∧
    encodeFn nodesAB 2 2 [0x61, 0x61, 0x62] = some [true, true, false] ∧ 3 ≤ bitsMax s.cfg ∧
    gridWidth (cdiv 3 24) * gridHeight (cdiv 3 24) ≤ s.cfg.cellsMax := by decide

theorem test_witness_HostReadChangesNothing :
    (pend (.read 0 1) treeAB).pending = .read 0 1 :: [] ∧ hostRead (pend (.read 0 1) treeAB) 0 1 = some 0 := by
  refine ⟨by decide, ?_⟩
  show some (viewWord (wholeView 0) _) = some 0
  simp [viewWord, wholeView]

/-- A state with something to read in every buffer, the last element of each among it. -/
def viewState : State :=
  { treeAB with
    seqin := [(65535, 1)], wtW := [(255, 3)], wtS := [(255, 4)], codebuf := [(0, true), (254, true)]
    bitbuf := [(0, true), (1572863, true)], cellbuf := [(65535, 5)], grid := [(65535, 6)], symout := [(65535, 7)] }

/-- R40: a leaf and an internal node stand in the arena. -/
theorem test_witness_NodeViews :
    viewState.cfg.wf ∧ 2 < nodeMax viewState.cfg ∧ viewState.node.read 0 = some (.leaf 2 0x61) ∧
    viewState.node.read 2 = some (.internal 3 1 0) := by decide

/-- R42: bit 254 is the last of the 255 bits of `CODEBUF`, and bit 255 of its last word, word 7, lies beyond `CODE_W`. -/
theorem test_witness_BitViews_code :
    7 < codeWords viewState.cfg ∧ viewState.codebuf.read (32 * 7 + 30) = some true ∧
    32 * 7 + 30 < codeW viewState.cfg ∧ codeW viewState.cfg ≤ 32 * 7 + 31 := by decide

/-- R43: the last bit of `BITBUF`, bit 0 of its last word, is written. -/
theorem test_witness_BitViews_stream :
    49151 < bitWords viewState.cfg ∧ viewState.bitbuf.read (32 * 49151 + 31) = some true ∧
    32 * 49151 + 31 < bitsMax viewState.cfg := by decide

/-- R38, R46: the last Symbol of `SEQIN` and of `SYMOUT` is written. -/
theorem test_witness_ElementViews_symbols :
    viewState.seqin.read 65535 = some 1 ∧ viewState.symout.read 65535 = some 7 ∧ 65535 < viewState.cfg.seqMax := by
  decide

/-- R39: both words of the last table entry are written. -/
theorem test_witness_ElementViews_table :
    viewState.wtW.read 255 = some 3 ∧ viewState.wtS.read 255 = some 4 ∧ 255 < viewState.cfg.kMax := by decide

/-- R44, R45: the last Cell of `CELLBUF` and of `GRID` is written. -/
theorem test_witness_ElementViews_cells :
    (viewState.cellbuf.read 65535 = some 5 ∧ 65535 < viewState.cfg.cellsMax) ∧
    viewState.grid.read 65535 = some 6 ∧ 65535 < gridMax viewState.cfg := by decide +kernel

/-- One address for each clause, at its ends. -/
theorem test_witness_UndefinedAddressesAreRefused :
    9 ≤ (9 : BitVec 4).toNat ∧ 9 ≤ (15 : BitVec 4).toNat ∧
    refusalOf (step (pend (.read 0 0x13) State.reset)) = some (.undefinedAddress 0 0x13) ∧
    refusalOf (step (pend (.write 0 0x17 5) State.reset)) = some (.undefinedAddress 0 0x17) ∧
    refusalOf (step (pend (.read 0 0x1D) State.reset)) = some (.undefinedAddress 0 0x1D) ∧
    spaceOf 2 = some .wt ∧ Space.wt ≠ .reg ∧ spaceWords Params.reference .wt ≤ (512 : Word).toNat := by decide

/-- One address for each clause. -/
theorem test_witness_WritesToReadOnlyAreIgnored :
    placeOf Params.reference 0 2 = some (.reg .status) ∧ regAccess .status = .ro ∧
    (2043 : Word).toNat < 4 * nodeMax Params.reference ∧ (7 : Word).toNat < codeWords Params.reference ∧
    (65535 : Word).toNat < Params.reference.seqMax := by decide

theorem test_witness_HostWriteChangesOneElement :
    (∃ t, step (pend (.write 2 0 5) treeAB) = .next t ∧ t.wtW = [(0, 5)]) ∧
    placeOf treeAB.cfg 2 1 = some (.wtSymbol 0) ∧ placeOf treeAB.cfg 5 49151 = some (.bitWord 49151) :=
  ⟨exists_next (by decide), by decide⟩

/-- A write in each space the statement names goes on, at the ends of the register range. -/
theorem test_witness_HostWritesAreNarrowed :
    State.reset.cfg.wf ∧
    (∃ t, step (pend (.write 1 65535 0x161) State.reset) = .next t ∧ t.epoch = 1) ∧
    (∃ t, step (pend (.write 2 510 0x161) State.reset) = .next t ∧ t.epoch = 1) ∧
    (∃ t, step (pend (.write 2 511 0x161) State.reset) = .next t ∧ t.epoch = 1) ∧
    (∃ t, step (pend (.write 6 0 0xAB123456) State.reset) = .next t ∧ t.cellbuf = [(0, 0x123456)]) ∧
    (∃ t, step (pend (.write 7 0 0xAB123456) State.reset) = .next t ∧ t.grid = [(0, 0x123456)]) ∧
    (∃ t, step (pend (.write 0 6 0x1234) State.reset) = .next t ∧ t.arg = 0x34) ∧
    (∃ t, step (pend (.write 0 7 5) State.reset) = .next t ∧ t.seqlen = 5) ∧
    (∃ t, step (pend (.write 0 0x0D 5) State.reset) = .next t ∧ t.gh = 5) ∧
    (∃ t, step (pend (.write 5 0 0x80000001) State.reset) = .next t ∧ t.bitbuf.read 31 = some true) ∧
    32 * 49151 + 31 < bitsMax Params.reference :=
  ⟨by decide, exists_next (by decide), exists_next (by decide), exists_next (by decide), exists_next (by decide),
    exists_next (by decide +kernel), exists_next (by decide +kernel), exists_next (by decide +kernel), exists_next (by decide +kernel),
    exists_next (by decide), by decide⟩

theorem widthsOk_treeAB : WidthsOk treeAB := by
  refine ⟨by decide, by decide, by decide, by decide, by decide, fun e he => ?_, by decide⟩
  have h : e ∈ [(0, Node.leaf 2 0x61), (1, .leaf 1 0x62), (2, .internal 3 1 0)] := he
  fin_cases h <;> refine ⟨by decide, fun v hv => ?_⟩ <;> simp [nodeSymbol] at hv <;> subst hv <;> decide

/-- The invariant holds in a state with a tree, and a step goes on from it. -/
theorem test_witness_Invariants : Inv treeAB ∧ ∃ t, step (pend (.write 0 1 0) treeAB) = .next t ∧ t.tv = true :=
  ⟨⟨by decide, by decide, widthsOk_treeAB, by decide, by decide⟩, exists_next (by decide)⟩

end Sys2Proof.Tests
end

/-! # Proofs of `00_scope.md`: reset, widths and Code lengths -/

section
/-! ## Shared rules: buffers and the end of a command -/

namespace Sys2Proof.Proofs

open Sys2Proof.Machine Sys2Proof.Safety

variable {α : Type} {P : α → Prop} {m : Memory α}

/-- What holds of every element holds of every element after a write of one that meets it. -/
theorem forall_write (hm : ∀ e ∈ m, P e.2) {v : α} (hv : P v) (i : Nat) : ∀ e ∈ m.write i v, P e.2 := by
  intro e he
  rcases Memory.mem_write he with rfl | he
  · exact hv
  · exact hm e he

/-- What holds of every element holds of every element after a write of a range that meets it. -/
theorem forall_writeRange (hm : ∀ e ∈ m, P e.2) {vs : List α} (hvs : ∀ v ∈ vs, P v) (i : Nat) :
    ∀ e ∈ m.writeRange i vs, P e.2 := by
  intro e he
  rcases Memory.mem_writeRange he with ⟨-, -, hv⟩ | he
  · exact hvs _ hv
  · exact hm e he

/-- The elements a command has read are elements of the buffer. -/
theorem forall_of_holds {vs : List α} (h : Holds m vs) (hm : ∀ e ∈ m, P e.2) : ∀ v ∈ vs, P v := by
  intro v hv
  obtain ⟨j, hj, rfl⟩ := List.getElem_of_mem hv
  exact hm _ (Memory.mem_of_read ((h j hj).trans (List.getElem?_eq_getElem hj)))

/-- The body of each command, before its end (`30_encoding.md` R99). -/
def commandBody (s : State) : Instr → Except Stop State
  | .nop => .ok s
  | .count => countBody s
  | .build => buildBody s
  | .encsym => encsymBody s
  | .encode => encodeBody s
  | .decode => decodeBody s
  | .pack => packBody s
  | .unpack => unpackBody s
  | .togrid => togridBody s
  | .fromgrid => fromgridBody s
  | .trim => trimBody s
  | .reset => .ok s.resetBlock

/-- Every command ends in the same way. -/
theorem exec_eq_commit (i : Instr) (s : State) : exec i s = commit s (commandBody s i) := by
  cases i <;> rfl

/-- A property that an error's three writes keep, and that the body's writes and the cleared error record establish,
holds after the command. -/
theorem exec_induction {Q : State → Prop} {s t : State} {i : Instr} (h : exec i s = .next t)
    (raise : ∀ e info, Q (s.raise e info)) (ok : ∀ u, commandBody s i = .ok u → Q u.succeed) : Q t := by
  rw [exec_eq_commit] at h
  rcases commit_eq_next.1 h with ⟨u, hr, rfl⟩ | ⟨e, info, -, rfl⟩
  · exact ok u hr
  · exact raise e info

end Sys2Proof.Proofs
end

section
/-! ## Reset (R49) -/

namespace Sys2Proof.Proofs

open Sys2Proof.Machine Sys2Proof.Safety

variable {t : State}

theorem buffersCanonical_of_atReset (h : AtReset t) : BuffersCanonical t := by
  simp [BuffersCanonical, h]

theorem buffersWithin_of_atReset (h : AtReset t) : BuffersWithin t := by
  simp [BuffersWithin, Within, h]

theorem widthsOk_of_atReset (h : AtReset t) (hcfg : t.cfg.wf) : WidthsOk t := by
  refine ⟨hcfg, ?_⟩
  simp [Fits, h]

theorem errorRecordOk_of_atReset (h : AtReset t) : ErrorRecordOk t := by
  simp [ErrorRecordOk, h]

/-- With `TV = 0` the invariant asks for no tree, only for `ROOT = NIL` and `NNODES = 0`. -/
theorem treeInv_of_atReset (h : AtReset t) : TreeInv t := by
  simp [TreeInv, nil, h]

/-- A block at its reset values meets the invariant in every configuration that meets R6. -/
theorem inv_of_atReset (h : AtReset t) (hcfg : t.cfg.wf) : Inv t :=
  ⟨buffersCanonical_of_atReset h, buffersWithin_of_atReset h, widthsOk_of_atReset h hcfg, errorRecordOk_of_atReset h,
    treeInv_of_atReset h⟩

/-- Hard reset and RESET leave the reset values (R231). -/
theorem atReset_resetBlock (s : State) : AtReset s.resetBlock := by
  simp only [AtReset, State.resetBlock, State.reset, nil, and_self]

/-- Settles O5: the reset table, field by field. -/
theorem resetStateHasTheTableValues : Obligations.ResetStateHasTheTableValues :=
  ⟨atReset_resetBlock State.reset, rfl, rfl⟩

/-- Settles O54: the reset values meet the invariant, and the reference configuration meets R6. -/
theorem invariantHoldsAtReset : Obligations.InvariantHoldsAtReset :=
  inv_of_atReset (atReset_resetBlock State.reset) (by decide)

end Sys2Proof.Proofs
end

section
/-! ## What the commands compute fits its width (R7, R8) -/

namespace Sys2Proof.Proofs

open Sys2Proof.Machine Sys2Proof.Safety

/-- A number below `2 ^ w` fits as a word, whatever `w` is. -/
theorem fits_wordOf {w n : Nat} (h : n < 2 ^ w) : Fits w (wordOf n) := by
  rw [Fits, wordOf, BitVec.toNat_ofNat]
  exact lt_of_le_of_lt (Nat.mod_le _ _) h

theorem fits_keepLow {w : Nat} (hw : w ≤ 32) (v : Word) : Fits w (keepLow w v) := by
  rw [keepLow_eq hw]
  exact fits_wordOf (Nat.mod_lt _ (Nat.two_pow_pos w))

/-! ### COUNT: a count is at most the number of Symbols counted -/

theorem sum_countOne (v : Symbol) (t : List (Nat × Symbol)) :
    ((countOne v t).map Prod.fst).sum = (t.map Prod.fst).sum + 1 := by
  induction t with
  | nil => rfl
  | cons e rest ih =>
    simp only [countOne]
    split <;> simp [ih] <;> omega

theorem mem_countOne {v : Symbol} {t : List (Nat × Symbol)} {e : Nat × Symbol} (h : e ∈ countOne v t) :
    e.2 = v ∨ e.2 ∈ t.map Prod.snd := by
  induction t with
  | nil => simp_all [countOne]
  | cons e' rest ih =>
    simp only [countOne] at h
    split at h <;> rcases List.mem_cons.1 h with rfl | h
    · exact .inl ‹_›
    · exact .inr (List.mem_cons_of_mem _ (List.mem_map_of_mem h))
    · exact .inr (by simp)
    · exact (ih h).imp_right (List.mem_cons_of_mem _)

theorem countTable_append_singleton (seq : List Symbol) (v : Symbol) :
    countTable (seq ++ [v]) = countOne v (countTable seq) := by
  simp [countTable]

/-- The counts of a sequence add up to its length. -/
theorem sum_countTable (seq : List Symbol) : ((countTable seq).map Prod.fst).sum = seq.length := by
  induction seq using List.reverseRecOn with
  | nil => rfl
  | append_singleton seq v ih => simp [countTable_append_singleton, sum_countOne, ih]

/-- Every Symbol of the table is one of the sequence. -/
theorem mem_of_mem_countTable {seq : List Symbol} {e : Nat × Symbol} (h : e ∈ countTable seq) : e.2 ∈ seq := by
  induction seq using List.reverseRecOn generalizing e with
  | nil => cases h
  | append_singleton seq v ih =>
    rw [countTable_append_singleton] at h
    rcases mem_countOne h with h | h
    · simp [h]
    · obtain ⟨e', he', h⟩ := List.mem_map.1 h
      exact List.mem_append_left _ (h ▸ ih he')

theorem count_le_length {seq : List Symbol} {e : Nat × Symbol} (h : e ∈ countTable seq) : e.1 ≤ seq.length :=
  sum_countTable seq ▸ List.single_le_sum (by simp) _ (List.mem_map_of_mem h)

/-! ### BUILD: the weights of the trees in the queue always add up to the sum of the table's weights -/

/-- The exact sum of the weights of the trees in the queue. -/
def queueWeight (queue : List (Nat × Nat)) : Nat := (queue.map Prod.fst).sum

theorem queueWeight_firstQueue (ws : List Weight) : queueWeight (firstQueue ws) = weightSum ws := by
  rw [queueWeight, firstQueue, List.map_map, weightSum, ← List.zipIdx_map_fst 0 ws, List.map_map,
    List.zipIdx_map_fst]
  rfl

theorem queueWeight_pop {q q' : List (Nat × Nat)} {x : Nat × Nat} (h : pop q = some (x, q')) :
    queueWeight q = x.1 + queueWeight q' := by
  obtain ⟨-, -, hperm, -⟩ := pop_spec h
  simp [queueWeight, (hperm.map Prod.fst).sum_eq]

/-- Every node the combining loop adds has the weight of two trees of the queue, so at most the queue's. -/
theorem nodeFits_growTree {p : Params} {k : Nat} {nodes : List Node} {queue : List (Nat × Nat)}
    (hn : ∀ n ∈ nodes, NodeFits p n) (hq : queueWeight queue < 2 ^ p.weightW) :
    ∀ n ∈ growTree k nodes queue, NodeFits p n := by
  induction k generalizing nodes queue with
  | zero => exact hn
  | succ k ih =>
    rw [growTree]
    split
    · exact hn
    · rename_i a queue1 ha
      split
      · exact hn
      · rename_i b queue2 hb
        have hsum : queueWeight queue = a.1 + (b.1 + queueWeight queue2) := by
          rw [queueWeight_pop ha, queueWeight_pop hb]
        refine ih (fun n hmem => ?_) ?_
        · rcases List.mem_append.1 hmem with hmem | hmem
          · exact hn n hmem
          · rw [List.mem_singleton.1 hmem]
            exact ⟨fits_wordOf (by omega), by simp [nodeSymbol]⟩
        · simp only [queueWeight, List.map_append, List.map_cons, List.map_nil, List.sum_append,
            List.sum_singleton] at hsum hq ⊢
          omega

theorem nodeFits_leafNodes {p : Params} {ws : List Weight} {ss : List Symbol} (hw : ∀ w ∈ ws, Fits p.weightW w)
    (hs : ∀ v ∈ ss, Fits p.symW v) : ∀ n ∈ leafNodes ws ss, NodeFits p n := by
  intro n hn
  obtain ⟨i, hi, rfl⟩ := List.getElem_of_mem hn
  simp only [leafNodes, List.getElem_zipWith]
  exact ⟨hw _ (List.getElem_mem _), fun v hv => Option.some.inj hv ▸ hs _ (List.getElem_mem _)⟩

theorem nodeFits_buildNodes {p : Params} {ws : List Weight} {ss : List Symbol} (hw : ∀ w ∈ ws, Fits p.weightW w)
    (hs : ∀ v ∈ ss, Fits p.symW v) (hsum : weightSum ws < 2 ^ p.weightW) :
    ∀ n ∈ buildNodes ws ss, NodeFits p n :=
  nodeFits_growTree (nodeFits_leafNodes hw hs) (by rwa [queueWeight_firstQueue])

/-! ### DECODE: every decoded Symbol is the Symbol of a leaf -/

theorem emit_eq_ok {v : Symbol} {d : Decoded} {out : List Symbol} :
    emit v d = .ok out ↔ ∃ rest, d = .ok rest ∧ out = v :: rest := by
  cases d <;> simp [emit, eq_comm]

theorem mem_decodeWalk {nodes : List Node} {root : Nat} {bits : List Bool} {cur p start : Nat} {out : List Symbol}
    (h : decodeWalk nodes root bits cur p start = .ok out) : ∀ v ∈ out, ∃ w, Node.leaf w v ∈ nodes := by
  induction bits generalizing cur p start out with
  | nil =>
    simp only [decodeWalk] at h
    split at h <;> cases h
    simp
  | cons b bits ih =>
    simp only [decodeWalk] at h
    split at h
    · split at h
      · rename_i w v hleaf
        obtain ⟨rest, hrest, rfl⟩ := emit_eq_ok.1 h
        intro u hu
        rcases List.mem_cons.1 hu with rfl | hu
        · exact ⟨w, List.mem_of_getElem? hleaf⟩
        · exact ih hrest u hu
      · exact ih h
      · cases h
    · cases h
    · cases h

theorem mem_decodeOneLeaf {v : Symbol} {bits : List Bool} {p : Nat} {out : List Symbol}
    (h : decodeOneLeaf v bits p = .ok out) : ∀ u ∈ out, u = v := by
  induction bits generalizing p out with
  | nil =>
    cases h
    simp
  | cons b bits ih =>
    rw [decodeOneLeaf] at h
    split at h
    · cases h
    · obtain ⟨rest, hrest, rfl⟩ := emit_eq_ok.1 h
      simpa using ih hrest

theorem mem_decodeFn {nodes : List Node} {root k : Nat} {bits : List Bool} {out : List Symbol}
    (h : decodeFn nodes root k bits = .ok out) : ∀ v ∈ out, ∃ w, Node.leaf w v ∈ nodes := by
  unfold decodeFn at h
  split at h
  · exact mem_decodeWalk h
  · split at h
    · split at h
      · rename_i w u hhead
        intro v hv
        exact ⟨w, mem_decodeOneLeaf h v hv ▸ List.mem_of_mem_head? hhead⟩
      · cases h
      · cases h
    · cases h

end Sys2Proof.Proofs
end

section
/-! ## Every step keeps the widths -/

namespace Sys2Proof.Proofs

open Sys2Proof.Machine Sys2Proof.Safety

variable {s t : State}

theorem widthsOk_raise (h : WidthsOk s) (e : ErrKind) (info : Word) : WidthsOk (s.raise e info) := h

theorem widthsOk_succeed (h : WidthsOk s) : WidthsOk s.succeed := h

theorem widthsOk_resetBlock (h : WidthsOk s) : WidthsOk s.resetBlock :=
  widthsOk_of_atReset (atReset_resetBlock s) h.1

theorem widthsOk_putTable (h : WidthsOk s) {ws : List Weight} {ss : List Symbol}
    (hw : ∀ w ∈ ws, Fits s.cfg.weightW w) (hs : ∀ v ∈ ss, Fits s.cfg.symW v) : WidthsOk (s.putTable ws ss) := by
  obtain ⟨cfg, arg, seqin, wtW, wtS, node, symout⟩ := h
  exact ⟨cfg, arg, seqin, forall_writeRange wtW hw 0, forall_writeRange wtS hs 0, node, symout⟩

theorem widthsOk_putTree (h : WidthsOk s) {nodes : List Node} (hn : ∀ n ∈ nodes, NodeFits s.cfg n) :
    WidthsOk (s.putTree nodes) := by
  obtain ⟨cfg, arg, seqin, wtW, wtS, node, symout⟩ := h
  exact ⟨cfg, arg, seqin, wtW, wtS, forall_writeRange (P := NodeFits s.cfg) node hn 0, symout⟩

theorem widthsOk_putSymbols (h : WidthsOk s) {out : List Symbol} (ho : ∀ v ∈ out, Fits s.cfg.symW v) :
    WidthsOk (s.putSymbols out) := by
  obtain ⟨cfg, arg, seqin, wtW, wtS, node, symout⟩ := h
  exact ⟨cfg, arg, seqin, wtW, wtS, node, forall_writeRange symout ho 0⟩

theorem widthsOk_countBody (h : WidthsOk s) {u : State} (hu : countBody s = .ok u) : WidthsOk u := by
  obtain ⟨⟨-, -, ⟨-, -, hseqMax⟩, -⟩, -, hseqin, -⟩ := id h
  obtain ⟨hle, seq, hlen, hseq, -, rfl⟩ := countBody_eq_ok.1 hu
  refine widthsOk_putTable h ?_ ?_ <;> intro x hx <;> obtain ⟨e, he, rfl⟩ := List.mem_map.1 hx
  · have hcount : e.1 ≤ seq.length := count_le_length he
    exact fits_wordOf (by omega)
  · exact forall_of_holds hseq hseqin _ (mem_of_mem_countTable he)

theorem widthsOk_buildBody (h : WidthsOk s) {u : State} (hu : buildBody s = .ok u) : WidthsOk u := by
  obtain ⟨-, -, -, hwtW, hwtS, -⟩ := id h
  obtain ⟨-, -, ws, ss, -, -, hws, hss, -, hsum, rfl⟩ := buildBody_eq_ok.1 hu
  exact widthsOk_putTree h
    (nodeFits_buildNodes (forall_of_holds hws hwtW) (forall_of_holds hss hwtS) hsum)

theorem widthsOk_decodeBody (h : WidthsOk s) {u : State} (hu : decodeBody s = .ok u) : WidthsOk u := by
  obtain ⟨-, -, -, -, -, hnode, -⟩ := id h
  obtain ⟨-, -, bits, -, -, nodes, -, hnodes, out, hout, -, rfl⟩ := decodeBody_eq_ok.1 hu
  refine widthsOk_putSymbols h fun v hv => ?_
  obtain ⟨w, hleaf⟩ := mem_decodeFn hout v hv
  exact (forall_of_holds (P := NodeFits s.cfg) hnodes hnode _ hleaf).2 v rfl

/-- Only COUNT, BUILD and DECODE store a Symbol or a weight, and RESET leaves none. -/
theorem widthsOk_exec (h : WidthsOk s) {i : Instr} (hi : exec i s = .next t) : WidthsOk t := by
  refine exec_induction hi (widthsOk_raise h) fun u hu => widthsOk_succeed ?_
  cases i
  case count => exact widthsOk_countBody h hu
  case build => exact widthsOk_buildBody h hu
  case decode => exact widthsOk_decodeBody h hu
  case nop => cases hu; exact h
  case reset => cases hu; exact widthsOk_resetBlock h
  case encsym => obtain ⟨-, _, -, -, _, -, _, -, rfl⟩ := encsymBody_eq_ok.1 hu; exact h
  case encode => obtain ⟨-, -, _, -, -, _, -, _, -, -, rfl⟩ := encodeBody_eq_ok.1 hu; exact h
  case pack => obtain ⟨-, _, -, -, rfl⟩ := packBody_eq_ok.1 hu; exact h
  case unpack => obtain ⟨-, -, _, -, -, rfl⟩ := unpackBody_eq_ok.1 hu; exact h
  case trim => obtain ⟨-, -, rfl⟩ := trimBody_eq_ok.1 hu; exact h
  case togrid => obtain ⟨-, _, -, -, rfl⟩ := togridBody_eq_ok.1 hu; exact h
  case fromgrid => obtain ⟨-, _, -, -, rfl⟩ := fromgridBody_eq_ok.1 hu; exact h

/-- A host write narrows to the element's width (R67). -/
theorem widthsOk_store (h : WidthsOk s) (v : Word) (pl : Place) : WidthsOk (store s v pl) := by
  obtain ⟨cfg, arg, seqin, wtW, wtS, node, symout⟩ := id h
  obtain ⟨⟨-, hsymW⟩, -, ⟨-, hweightW, -⟩, -⟩ := id cfg
  have hsym : Fits s.cfg.symW (keepLow s.cfg.symW v) := fits_keepLow hsymW v
  have hweight : Fits s.cfg.weightW (keepLow s.cfg.weightW v) := fits_keepLow hweightW v
  cases pl with
  | reg r =>
    cases r
    case arg => exact ⟨cfg, hsym, seqin, wtW, wtS, node, symout⟩
    all_goals exact h
  | seqin i => exact ⟨cfg, arg, forall_write seqin hsym i, wtW, wtS, node, symout⟩
  | wtWeight i => exact ⟨cfg, arg, seqin, forall_write wtW hweight i, wtS, node, symout⟩
  | wtSymbol i => exact ⟨cfg, arg, seqin, wtW, forall_write wtS hsym i, node, symout⟩
  | _ => exact h

/-- Settles O56, by the cases of a step. -/
theorem stepKeepsWidths : Obligations.StepKeepsWidths := by
  intro s t h hstep
  have hmove : WidthsOk s.dropMove.tick := h
  rcases step_cases hstep with ⟨-, rfl⟩ | ⟨_, _, _, _, -, -, rfl⟩ | ⟨_, _, v, _, pl, -, -, -, rfl⟩ |
    ⟨_, _, _, _, _, -, -, -, hexec⟩ | ⟨_, _, c, _, _, -, -, -, rfl⟩ | ⟨_, -, rfl⟩
  · exact h
  · exact h
  · exact widthsOk_store hmove v pl
  · exact widthsOk_exec hmove hexec
  · exact widthsOk_raise hmove .illegalCommand c
  · exact widthsOk_resetBlock hmove

end Sys2Proof.Proofs
end

section
/-! ## The length of a Code (R131) -/

namespace Sys2Proof.Proofs

open Sys2Proof.Machine Sys2Proof.Safety

/-- A node that `nodeOk` accepts as internal stands above the leaves and above its children (R41). -/
theorem nodeOk_internal {nodes : List Node} {k i l r : Nat} {w : Weight} (h : nodeOk nodes k i = true)
    (hi : nodes[i]? = some (.internal w l r)) :
    k ≤ i ∧ l < i ∧ r < i ∧ l ≠ r ∧ w.toNat = weightAt nodes l + weightAt nodes r := by
  simpa [nodeOk, hi, and_assoc] using h

/-- The parent that is found is an internal node with `c` as the child the bit names. -/
theorem parentFrom_eq_some {nodes : List Node} {p c q : Nat} {b : Bool} (h : parentFrom nodes p c = some (q, b)) :
    ∃ j w l r, q = p + j ∧ nodes[j]? = some (.internal w l r) ∧ c = if b then r else l := by
  induction nodes generalizing p with
  | nil => cases h
  | cons n rest ih =>
    have later : parentFrom rest (p + 1) c = some (q, b) →
        ∃ j w l r, q = p + j ∧ (n :: rest)[j]? = some (.internal w l r) ∧ c = if b then r else l := by
      intro h
      obtain ⟨j, w, l, r, rfl, hj, hc⟩ := ih h
      exact ⟨j + 1, w, l, r, by omega, hj, hc⟩
    cases n with
    | leaf w s => exact later h
    | internal w l r =>
      rw [parentFrom] at h
      split at h
      · cases h
        exact ⟨0, w, l, r, rfl, rfl, by simp [*]⟩
      · split at h
        · cases h
          exact ⟨0, w, l, r, rfl, rfl, by simp [*]⟩
        · exact later h

/-- A node has no parent only when it is no node's child. -/
theorem parentFrom_eq_none {nodes : List Node} {p c : Nat} :
    parentFrom nodes p c = none ↔ c ∉ nodes.flatMap nodeChildren := by
  induction nodes generalizing p with
  | nil => simp [parentFrom]
  | cons n rest ih =>
    cases n with
    | leaf w s => simpa [parentFrom, nodeChildren] using ih
    | internal w l r =>
      rw [parentFrom]
      split
      · simp_all [nodeChildren]
      · split <;> simp_all [nodeChildren, eq_comm]

/-- In a tree every node but the root has a parent, which stands above it, above the leaves, and not above the root. -/
theorem exists_parent {p : Params} {nodes : List Node} {k i : Nat} (h : TreeOk p nodes k) (hi : i < 2 * k - 2) :
    ∃ q b, parentFrom nodes 0 i = some (q, b) ∧ i < q ∧ k ≤ q ∧ q ≤ 2 * k - 2 := by
  obtain ⟨⟨hlen, hk, -⟩, hok, -, -, hchild, -⟩ := h
  have hmem : i ∈ nodes.flatMap nodeChildren := List.count_pos_iff.1 (by rw [hchild i hi]; omega)
  cases hpar : parentFrom nodes 0 i with
  | none => exact absurd hmem (parentFrom_eq_none.1 hpar)
  | some qb =>
    obtain ⟨j, w, l, r, hq, hj, hc⟩ := parentFrom_eq_some hpar
    obtain ⟨hjlen, -⟩ := List.getElem?_eq_some_iff.1 hj
    obtain ⟨hkj, hl, hr, -⟩ := nodeOk_internal (hok j hjlen) hj
    have hij : i < j := by
      rw [hc]
      split <;> assumption
    exact ⟨qb.1, qb.2, rfl, by omega⟩

/-- The walk up from a node to the root passes each internal node above it at most once. -/
theorem pathUp_length {p : Params} {nodes : List Node} {k : Nat} (h : TreeOk p nodes k) {fuel i : Nat}
    (hi : i ≤ 2 * k - 2) (hfuel : 2 * k - 2 - i ≤ fuel) (tail : List Bool) :
    ∃ bits, pathUp nodes (2 * k - 2) fuel i tail = some (bits ++ tail) ∧ (i < 2 * k - 2 → 1 ≤ bits.length) ∧
      bits.length ≤ min (2 * k - 2 - i) (k - 1) := by
  induction fuel generalizing i tail with
  | zero =>
    have hroot : i = 2 * k - 2 := by omega
    exact ⟨[], by simp [pathUp, hroot], by omega, by simp⟩
  | succ fuel ih =>
    by_cases hroot : i = 2 * k - 2
    · exact ⟨[], by simp [pathUp, hroot], by omega, by simp⟩
    · obtain ⟨q, b, hpar, hiq, hkq, hq⟩ := exists_parent h (i := i) (by omega)
      obtain ⟨bits, hbits, -, hlen⟩ := ih hq (by omega) (b :: tail)
      refine ⟨bits ++ [b], by simp [pathUp, hroot, hpar, hbits], by simp, ?_⟩
      rw [List.length_append, List.length_singleton]
      omega

/-- Settles O27: a leaf's path leaves the leaves at its first edge and then climbs through the `K - 1` internal nodes. -/
theorem codeLengthsAreBounded : Obligations.CodeLengthsAreBounded := by
  intro p nodes k i h hi
  have hcodeW : 1 ≤ codeW p ∧ p.kMax - 1 ≤ codeW p := ⟨Nat.le_max_left _ _, Nat.le_max_right _ _⟩
  obtain ⟨hlen, -, hkMax⟩ := h.1
  by_cases hk : k = 1
  · exact ⟨[false], if_pos hk, by simp, by omega, by simp, hcodeW.1⟩
  · obtain ⟨bits, hbits, hpos, hle⟩ := pathUp_length h (i := i) (fuel := nodes.length) (by omega) (by omega) []
    have hcode : codeOf nodes (2 * k - 2) k i = some bits := by
      rw [codeOf, if_neg hk, pathOf, hbits, List.append_nil]
    exact ⟨bits, hcode, hpos (by omega), by omega, by omega, by omega⟩

end Sys2Proof.Proofs
end

/-! # Proofs of `10_state.md`: what a step changes, the tree, the frames and the host's accesses -/

section
/-! ## What each command writes (R51) -/

namespace Sys2Proof.Proofs

open Sys2Proof.Machine Sys2Proof.Safety

variable {s t u : State} {i : Instr}

/-- What a command that succeeds has written before its error record is cleared, command by command. -/
inductive Writes (s : State) : Instr → State → Prop
  | nop : Writes s .nop s
  | count (ws : List Weight) (ss : List Symbol) : Writes s .count (s.putTable ws ss)
  | build (nodes : List Node) : Writes s .build (s.putTree nodes)
  | encsym (code : List Bool) : Writes s .encsym (s.putCode code)
  | encode (bits : List Bool) : Writes s .encode (s.putStream bits)
  | decode (out : List Symbol) : Writes s .decode (s.putSymbols out)
  | pack (cells : List Cell) (n : Nat) : Writes s .pack ((s.putCells cells).setTotalbits n)
  | unpack (bits : List Bool) : Writes s .unpack (s.putStream bits)
  | togrid (w h : Nat) (cells : List Cell) : Writes s .togrid (s.putGrid w h cells)
  | fromgrid (cells : List Cell) (n : Nat) : Writes s .fromgrid ((s.putCells cells).setPadidx n)
  | trim (n : Nat) : Writes s .trim (s.setNcells n)
  | reset : Writes s .reset s.resetBlock

theorem writes_of_commandBody (h : commandBody s i = .ok u) : Writes s i u := by
  cases i
  case nop => cases h; exact .nop
  case reset => cases h; exact .reset
  case count => obtain ⟨-, _, -, -, -, rfl⟩ := countBody_eq_ok.1 h; exact .count _ _
  case build => obtain ⟨-, -, _, _, -, -, -, -, -, -, rfl⟩ := buildBody_eq_ok.1 h; exact .build _
  case encsym => obtain ⟨-, _, -, -, _, -, _, -, rfl⟩ := encsymBody_eq_ok.1 h; exact .encsym _
  case encode => obtain ⟨-, -, _, -, -, _, -, _, -, -, rfl⟩ := encodeBody_eq_ok.1 h; exact .encode _
  case decode => obtain ⟨-, -, _, -, -, _, -, -, _, -, -, rfl⟩ := decodeBody_eq_ok.1 h; exact .decode _
  case pack => obtain ⟨-, _, -, -, rfl⟩ := packBody_eq_ok.1 h; exact .pack _ _
  case unpack => obtain ⟨-, -, _, -, -, rfl⟩ := unpackBody_eq_ok.1 h; exact .unpack _
  case togrid => obtain ⟨-, _, -, -, rfl⟩ := togridBody_eq_ok.1 h; exact .togrid _ _ _
  case fromgrid => obtain ⟨-, _, -, -, rfl⟩ := fromgridBody_eq_ok.1 h; exact .fromgrid _ _
  case trim => obtain ⟨-, -, rfl⟩ := trimBody_eq_ok.1 h; exact .trim _

/-- A command that goes on ends with its body's writes and a cleared error record, or with the three writes of an
error. -/
theorem exec_body_cases (h : exec i s = .next t) :
    (∃ u, commandBody s i = .ok u ∧ t = u.succeed) ∨ ∃ e info, t = s.raise e info :=
  exec_induction (Q := fun t => (∃ u, commandBody s i = .ok u ∧ t = u.succeed) ∨ ∃ e info, t = s.raise e info) h
    (fun e info => .inr ⟨e, info, rfl⟩) fun u hu => .inl ⟨u, hu, rfl⟩

theorem exec_cases (h : exec i s = .next t) :
    (∃ u, Writes s i u ∧ t = u.succeed) ∨ ∃ e info, t = s.raise e info :=
  (exec_body_cases h).imp_left fun ⟨u, hu, ht⟩ => ⟨u, writes_of_commandBody hu, ht⟩

/-- No command's body touches the error record, but RESET's. -/
theorem Writes.erracc (h : Writes s i u) (hi : i ≠ .reset) : u.erracc = s.erracc := by
  cases h
  case reset => exact absurd rfl hi
  all_goals rfl

theorem Writes.cfg (h : Writes s i u) : u.cfg = s.cfg := by
  cases h <;> rfl

/-- Only BUILD and RESET write the arena and its registers (R126). -/
theorem Writes.tree (h : Writes s i u) (hb : i ≠ .build) (hr : i ≠ .reset) :
    u.node = s.node ∧ u.root = s.root ∧ u.nnodes = s.nnodes ∧ u.tv = s.tv := by
  cases h
  case build => exact absurd rfl hb
  case reset => exact absurd rfl hr
  all_goals exact ⟨rfl, rfl, rfl, rfl⟩

theorem Writes.buffersCanonical (h : Writes s i u) (hs : BuffersCanonical s) : BuffersCanonical u := by
  obtain ⟨seqin, wtW, wtS, node, codebuf, bitbuf, cellbuf, grid, symout⟩ := id hs
  cases h
  case nop => exact hs
  case trim => exact hs
  case reset => exact buffersCanonical_of_atReset (atReset_resetBlock s)
  case count =>
    exact ⟨seqin, Memory.wf_writeRange wtW 0 _, Memory.wf_writeRange wtS 0 _, node, codebuf, bitbuf, cellbuf, grid,
      symout⟩
  case build => exact ⟨seqin, wtW, wtS, Memory.wf_writeRange node 0 _, codebuf, bitbuf, cellbuf, grid, symout⟩
  case encsym => exact ⟨seqin, wtW, wtS, node, Memory.wf_writeRange codebuf 0 _, bitbuf, cellbuf, grid, symout⟩
  case encode => exact ⟨seqin, wtW, wtS, node, codebuf, Memory.wf_writeRange bitbuf 0 _, cellbuf, grid, symout⟩
  case unpack => exact ⟨seqin, wtW, wtS, node, codebuf, Memory.wf_writeRange bitbuf 0 _, cellbuf, grid, symout⟩
  case decode => exact ⟨seqin, wtW, wtS, node, codebuf, bitbuf, cellbuf, grid, Memory.wf_writeRange symout 0 _⟩
  case pack => exact ⟨seqin, wtW, wtS, node, codebuf, bitbuf, Memory.wf_writeRange cellbuf 0 _, grid, symout⟩
  case fromgrid => exact ⟨seqin, wtW, wtS, node, codebuf, bitbuf, Memory.wf_writeRange cellbuf 0 _, grid, symout⟩
  case togrid => exact ⟨seqin, wtW, wtS, node, codebuf, bitbuf, cellbuf, Memory.wf_writeRange grid 0 _, symout⟩

end Sys2Proof.Proofs
end

section
/-! ## What a step changes -/

namespace Sys2Proof.Proofs

open Sys2Proof.Machine Sys2Proof.Safety

variable {s t : State}

/-- A property holds after a step when it held before and a read, a data write, a command, an illegal word and a reset
each establish it. -/
theorem step_induction {Q : State → Prop} (h : step s = .next t) (idle : Q s)
    (read : ∀ v, Q (s.dropMove.returnWord v)) (write : ∀ v pl, Q (store s.dropMove.tick v pl))
    (command : ∀ i, exec i s.dropMove.tick = .next t → Q t)
    (illegal : ∀ c, Q (s.dropMove.tick.raise .illegalCommand c)) (reset : Q s.dropMove.tick.resetBlock) : Q t := by
  rcases step_cases h with ⟨-, rfl⟩ | ⟨_, _, v, _, -, -, rfl⟩ | ⟨_, _, v, _, pl, -, -, -, rfl⟩ |
    ⟨_, _, _, _, i, -, -, -, hexec⟩ | ⟨_, _, c, _, _, -, -, -, rfl⟩ | ⟨_, -, rfl⟩
  exacts [idle, read v, write v pl, command i hexec, illegal c, reset]

theorem buffersCanonical_store (hs : BuffersCanonical s) (v : Word) (pl : Place) : BuffersCanonical (store s v pl) := by
  obtain ⟨seqin, wtW, wtS, node, codebuf, bitbuf, cellbuf, grid, symout⟩ := id hs
  cases pl with
  | reg r => cases r <;> exact hs
  | seqin i => exact ⟨Memory.wf_write seqin i _, wtW, wtS, node, codebuf, bitbuf, cellbuf, grid, symout⟩
  | wtWeight i => exact ⟨seqin, Memory.wf_write wtW i _, wtS, node, codebuf, bitbuf, cellbuf, grid, symout⟩
  | wtSymbol i => exact ⟨seqin, wtW, Memory.wf_write wtS i _, node, codebuf, bitbuf, cellbuf, grid, symout⟩
  | bitWord j => exact ⟨seqin, wtW, wtS, node, codebuf, Memory.wf_writeRange bitbuf (32 * j) _, cellbuf, grid, symout⟩
  | cell i => exact ⟨seqin, wtW, wtS, node, codebuf, bitbuf, Memory.wf_write cellbuf i _, grid, symout⟩
  | gridCell i => exact ⟨seqin, wtW, wtS, node, codebuf, bitbuf, cellbuf, Memory.wf_write grid i _, symout⟩
  | _ => exact hs

/-- Settles O55: every write of an element or of a range puts it in its place. -/
theorem stepKeepsBuffersCanonical : Obligations.StepKeepsBuffersCanonical := by
  intro s t hs h
  have hmove : BuffersCanonical s.dropMove.tick := hs
  refine step_induction (Q := BuffersCanonical) h hs (fun _ => hs) (fun v pl => buffersCanonical_store hmove v pl)
    (fun i hi => ?_) (fun _ => hs) (buffersCanonical_of_atReset (atReset_resetBlock _))
  rcases exec_cases hi with ⟨u, hu, rfl⟩ | ⟨e, info, rfl⟩
  · exact hu.buffersCanonical hmove
  · exact hs

end Sys2Proof.Proofs
end


section
/-! ## The nodes of the arena -/

namespace Sys2Proof.Proofs

open Sys2Proof.Machine Sys2Proof.Safety

variable {s t : State} {nodes : List Node}

/-- A list of elements that a buffer holds is what it reads as there. -/
theorem filterMap_read_range {α : Type} {m : Memory α} {vs : List α} (h : Holds m vs) :
    (List.range vs.length).filterMap m.read = vs := by
  induction vs using List.reverseRecOn with
  | nil => rfl
  | append_singleton vs v ih =>
    have hvs : Holds m vs := fun j hj => by
      rw [h j (by simp; omega), List.getElem?_append_left hj]
    have hv : m.read vs.length = some v := by simpa using h vs.length (by simp)
    simp [List.range_succ, ih hvs, hv]

theorem treeOf_eq_of_holds (hlen : nodes.length = s.nnodes.toNat) (h : Holds s.node nodes) : treeOf s = nodes := by
  rw [treeOf, ← hlen, filterMap_read_range h]

/-- Elements that are all written can be read. -/
theorem exists_holds {α : Type} {m : Memory α} {n : Nat} (h : ∀ i < n, (m.read i).isSome = true) :
    ∃ vs, vs.length = n ∧ Holds m vs := by
  cases hread : readElems .reg m 0 n with
  | ok vs => exact ⟨vs, readElems_zero_eq_ok.1 hread⟩
  | error x =>
    obtain ⟨j, hj, hnone, -⟩ := readElems_eq_error hread
    have hsome := h (0 + j) (by omega)
    rw [hnone] at hsome
    cases hsome

/-- Where the nodes below `NNODES` are written, "the tree" that a command reads is `treeOf`. -/
theorem readTree_eq_treeOf (h : ∀ i < s.nnodes.toNat, (s.node.read i).isSome = true) :
    readTree s = .ok (treeOf s) := by
  obtain ⟨nodes, hlen, hnodes⟩ := exists_holds h
  rw [treeOf_eq_of_holds hlen hnodes]
  exact readTree_eq_ok.2 ⟨hlen, hnodes⟩

/-- The tree invariants speak of the parameters, `TV`, `ROOT`, `NNODES` and the arena alone. -/
theorem treeInv_congr (hcfg : t.cfg = s.cfg)
    (htree : t.node = s.node ∧ t.root = s.root ∧ t.nnodes = s.nnodes ∧ t.tv = s.tv) (h : TreeInv s) : TreeInv t := by
  obtain ⟨hnode, hroot, hnnodes, htv⟩ := htree
  simpa only [TreeInv, treeOf, leafCount, hcfg, hnode, hroot, hnnodes, htv] using h

end Sys2Proof.Proofs
end

section
/-! ## BUILD makes a tree (R121 to R125) -/

namespace Sys2Proof.Proofs

open Sys2Proof.Machine Sys2Proof.Safety

variable {nodes : List Node} {queue : List (Nat × Nat)} {k : Nat}

theorem weightAt_append_left {more : List Node} {i : Nat} (h : i < nodes.length) :
    weightAt (nodes ++ more) i = weightAt nodes i := by
  rw [weightAt, weightAt, List.getElem?_append_left h]

/-- A node stays right when others are added after it, as its children stand below it. -/
theorem nodeOk_append_left {more : List Node} {i : Nat} (h : nodeOk nodes k i = true) (hi : i < nodes.length) :
    nodeOk (nodes ++ more) k i = true := by
  rw [nodeOk, List.getElem?_append_left hi]
  obtain ⟨n, hn⟩ : ∃ n, nodes[i]? = some n := ⟨_, List.getElem?_eq_getElem hi⟩
  cases n with
  | leaf w v => simpa [nodeOk, hn] using h
  | internal w l r =>
    obtain ⟨hk, hl, hr, hne, hw⟩ := nodeOk_internal h hn
    simp [hn, hk, hl, hr, hne, hw, weightAt_append_left (hl.trans hi), weightAt_append_left (hr.trans hi)]

/-- A node that a node accepted by `nodeOk` has as a child stands below it. -/
theorem child_lt {i c : Nat} {n : Node} (h : nodeOk nodes k i = true) (hn : nodes[i]? = some n)
    (hc : c ∈ nodeChildren n) : c < i := by
  cases n with
  | leaf w v => cases hc
  | internal w l r =>
    obtain ⟨-, hl, hr, -⟩ := nodeOk_internal h hn
    rcases List.mem_pair.1 hc with rfl | rfl <;> assumption

/-- The combining loop's invariant over `k` leaves (R123): the nodes made so far are right, each is either the root of a
tree in the queue or a child of one node, and the queue has the roots' weights, `total` together. -/
structure Growing (k total : Nat) (nodes : List Node) (queue : List (Nat × Nat)) : Prop where
  leaves : k ≤ nodes.length
  ok : ∀ i < nodes.length, nodeOk nodes k i = true
  positive : ∀ n ∈ nodes, 1 ≤ (nodeWeight n).toNat ∧ (nodeWeight n).toNat ≤ total
  roots : (queue.map Prod.snd ++ nodes.flatMap nodeChildren).Perm (List.range nodes.length)
  weights : ∀ e ∈ queue, e.1 = weightAt nodes e.2
  sum : queueWeight queue = total

theorem queueWeight_perm {q q' : List (Nat × Nat)} (h : q.Perm q') : queueWeight q = queueWeight q' :=
  (h.map Prod.fst).sum_eq

/-- A tree in the queue has its root among the nodes, with a weight that is not zero. -/
theorem Growing.root_lt {total : Nat} (h : Growing k total nodes queue) {e : Nat × Nat} (he : e ∈ queue) :
    e.2 < nodes.length ∧ 1 ≤ e.1 := by
  have hlt : e.2 < nodes.length :=
    List.mem_range.1 (h.roots.mem_iff.1 (List.mem_append_left _ (List.mem_map_of_mem he)))
  refine ⟨hlt, ?_⟩
  rw [h.weights e he, weightAt, List.getElem?_eq_getElem hlt]
  exact (h.positive _ (List.getElem_mem hlt)).1

/-- One round of the combining loop: the new node over the popped `a` and `b`. -/
theorem Growing.combine {total : Nat} {a b : Nat × Nat} {rest : List (Nat × Nat)} (h : Growing k total nodes queue)
    (hperm : queue.Perm (a :: b :: rest)) (htotal : total < 2 ^ 32) :
    Growing k total (nodes ++ [.internal (wordOf (a.1 + b.1)) a.2 b.2]) (rest ++ [(a.1 + b.1, nodes.length)]) := by
  have ha : a ∈ queue := hperm.mem_iff.2 (by simp)
  have hb : b ∈ queue := hperm.mem_iff.2 (by simp)
  obtain ⟨ha_lt, ha_pos⟩ := h.root_lt ha
  obtain ⟨hb_lt, -⟩ := h.root_lt hb
  have hsum : a.1 + (b.1 + queueWeight rest) = total := by
    rw [← h.sum, queueWeight_perm hperm]
    simp [queueWeight]
  have hword : (wordOf (a.1 + b.1)).toNat = a.1 + b.1 := toNat_wordOf (by omega)
  have hroots : (a.2 :: b.2 :: (rest.map Prod.snd ++ nodes.flatMap nodeChildren)).Perm (List.range nodes.length) :=
    ((hperm.map Prod.snd).append_right _).symm.trans h.roots
  have hne : a.2 ≠ b.2 := by
    have hnodup := hroots.nodup_iff.2 List.nodup_range
    rintro heq
    simp [heq] at hnodup
  refine { leaves := ?leaves, ok := fun i hi => ?ok, positive := fun n hn => ?positive, roots := ?roots,
           weights := fun e he => ?weights, sum := ?sum }
  case leaves => exact h.leaves.trans (by simp)
  case ok =>
    rcases Nat.lt_or_ge i nodes.length with hlt | hge
    · exact nodeOk_append_left (h.ok i hlt) hlt
    · obtain rfl : i = nodes.length := by simp only [List.length_append, List.length_singleton] at hi; omega
      simp [nodeOk, h.leaves, ha_lt, hb_lt, hne, hword, weightAt_append_left, ← h.weights a ha, ← h.weights b hb]
  case positive =>
    rcases List.mem_append.1 hn with hn | hn
    · exact h.positive n hn
    · rw [List.mem_singleton.1 hn, nodeWeight, hword]
      omega
  case roots =>
    simp only [List.map_append, List.map_cons, List.map_nil, List.flatMap_append, List.flatMap_cons, List.flatMap_nil,
      nodeChildren, List.append_nil, List.length_append, List.length_singleton, List.range_succ]
    refine List.Perm.trans ?_ (hroots.append_right [nodes.length])
    rw [List.perm_iff_count]
    intro x
    simp only [List.count_append, List.count_cons, List.count_nil]
    omega
  case weights =>
    rcases List.mem_append.1 he with he | he
    · have he' : e ∈ queue := hperm.mem_iff.2 (by simp [he])
      rw [h.weights e he', weightAt_append_left (h.root_lt he').1]
    · simp [List.mem_singleton.1 he, weightAt, nodeWeight, hword]
  case sum =>
    rw [queueWeight] at hsum ⊢
    simp only [List.map_append, List.map_cons, List.map_nil, List.sum_append, List.sum_singleton]
    omega

/-- The loop runs to its end: with one tree more than rounds in the queue, one tree is left. -/
theorem Growing.growTree {total rounds : Nat} (h : Growing k total nodes queue) (hlen : queue.length = rounds + 1)
    (htotal : total < 2 ^ 32) :
    (growTree rounds nodes queue).length = nodes.length + rounds ∧
      ∃ inner e, growTree rounds nodes queue = nodes ++ inner ∧ inner.filterMap nodeSymbol = [] ∧
        Growing k total (growTree rounds nodes queue) [e] := by
  induction rounds generalizing nodes queue with
  | zero =>
    obtain ⟨e, rfl⟩ := List.length_eq_one_iff.1 hlen
    exact ⟨rfl, [], e, by simp [Machine.growTree], rfl, h⟩
  | succ rounds ih =>
    rw [Machine.growTree]
    split
    · rename_i hnone
      rw [pop_eq_none.1 hnone] at hlen
      cases hlen
    · rename_i a queue1 ha
      obtain ⟨-, -, hperm1, -⟩ := pop_spec ha
      have hlen1 : queue1.length = rounds + 1 := by simpa [hperm1.length_eq] using hlen
      split
      · rename_i hnone
        rw [pop_eq_none.1 hnone] at hlen1
        cases hlen1
      · rename_i b queue2 hb
        obtain ⟨-, -, hperm2, -⟩ := pop_spec hb
        have hlen2 : queue2.length = rounds := by simpa [hperm2.length_eq] using hlen1
        obtain ⟨hlength, inner, e, heq, hsym, hgrow⟩ :=
          ih (h.combine (hperm1.trans (hperm2.cons a)) htotal) (by simp [hlen2])
        refine ⟨by rw [hlength]; simp; omega, .internal (wordOf (a.1 + b.1)) a.2 b.2 :: inner, e, ?_, ?_, hgrow⟩
        · rw [heq, List.append_assoc]
          rfl
        · simpa [nodeSymbol] using hsym

/-- The one tree the loop ends with is the last node's. -/
theorem Growing.root_eq {total : Nat} {e : Nat × Nat} (h : Growing k total nodes [e]) : e.2 = nodes.length - 1 := by
  obtain ⟨hlt, -⟩ := h.root_lt (List.mem_singleton_self e)
  have hlast : nodes.length - 1 ∈ [e].map Prod.snd ++ nodes.flatMap nodeChildren :=
    h.roots.mem_iff.2 (List.mem_range.2 (by omega))
  rcases List.mem_append.1 hlast with hroot | hchild
  · exact (List.mem_singleton.1 hroot).symm
  · obtain ⟨n, hn, hc⟩ := List.mem_flatMap.1 hchild
    obtain ⟨i, hi, rfl⟩ := List.getElem_of_mem hn
    have := child_lt (h.ok i hi) (List.getElem?_eq_getElem hi) hc
    omega

variable {ws : List Weight} {ss : List Symbol}

theorem length_leafNodes (hlen : ss.length = ws.length) : (leafNodes ws ss).length = ws.length := by
  simp [leafNodes, hlen]

/-- Arena node `i` is the leaf of table entry `i`, the table order of R121. -/
theorem getElem?_leafNodes (hlen : ss.length = ws.length) {i : Nat} (hi : i < ws.length) :
    (leafNodes ws ss)[i]? = some (.leaf ws[i] (ss[i]'(by omega))) := by
  rw [leafNodes, List.getElem?_zipWith, List.getElem?_eq_getElem hi, List.getElem?_eq_getElem (by omega)]

/-- A leaf is the leaf of one entry of the table. -/
theorem mem_leafNodes {n : Node} (h : n ∈ leafNodes ws ss) : ∃ w v, n = .leaf w v ∧ w ∈ ws ∧ v ∈ ss := by
  obtain ⟨i, hi, rfl⟩ := List.getElem_of_mem h
  simp only [leafNodes, List.getElem_zipWith]
  exact ⟨_, _, rfl, List.getElem_mem _, List.getElem_mem _⟩

theorem flatMap_nodeChildren_leafNodes : (leafNodes ws ss).flatMap nodeChildren = [] := by
  rw [List.flatMap_eq_nil_iff]
  intro n hn
  obtain ⟨w, v, rfl, -⟩ := mem_leafNodes hn
  rfl

theorem filterMap_nodeSymbol_leafNodes (hlen : ss.length = ws.length) : (leafNodes ws ss).filterMap nodeSymbol = ss := by
  induction ws generalizing ss with
  | nil => simp [leafNodes, List.length_eq_zero_iff.1 hlen]
  | cons w ws ih =>
    cases ss with
    | nil => cases hlen
    | cons v ss => simpa [leafNodes, nodeSymbol] using ih (ss := ss) (by simpa using hlen)

theorem map_nodeWeight_leafNodes (hlen : ss.length = ws.length) : (leafNodes ws ss).map nodeWeight = ws := by
  induction ws generalizing ss with
  | nil => simp [leafNodes]
  | cons w ws ih =>
    cases ss with
    | nil => cases hlen
    | cons v ss => simpa [leafNodes, nodeWeight] using ih (ss := ss) (by simpa using hlen)

theorem le_weightSum {w : Weight} (h : w ∈ ws) : w.toNat ≤ weightSum ws :=
  List.single_le_sum (by simp) _ (List.mem_map_of_mem h)

/-- The loop starts with every leaf a tree of its own (R121). -/
theorem growing_leafNodes (hlen : ss.length = ws.length) (hpos : ∀ w ∈ ws, w ≠ 0) :
    Growing ws.length (weightSum ws) (leafNodes ws ss) (firstQueue ws) := by
  refine ⟨(length_leafNodes hlen).ge, fun i hi => ?_, fun n hn => ?_, ?_, fun e he => ?_, queueWeight_firstQueue ws⟩
  · rw [length_leafNodes hlen] at hi
    simp [nodeOk, getElem?_leafNodes hlen hi, hi]
  · obtain ⟨w, v, rfl, hw, -⟩ := mem_leafNodes hn
    have hne : w.toNat ≠ 0 := fun h0 => hpos w hw (BitVec.eq_of_toNat_eq h0)
    exact ⟨Nat.one_le_iff_ne_zero.2 hne, le_weightSum hw⟩
  · simp [flatMap_nodeChildren_leafNodes, firstQueue, length_leafNodes hlen, List.range_eq_range', Function.comp_def]
  · obtain ⟨⟨w, i⟩, hwi, rfl⟩ := List.mem_map.1 he
    obtain ⟨hi, hw⟩ := List.mem_zipIdx' hwi
    simp [weightAt, getElem?_leafNodes hlen hi, nodeWeight, hw]

/-- What BUILD makes of a good table of `K` entries: the leaves in front, and every item of R41. -/
theorem treeOk_buildNodes {p : Params} (hk : 1 ≤ ws.length) (hkMax : ws.length ≤ p.kMax)
    (hlen : ss.length = ws.length) (hpos : ∀ w ∈ ws, w ≠ 0) (hnodup : ss.Nodup) (hweightW : p.weightW ≤ 32)
    (hsum : weightSum ws < 2 ^ p.weightW) :
    (∀ i < ws.length, (buildNodes ws ss)[i]? = (leafNodes ws ss)[i]?) ∧ TreeOk p (buildNodes ws ss) ws.length := by
  have htotal : weightSum ws < 2 ^ 32 := lt_of_lt_of_le hsum (Nat.pow_le_pow_right (by omega) hweightW)
  have hqueue : (firstQueue ws).length = (ws.length - 1) + 1 := by simp [firstQueue]; omega
  obtain ⟨hlength, inner, e, heq, hsym, hgrow⟩ := (growing_leafNodes hlen hpos).growTree hqueue htotal
  rw [← buildNodes, length_leafNodes hlen] at hlength
  rw [← buildNodes] at heq hgrow
  have hroot : e.2 = 2 * ws.length - 2 := by rw [hgrow.root_eq]; omega
  have htake : (buildNodes ws ss).take ws.length = leafNodes ws ss := by
    rw [heq, List.take_append_of_le_length (length_leafNodes hlen).ge, List.take_of_length_le (length_leafNodes hlen).le]
  refine ⟨fun i hi => by rw [heq, List.getElem?_append_left (by rwa [length_leafNodes hlen])],
    ⟨by omega, hk, hkMax⟩, hgrow.ok, ?_, ?_, fun i hi => ?_, fun n hn => ?_⟩
  · rwa [heq, List.filterMap_append, hsym, List.append_nil, filterMap_nodeSymbol_leafNodes hlen]
  · rw [← hroot, ← hgrow.weights e (List.mem_singleton_self e), leafWeights, htake, ← Function.comp_def,
      ← List.map_map, map_nodeWeight_leafNodes hlen]
    simpa [queueWeight, weightSum] using hgrow.sum
  · have hcount := hgrow.roots.count_eq i
    rw [List.count_eq_one_of_mem List.nodup_range (List.mem_range.2 (by omega)), List.count_append] at hcount
    simpa [hroot, Nat.ne_of_gt hi] using hcount
  · obtain ⟨hn1, hn2⟩ := hgrow.positive n hn
    exact ⟨hn1, lt_of_le_of_lt hn2 hsum⟩

end Sys2Proof.Proofs
end

section
/-! ## BUILD on a good table, and every step on the tree (R41, R125, R126) -/

namespace Sys2Proof.Proofs

open Sys2Proof.Machine Sys2Proof.Safety

variable {s t : State} {ws : List Weight} {ss : List Symbol}

/-- Check 3 finds no repeated Symbol exactly when the Symbols read are distinct. -/
theorem repeatsEarlier_eq_false_iff (hss : Holds s.wtS ss) :
    (∀ j < ss.length, repeatsEarlier s j = .ok false) ↔ ss.Nodup := by
  have hread : ∀ i (hi : i < ss.length), s.wtS.read i = some ss[i] := fun i hi => by
    rw [hss i hi, List.getElem?_eq_getElem hi]
  rw [List.nodup_iff_pairwise_ne, List.pairwise_iff_getElem]
  constructor
  · intro h i j hi hj hij heq
    exact absurd ((repeatsEarlier_eq_ok (h j hj)).2 ⟨i, hij, ss[i], hread i hi, heq ▸ hread j hj⟩) (by simp)
  · intro h j hj
    obtain ⟨b, hb⟩ := repeatsEarlier_of_holds hss hj
    cases b with
    | false => exact hb
    | true =>
      obtain ⟨i, hij, v, hi, hv⟩ := (repeatsEarlier_eq_ok hb).1 rfl
      have hi' : i < ss.length := hij.trans hj
      rw [hread i hi', Option.some.injEq] at hi
      rw [hread j hj, Option.some.injEq] at hv
      exact absurd (hi.trans hv.symm) (h i j hi' hj hij)

/-- The arena after BUILD's writes: the nodes of the list, which the registers describe. -/
theorem treeInv_putTree {nodes : List Node} {k : Nat} (hcfg : s.cfg.wf) (h : TreeOk s.cfg nodes k) :
    (s.putTree nodes).nnodes.toNat = 2 * k - 1 ∧ (s.putTree nodes).root.toNat = 2 * k - 2 ∧
      treeOf (s.putTree nodes) = nodes ∧ TreeInv (s.putTree nodes) := by
  obtain ⟨hlen, hk, hkMax⟩ := h.1
  obtain ⟨-, ⟨-, -, hkMax28⟩, -⟩ := hcfg
  have hnnodes : (s.putTree nodes).nnodes.toNat = nodes.length := toNat_wordOf (by omega)
  have hholds : Holds (s.putTree nodes).node nodes := Memory.holds_writeRange s.node nodes
  have htree : treeOf (s.putTree nodes) = nodes := treeOf_eq_of_holds hnnodes.symm hholds
  have hleaf : leafCount (s.putTree nodes) = k := by rw [leafCount, hnnodes]; omega
  have hlast : nodes.length - 1 = 2 * k - 2 := by omega
  refine ⟨hnnodes.trans hlen, by rw [State.putTree_root, hlast, toNat_wordOf (by omega)], htree, nofun,
    fun _ => ⟨fun i hi => ?_, ?_, ?_⟩⟩
  · rw [hnnodes] at hi
    rw [hholds i hi, List.getElem?_eq_getElem hi]
    rfl
  · rwa [htree, hleaf]
  · rw [hleaf, State.putTree_root, hlast]

/-- A table that passes BUILD's checks is a good one, so what BUILD writes is a tree. -/
theorem exists_tree_of_buildBody {u : State} (hcfg : s.cfg.wf) (h : buildBody s = .ok u) :
    ∃ nodes, u = s.putTree nodes ∧ TreeOk s.cfg nodes s.nsym.toNat := by
  obtain ⟨hk, hkMax, ws, ss, hws, hss, holdsW, holdsS, hcheck, hsum, rfl⟩ := buildBody_eq_ok.1 h
  obtain ⟨-, -, ⟨-, hweightW, -⟩, -⟩ := id hcfg
  have hk' : s.nsym.toNat ≠ 0 := fun h0 => hk (BitVec.eq_of_toNat_eq h0)
  have hpos : ∀ w ∈ ws, w ≠ 0 := fun w hw => by
    obtain ⟨j, hj, rfl⟩ := List.getElem_of_mem hw
    obtain ⟨⟨w', hw', hne⟩, -⟩ := hcheck j (by omega)
    rw [holdsW j hj, List.getElem?_eq_getElem hj, Option.some.injEq] at hw'
    exact hw' ▸ hne
  have hnodup : ss.Nodup := (repeatsEarlier_eq_false_iff holdsS).1 fun j hj => (hcheck j (by omega)).2
  obtain ⟨-, htree⟩ :=
    treeOk_buildNodes (p := s.cfg) (by omega) (by omega) (hss.trans hws.symm) hpos hnodup hweightW hsum
  exact ⟨_, rfl, hws ▸ htree⟩

theorem treeInv_buildBody {u : State} (hcfg : s.cfg.wf) (h : buildBody s = .ok u) : TreeInv u := by
  obtain ⟨nodes, rfl, htree⟩ := exists_tree_of_buildBody hcfg h
  obtain ⟨-, -, -, hinv⟩ := treeInv_putTree hcfg htree
  exact hinv

theorem treeInv_exec {i : Instr} (hcfg : s.cfg.wf) (hs : TreeInv s) (h : exec i s = .next t) : TreeInv t := by
  refine exec_induction (Q := TreeInv) h (fun _ _ => hs) fun u hu => ?_
  have hwrites := writes_of_commandBody hu
  by_cases hb : i = .build
  · subst hb
    exact treeInv_congr (s := u) rfl ⟨rfl, rfl, rfl, rfl⟩ (treeInv_buildBody hcfg hu)
  · by_cases hr : i = .reset
    · subst hr
      cases hu
      exact treeInv_of_atReset (atReset_resetBlock s)
    · exact treeInv_congr hwrites.cfg (hwrites.tree hb hr) hs

/-- Settles O59: BUILD makes a tree, the resets leave none, and no other step touches the arena or its registers. -/
theorem stepKeepsTheTree : Obligations.StepKeepsTheTree := by
  rintro s t ⟨-, -, ⟨hcfg, -⟩, -, hs⟩ h
  have hmove : TreeInv s.dropMove.tick := hs
  refine step_induction (Q := TreeInv) h hs (fun _ => hs) (fun v pl => ?_)
    (fun i hi => treeInv_exec (s := s.dropMove.tick) hcfg hmove hi) (fun _ => hs)
    (treeInv_of_atReset (atReset_resetBlock _))
  rw [store_eq]
  exact hs

/-- Settles O22: a good table passes the four checks, and the combining loop makes a tree of it. -/
theorem buildMakesATreeOfTheTable : Obligations.BuildMakesATreeOfTheTable := by
  intro s ws ss hcfg hk hkMax hws hss holdsW holdsS hpos hnodup hsum
  obtain ⟨-, -, ⟨-, hweightW, -⟩, -⟩ := id hcfg
  have hk' : s.nsym.toNat ≠ 0 := fun h0 => hk (BitVec.eq_of_toNat_eq h0)
  have hcheck : ∀ j < s.nsym.toNat,
      (∃ w, s.wtW.read j = some w ∧ w ≠ 0) ∧ repeatsEarlier s j = .ok false := fun j hj =>
    ⟨⟨ws[j], by rw [holdsW j (by omega), List.getElem?_eq_getElem], hpos _ (List.getElem_mem _)⟩,
      (repeatsEarlier_eq_false_iff holdsS).2 hnodup j (by omega)⟩
  have hbody := buildBody_eq_ok.2 ⟨hk, hkMax, ws, ss, hws, hss, holdsW, holdsS, hcheck, hsum, rfl⟩
  obtain ⟨hleaves, htree⟩ :=
    treeOk_buildNodes (p := s.cfg) (by omega) (by omega) (hss.trans hws.symm) hpos hnodup hweightW hsum
  rw [hws] at hleaves htree
  obtain ⟨hnnodes, hroot, htreeOf, hinv⟩ := treeInv_putTree hcfg htree
  have hexec : exec .build s = .next (s.putTree (buildNodes ws ss)).succeed := by
    rw [exec_eq_commit, commandBody, hbody, commit_ok]
  refine ⟨_, hexec, rfl, rfl, hnnodes, hroot, fun i hi => ?_,
    (hinv.2 rfl).1, htreeOf.symm ▸ htree⟩
  have hlen : i < (buildNodes ws ss).length := by
    obtain ⟨⟨hlen, -⟩, -⟩ := htree
    omega
  have hi' : i < ws.length := by omega
  refine ⟨ws[i], ss[i], List.getElem?_eq_getElem _, List.getElem?_eq_getElem _, ?_⟩
  rw [State.succeed_node, State.putTree_node, Memory.read_writeRange_inside s.node hlen, hleaves i hi,
    getElem?_leafNodes (hss.trans hws.symm) hi']

end Sys2Proof.Proofs
end


section
/-! ## The leaves of a tree (R41, R129) -/

namespace Sys2Proof.Proofs

open Sys2Proof.Machine Sys2Proof.Safety

variable {p : Params} {nodes : List Node} {k : Nat}

/-- The nodes below `K` are the leaves (R41). -/
theorem isLeaf_iff (h : TreeOk p nodes k) {i : Nat} {n : Node} (hn : nodes[i]? = some n) :
    i < k ↔ ∃ v, nodeSymbol n = some v := by
  obtain ⟨hi, -⟩ := List.getElem?_eq_some_iff.1 hn
  obtain ⟨-, hok, -⟩ := h
  have hok := hok i hi
  cases n with
  | leaf w v => simpa [nodeOk, hn, nodeSymbol] using hok
  | internal w l r =>
    obtain ⟨hk, -⟩ := nodeOk_internal hok hn
    simpa [nodeSymbol] using hk

theorem exists_leaf (h : TreeOk p nodes k) {i : Nat} (hi : i < k) : ∃ w v, nodes[i]? = some (.leaf w v) := by
  obtain ⟨hlen, -⟩ := h.1
  have hn : nodes[i]? = some (nodes[i]'(by omega)) := List.getElem?_eq_getElem _
  obtain ⟨v, hv⟩ := (isLeaf_iff h hn).1 hi
  cases hnode : nodes[i]'(by omega) with
  | leaf w v => exact ⟨w, v, hnode ▸ hn⟩
  | internal w l r => simp [hnode, nodeSymbol] at hv

theorem exists_internal (h : TreeOk p nodes k) {i : Nat} (hk : k ≤ i) (hi : i < nodes.length) :
    ∃ w l r, nodes[i]? = some (.internal w l r) := by
  have hn : nodes[i]? = some nodes[i] := List.getElem?_eq_getElem hi
  cases hnode : nodes[i] with
  | internal w l r => exact ⟨w, l, r, hnode ▸ hn⟩
  | leaf w v =>
    have : i < k := (isLeaf_iff h hn).2 ⟨v, by simp [hnode, nodeSymbol]⟩
    omega

/-- No two nodes of a tree hold the same Symbol (R41). -/
theorem eq_of_nodeSymbol_eq (h : TreeOk p nodes k) {i j : Nat} {n m : Node} {v : Symbol} (hn : nodes[i]? = some n)
    (hm : nodes[j]? = some m) (hnv : nodeSymbol n = some v) (hmv : nodeSymbol m = some v) : i = j := by
  obtain ⟨-, -, hnodup, -⟩ := h
  rw [List.nodup_iff_pairwise_ne, List.pairwise_filterMap, List.pairwise_iff_getElem] at hnodup
  obtain ⟨hi, rfl⟩ := List.getElem?_eq_some_iff.1 hn
  obtain ⟨hj, rfl⟩ := List.getElem?_eq_some_iff.1 hm
  rcases Nat.lt_trichotomy i j with hij | hij | hij
  · exact absurd rfl (hnodup i j hi hj hij v hnv v hmv)
  · exact hij
  · exact absurd rfl (hnodup j i hj hi hij v hmv v hnv)

theorem leafOf_eq_some (h : TreeOk p nodes k) {v : Symbol} {i : Nat} :
    leafOf nodes k v = some i ↔ i < k ∧ ∃ w, nodes[i]? = some (.leaf w v) := by
  rw [leafOf, List.findIdx?_eq_some_iff_getElem]
  simp only [List.length_take, List.getElem_take, beq_iff_eq]
  constructor
  · rintro ⟨hi, hsym, -⟩
    have hik : i < k := by omega
    obtain ⟨w, v', hleaf⟩ := exists_leaf h hik
    obtain ⟨_, hget⟩ := List.getElem?_eq_some_iff.1 hleaf
    rw [hget, nodeSymbol, Option.some.injEq] at hsym
    exact ⟨hik, w, hsym ▸ hleaf⟩
  · rintro ⟨hik, w, hleaf⟩
    obtain ⟨hi, hget⟩ := List.getElem?_eq_some_iff.1 hleaf
    refine ⟨by omega, by rw [hget, nodeSymbol], fun j hji hj => ?_⟩
    have := eq_of_nodeSymbol_eq h (List.getElem?_eq_getElem (by omega)) hleaf hj rfl
    omega

theorem leafOf_eq_none (h : TreeOk p nodes k) {v : Symbol} : leafOf nodes k v = none ↔ ¬ HasLeaf nodes k v := by
  rw [Option.eq_none_iff_forall_ne_some, HasLeaf, not_exists]
  exact forall_congr' fun i => not_congr (leafOf_eq_some h)

/-- Settles O25: the leaves are the nodes below `K`, and their Symbols are distinct. -/
theorem leafOfFindsTheOneLeaf : Obligations.LeafOfFindsTheOneLeaf :=
  fun _ _ _ _ h => ⟨fun _ => leafOf_eq_some h, leafOf_eq_none h⟩

end Sys2Proof.Proofs
end

section
/-! ## Walks down a tree (R128)

The model finds a path by climbing to the root. Read downwards, the bits of a path lead from the root to its node, and
in a tree they are the only bits that do. -/

namespace Sys2Proof.Proofs

open Sys2Proof.Machine Sys2Proof.Safety

variable {p : Params} {nodes : List Node} {k i c : Nat}

/-- The child of node `i` that the bit names. -/
def childAt (nodes : List Node) (i : Nat) (b : Bool) : Option Nat :=
  match nodes[i]? with
  | some (.internal _ l r) => some (if b then r else l)
  | some (.leaf _ _) => none
  | none => none

/-- The node to which the bits lead from node `i`. -/
def walkDown (nodes : List Node) : Nat → List Bool → Option Nat
  | i, [] => some i
  | i, b :: bits => (childAt nodes i b).bind fun c => walkDown nodes c bits

theorem childAt_eq_some {b : Bool} :
    childAt nodes i b = some c ↔ ∃ w l r, nodes[i]? = some (.internal w l r) ∧ c = if b then r else l := by
  unfold childAt
  rcases nodes[i]? with _ | ⟨w, v⟩ | ⟨w, l, r⟩ <;> simp [eq_comm]

theorem walkDown_append (i : Nat) (bits more : List Bool) :
    walkDown nodes i (bits ++ more) = (walkDown nodes i bits).bind fun c => walkDown nodes c more := by
  induction bits generalizing i with
  | nil => rfl
  | cons b bits ih => simp [walkDown, ih, Option.bind_assoc]

theorem walkDown_append_singleton (i : Nat) (bits : List Bool) (b : Bool) :
    walkDown nodes i (bits ++ [b]) = (walkDown nodes i bits).bind fun c => childAt nodes c b := by
  simp [walkDown_append, walkDown]

/-- Climbing from a node puts in front the bits that lead back down to it. -/
theorem walkDown_of_pathUp {root fuel : Nat} {tail bits : List Bool} (h : pathUp nodes root fuel i tail = some bits) :
    walkDown nodes root bits = walkDown nodes i tail := by
  induction fuel generalizing i tail with
  | zero =>
    simp only [pathUp, Option.ite_none_right_eq_some, Option.some.injEq] at h
    rw [h.1, h.2]
  | succ fuel ih =>
    rw [pathUp] at h
    split at h
    · rename_i hroot
      rw [hroot, Option.some.inj h]
    · split at h
      · rename_i q b hpar
        obtain ⟨j, w, l, r, hq, hj, hc⟩ := parentFrom_eq_some hpar
        have hchild : childAt nodes q b = some i := childAt_eq_some.2 ⟨w, l, r, by rw [hq, Nat.zero_add, hj], hc⟩
        simpa [walkDown, hchild] using ih h
      · cases h

/-- A child stands below its parent, and below the root. -/
theorem childAt_lt (h : TreeOk p nodes k) {b : Bool} (hc : childAt nodes i b = some c) :
    k ≤ i ∧ c < i ∧ c < 2 * k - 2 := by
  obtain ⟨⟨hlen, -⟩, hok, -⟩ := h
  obtain ⟨w, l, r, hn, rfl⟩ := childAt_eq_some.1 hc
  obtain ⟨hi, -⟩ := List.getElem?_eq_some_iff.1 hn
  obtain ⟨hki, hl, hr, -⟩ := nodeOk_internal (hok i hi) hn
  split <;> omega

/-- No node is a child twice (R41). -/
theorem nodup_children (h : TreeOk p nodes k) : (nodes.flatMap nodeChildren).Nodup := by
  obtain ⟨⟨hlen, -⟩, hok, -, -, hcount, -⟩ := h
  rw [List.nodup_iff_count_le_one]
  intro c
  by_cases hc : c ∈ nodes.flatMap nodeChildren
  · obtain ⟨n, hn, hcn⟩ := List.mem_flatMap.1 hc
    obtain ⟨i, hi, rfl⟩ := List.getElem_of_mem hn
    have hlt := child_lt (hok i hi) (List.getElem?_eq_getElem hi) hcn
    exact (hcount c (by omega)).le
  · simp [List.count_eq_zero_of_not_mem hc]

/-- A node is the child of one node, by one bit (R41). -/
theorem childAt_injective (h : TreeOk p nodes k) {j : Nat} {b d : Bool} (hi : childAt nodes i b = some c)
    (hj : childAt nodes j d = some c) : i = j ∧ b = d := by
  obtain ⟨-, hother⟩ := List.nodup_flatMap.1 (nodup_children h)
  rw [List.pairwise_iff_getElem] at hother
  obtain ⟨w, l, r, hni, hci⟩ := childAt_eq_some.1 hi
  obtain ⟨w', l', r', hnj, hcj⟩ := childAt_eq_some.1 hj
  have hmem_i : c ∈ nodeChildren (.internal w l r) := by rw [hci]; cases b <;> simp [nodeChildren]
  have hmem_j : c ∈ nodeChildren (.internal w' l' r') := by rw [hcj]; cases d <;> simp [nodeChildren]
  obtain ⟨hi', hgi⟩ := List.getElem?_eq_some_iff.1 hni
  obtain ⟨hj', hgj⟩ := List.getElem?_eq_some_iff.1 hnj
  have hij : i = j := by
    rcases Nat.lt_trichotomy i j with hlt | heq | hlt
    · exact absurd (hgj ▸ hmem_j) (hother i j hi' hj' hlt (hgi ▸ hmem_i))
    · exact heq
    · exact absurd (hgi ▸ hmem_i) (hother j i hj' hi' hlt (hgj ▸ hmem_j))
  refine ⟨hij, ?_⟩
  subst hij
  rw [hni, Option.some.injEq, Node.internal.injEq] at hnj
  obtain ⟨-, rfl, rfl⟩ := hnj
  obtain ⟨-, hok, -⟩ := h
  obtain ⟨-, -, -, hne, -⟩ := nodeOk_internal (hok i hi') hni
  cases b <;> cases d <;> simp_all

/-- Only one walk leads from the root to a node. -/
theorem walkDown_injective (h : TreeOk p nodes k) {bits bits' : List Bool}
    (h1 : walkDown nodes (2 * k - 2) bits = some c) (h2 : walkDown nodes (2 * k - 2) bits' = some c) : bits = bits' := by
  induction bits using List.reverseRecOn generalizing bits' c with
  | nil =>
    cases h1
    cases bits' using List.reverseRecOn with
    | nil => rfl
    | append_singleton bits' d =>
      obtain ⟨j, -, hj⟩ := Option.bind_eq_some_iff.1 (walkDown_append_singleton _ _ _ ▸ h2)
      have := childAt_lt h hj
      omega
  | append_singleton bits b ih =>
    obtain ⟨i, hwi, hi⟩ := Option.bind_eq_some_iff.1 (walkDown_append_singleton _ _ _ ▸ h1)
    cases bits' using List.reverseRecOn with
    | nil =>
      cases h2
      have := childAt_lt h hi
      omega
    | append_singleton bits' d =>
      obtain ⟨j, hwj, hj⟩ := Option.bind_eq_some_iff.1 (walkDown_append_singleton _ _ _ ▸ h2)
      obtain ⟨rfl, rfl⟩ := childAt_injective h hi hj
      rw [ih hwi hwj]

/-- Every node of a tree has a path (R128). -/
theorem exists_path (h : TreeOk p nodes k) (hi : i < nodes.length) :
    ∃ bits, pathOf nodes (2 * k - 2) i = some bits := by
  obtain ⟨hlen, -⟩ := h.1
  obtain ⟨bits, hbits, -⟩ := pathUp_length h (i := i) (fuel := nodes.length) (by omega) (by omega) []
  exact ⟨_, hbits⟩

/-- The path of a node is the one walk from the root to it. -/
theorem pathOf_eq_some (h : TreeOk p nodes k) (hi : i < nodes.length) {bits : List Bool} :
    pathOf nodes (2 * k - 2) i = some bits ↔ walkDown nodes (2 * k - 2) bits = some i := by
  refine ⟨walkDown_of_pathUp, fun hwalk => ?_⟩
  obtain ⟨bits', hpath⟩ := exists_path h hi
  rw [hpath, walkDown_injective h hwalk (walkDown_of_pathUp hpath)]

end Sys2Proof.Proofs
end

section
/-! ## Weights are conserved (R130) -/

namespace Sys2Proof.Proofs

open Sys2Proof.Machine Sys2Proof.Safety

variable {p : Params} {nodes : List Node} {k i : Nat} {path : List Bool}

/-- Leaf `j` is beneath the node whose path is `path`: the node's path begins the leaf's (R130). -/
def beneath (nodes : List Node) (k : Nat) (path : List Bool) (j : Nat) : Bool :=
  (pathOf nodes (2 * k - 2) j).any fun q => path.isPrefixOf q

theorem beneath_iff (h : TreeOk p nodes k) (hi : walkDown nodes (2 * k - 2) path = some i) {j : Nat}
    (hj : j < nodes.length) : beneath nodes k path j = true ↔ ∃ bits, walkDown nodes i bits = some j := by
  obtain ⟨q, hq⟩ := exists_path h hj
  have hwalk : ∀ bits, walkDown nodes (2 * k - 2) (path ++ bits) = walkDown nodes i bits := fun bits => by
    rw [walkDown_append, hi, Option.bind_some]
  simp only [beneath, hq, Option.any_some, List.isPrefixOf_iff_prefix]
  constructor
  · rintro ⟨bits, rfl⟩
    exact ⟨bits, by rw [← hwalk, (pathOf_eq_some h hj).1 hq]⟩
  · rintro ⟨bits, hbits⟩
    exact ⟨bits, walkDown_injective h ((hwalk bits).trans hbits) ((pathOf_eq_some h hj).1 hq)⟩

/-- Where two exclusive conditions together are a third, so are the sums over the elements that meet them. -/
theorem sum_filter_or {l : List Nat} {P Q R : Nat → Bool} (f : Nat → Nat) (hor : ∀ j ∈ l, P j = (Q j || R j))
    (hand : ∀ j ∈ l, (Q j && R j) = false) :
    ((l.filter P).map f).sum = ((l.filter Q).map f).sum + ((l.filter R).map f).sum := by
  induction l with
  | nil => rfl
  | cons j l ih =>
    have htail := ih (fun j hj => hor j (List.mem_cons_of_mem _ hj)) (fun j hj => hand j (List.mem_cons_of_mem _ hj))
    have hj := hor j List.mem_cons_self
    have hj' := hand j List.mem_cons_self
    cases hQ : Q j <;> cases hR : R j <;> simp [hj, hQ, hR, htail] at hj' ⊢ <;> omega

/-- Beneath a leaf there is only itself. -/
theorem filter_beneath_leaf (h : TreeOk p nodes k) (hi : walkDown nodes (2 * k - 2) path = some i) (hik : i < k) :
    (List.range k).filter (beneath nodes k path) = [i] := by
  obtain ⟨hlen, hk, -⟩ := h.1
  have hleaf : ∀ bits j, walkDown nodes i bits = some j ↔ bits = [] ∧ i = j := fun bits j => by
    cases bits with
    | nil => simp [walkDown]
    | cons b bits =>
      obtain ⟨w, v, hn⟩ := exists_leaf h hik
      simp [walkDown, childAt, hn]
  have hbeneath : ∀ j ∈ List.range k, beneath nodes k path j = (j == i) := fun j hj => by
    rw [List.mem_range] at hj
    rw [Bool.eq_iff_iff, beneath_iff h hi (by omega), beq_iff_eq]
    exact ⟨fun ⟨bits, hbits⟩ => ((hleaf bits j).1 hbits).2.symm, fun hj => ⟨[], (hleaf [] j).2 ⟨rfl, hj.symm⟩⟩⟩
  rw [List.filter_congr hbeneath, List.filter_beq, List.count_eq_one_of_mem List.nodup_range (List.mem_range.2 hik)]
  rfl

/-- Beneath an internal node stand the leaves beneath its left child and those beneath its right, none of them both. -/
theorem beneath_internal (h : TreeOk p nodes k) (hi : walkDown nodes (2 * k - 2) path = some i) {j : Nat} (hj : j < k)
    (hki : k ≤ i) :
    beneath nodes k path j = (beneath nodes k (path ++ [false]) j || beneath nodes k (path ++ [true]) j) ∧
      (beneath nodes k (path ++ [false]) j && beneath nodes k (path ++ [true]) j) = false := by
  obtain ⟨hlen, -⟩ := h.1
  obtain ⟨q, hq⟩ := exists_path h (i := j) (by omega)
  have hne : q ≠ path := by
    rintro rfl
    rw [pathOf_eq_some h (by omega), hi, Option.some.injEq] at hq
    omega
  simp only [beneath, hq, Option.any_some]
  rw [Bool.eq_iff_iff, ← Bool.not_eq_true, Bool.or_eq_true, Bool.and_eq_true]
  simp only [List.isPrefixOf_iff_prefix]
  constructor
  · constructor
    · rintro ⟨bits, rfl⟩
      cases bits with
      | nil => exact absurd (List.append_nil path) hne
      | cons b bits => cases b <;> simp
    · rintro (hpre | hpre) <;> exact (List.prefix_append _ _).trans hpre
  · rintro ⟨hfalse, htrue⟩
    have heq := (List.prefix_of_prefix_length_le hfalse htrue (by simp)).eq_of_length (by simp)
    simp at heq

/-- Settles O29, by induction on the node: a leaf has only itself beneath it, and an internal node's weight is the sum of
its children's (R41). -/
theorem weightsAreConserved : Obligations.WeightsAreConserved := by
  intro p nodes k i path h hi hpath
  show weightAt nodes i = (((List.range k).filter (beneath nodes k path)).map (weightAt nodes)).sum
  have hwalk := walkDown_of_pathUp hpath
  clear hpath
  induction i using Nat.strongRecOn generalizing path with
  | ind i ih =>
    change walkDown nodes (2 * k - 2) path = some i at hwalk
    rcases Nat.lt_or_ge i k with hik | hki
    · simp [filter_beneath_leaf h hwalk hik]
    · obtain ⟨w, l, r, hn⟩ := exists_internal h hki hi
      obtain ⟨-, hok, -⟩ := id h
      obtain ⟨-, hl, hr, -, hw⟩ := nodeOk_internal (hok i hi) hn
      have hleft : walkDown nodes (2 * k - 2) (path ++ [false]) = some l := by
        simp [walkDown_append_singleton, hwalk, childAt, hn]
      have hright : walkDown nodes (2 * k - 2) (path ++ [true]) = some r := by
        simp [walkDown_append_singleton, hwalk, childAt, hn]
      have hsplit : ∀ j ∈ List.range k, _ := fun j hj => beneath_internal h hwalk (List.mem_range.1 hj) hki
      calc weightAt nodes i = weightAt nodes l + weightAt nodes r := by simpa [weightAt, hn, nodeWeight] using hw
        _ = _ := by rw [ih l hl _ (hl.trans hi) hleft, ih r hr _ (hr.trans hi) hright]
        _ = _ := (sum_filter_or _ (fun j hj => (hsplit j hj).1) (fun j hj => (hsplit j hj).2)).symm

end Sys2Proof.Proofs
end

section
/-! ## The tree is never broken -/

namespace Sys2Proof.Proofs

open Sys2Proof.Machine Sys2Proof.Safety

variable {p : Params} {nodes : List Node} {k : Nat} {s : State}

/-- The walk of `decode_fn` stays on internal nodes, so it always finds a child (R144). -/
theorem decodeWalk_ne_broken (h : TreeOk p nodes k) (hk : 2 ≤ k) {bits : List Bool} {cur q start : Nat}
    (hcur : k ≤ cur ∧ cur < nodes.length) : decodeWalk nodes (2 * k - 2) bits cur q start ≠ .broken := by
  obtain ⟨hlen, -⟩ := h.1
  induction bits generalizing cur q start with
  | nil =>
    rw [decodeWalk]
    split <;> simp
  | cons b bits ih =>
    obtain ⟨w, l, r, hn⟩ := exists_internal h hcur.1 hcur.2
    have hchild : childAt nodes cur b = some (if b then r else l) := childAt_eq_some.2 ⟨w, l, r, hn, rfl⟩
    obtain ⟨-, hlt, -⟩ := childAt_lt h hchild
    have hroot : k ≤ 2 * k - 2 ∧ 2 * k - 2 < nodes.length := by omega
    simp only [decodeWalk, hn]
    generalize (if b then r else l) = c at hlt
    rcases Nat.lt_or_ge c k with hck | hck
    · obtain ⟨w', v, hleaf⟩ := exists_leaf h hck
      have hrest := ih hroot (q := q + 1) (start := q + 1)
      simp only [hleaf]
      cases hdec : decodeWalk nodes (2 * k - 2) bits (2 * k - 2) (q + 1) (q + 1) <;> simp_all [emit]
    · obtain ⟨w', l', r', hint⟩ := exists_internal h hck (by omega)
      simp only [hint]
      exact ih ⟨hck, by omega⟩

theorem decodeOneLeaf_ne_broken {v : Symbol} {bits : List Bool} {q : Nat} : decodeOneLeaf v bits q ≠ .broken := by
  induction bits generalizing q with
  | nil => simp [decodeOneLeaf]
  | cons b bits ih =>
    have hrest := ih (q := q + 1)
    cases b
    · cases hdec : decodeOneLeaf v bits (q + 1) <;> simp_all [decodeOneLeaf, emit]
    · simp [decodeOneLeaf]

theorem decodeFn_ne_broken (h : TreeOk p nodes k) (bits : List Bool) :
    decodeFn nodes (2 * k - 2) k bits ≠ .broken := by
  obtain ⟨hlen, hk, -⟩ := h.1
  rw [decodeFn]
  split
  · exact decodeWalk_ne_broken h ‹_› (by omega)
  · obtain rfl : k = 1 := by omega
    obtain ⟨w, v, hleaf⟩ := exists_leaf h (i := 0) (by omega)
    rw [← List.head?_eq_getElem?] at hleaf
    simpa [hleaf] using decodeOneLeaf_ne_broken

/-- Every sequence of leaves has a concatenation of Codes (R142). -/
theorem exists_encodeLeaves (h : TreeOk p nodes k) {leaves : List Nat} (hl : ∀ i ∈ leaves, i < k) :
    ∃ bits, encodeLeaves nodes (2 * k - 2) k leaves = some bits := by
  induction leaves with
  | nil => exact ⟨[], rfl⟩
  | cons i leaves ih =>
    obtain ⟨code, hcode, -⟩ := codeLengthsAreBounded p nodes k i h (hl i List.mem_cons_self)
    obtain ⟨bits, hbits⟩ := ih fun j hj => hl j (List.mem_cons_of_mem _ hj)
    exact ⟨code ++ bits, by rw [encodeLeaves, hcode, hbits]⟩

/-- What a valid tree gives a command: the nodes it reads, and the root and the number of leaves it walks with. -/
theorem treeInv_valid (hcfg : s.cfg.wf) (h : TreeInv s) (htv : s.tv = true) :
    readTree s = .ok (treeOf s) ∧ TreeOk s.cfg (treeOf s) (leafCount s) ∧ s.root.toNat = 2 * leafCount s - 2 := by
  obtain ⟨hwritten, htree, hroot⟩ := h.2 htv
  obtain ⟨-, ⟨-, -, hkMax⟩, -⟩ := hcfg
  obtain ⟨-, -, hk⟩ := htree.1
  exact ⟨readTree_eq_treeOf hwritten, htree, by rw [hroot, toNat_wordOf (by omega)]⟩

end Sys2Proof.Proofs
end

section
/-! ## Where a command faults (R50, U1) -/

namespace Sys2Proof.Proofs

open Sys2Proof.Machine Sys2Proof.Safety

variable {s : State} {f : Fault}

theorem exec_eq_fault {i : Instr} : exec i s = .fault f ↔ commandBody s i = .error (.fault f) := by
  rw [exec_eq_commit, commit_eq_fault]

theorem orBroken_eq_error {α : Type} {o : Option α} {x : Stop} :
    orBroken o = .error x ↔ o = none ∧ x = .fault .brokenTree := by
  cases o <;> simp [orBroken, eq_comm]

theorem countBody_eq_fault :
    countBody s = .error (.fault f) ↔
      s.seqlen.toNat ≤ s.cfg.seqMax ∧ readSeq s s.seqlen.toNat = .error (.fault f) := by
  simp [countBody, bind_eq_error, seqLength_eq_ok, seqLength_eq_error]

theorem packBody_eq_fault :
    packBody s = .error (.fault f) ↔
      s.nbits.toNat ≤ bitsMax s.cfg ∧ readStream s s.nbits.toNat = .error (.fault f) := by
  simp [packBody, bind_eq_error, streamLength_eq_ok, streamLength_eq_error]

theorem unpackBody_eq_fault :
    unpackBody s = .error (.fault f) ↔ s.ncells.toNat ≤ s.cfg.cellsMax ∧ s.ncells.toNat = cellsNeeded s ∧
      readCells s s.ncells.toNat = .error (.fault f) := by
  simp [unpackBody, bind_eq_error, cellCount_eq_ok, cellCount_eq_error, and_assoc]

theorem togridBody_eq_fault :
    togridBody s = .error (.fault f) ↔
      s.ncells.toNat ≤ s.cfg.cellsMax ∧ readCells s s.ncells.toNat = .error (.fault f) := by
  simp [togridBody, bind_eq_error, cellCount_eq_ok, cellCount_eq_error]

theorem fromgridBody_eq_fault :
    fromgridBody s = .error (.fault f) ↔ s.gw.toNat * s.gh.toNat ≤ s.cfg.cellsMax ∧
      readGrid s (s.gw.toNat * s.gh.toNat) = .error (.fault f) := by
  simp [fromgridBody, bind_eq_error, gridSize_eq_ok, gridSize_eq_error]

theorem buildBody_eq_fault :
    buildBody s = .error (.fault f) ↔ s.nsym.toNat ≠ 0 ∧ s.nsym.toNat ≤ s.cfg.kMax ∧
      (checkTable s 0 s.nsym.toNat = .error (.fault f) ∨
        checkTable s 0 s.nsym.toNat = .ok () ∧
          (readElems .wt s.wtW 0 s.nsym.toNat = .error (.fault f) ∨
            ∃ ws, readElems .wt s.wtW 0 s.nsym.toNat = .ok ws ∧ weightSum ws < 2 ^ s.cfg.weightW ∧
              readElems .wt s.wtS 0 s.nsym.toNat = .error (.fault f))) := by
  simp [buildBody, bind_eq_error, Unique.exists_iff]

theorem encsymBody_eq_fault :
    encsymBody s = .error (.fault f) ↔ s.tv = true ∧
      (readTree s = .error (.fault f) ∨ ∃ nodes, readTree s = .ok nodes ∧
        ∃ i, leafOf nodes (leafCount s) s.arg = some i ∧
          codeOf nodes s.root.toNat (leafCount s) i = none ∧ f = .brokenTree) := by
  simp only [encsymBody, bind_eq_error, requireTree_eq_ok, requireTree_eq_error, reduceCtorEq, and_false, false_or,
    exists_const]
  refine and_congr_right fun _ => or_congr_right (exists_congr fun nodes => and_congr_right fun _ => ?_)
  split <;> simp_all [bind_eq_error, orBroken_eq_error]

theorem encodeBody_eq_fault :
    encodeBody s = .error (.fault f) ↔ s.tv = true ∧ s.seqlen.toNat ≤ s.cfg.seqMax ∧
      (readTree s = .error (.fault f) ∨ ∃ nodes, readTree s = .ok nodes ∧
        (lookUp s nodes 0 s.seqlen.toNat = .error (.fault f) ∨
          ∃ leaves, lookUp s nodes 0 s.seqlen.toNat = .ok leaves ∧
            encodeLeaves nodes s.root.toNat (leafCount s) leaves = none ∧ f = .brokenTree)) := by
  simp [encodeBody, bind_eq_error, requireTree_eq_ok, requireTree_eq_error, seqLength_eq_ok, seqLength_eq_error,
    orBroken_eq_error]

theorem decodeBody_eq_fault :
    decodeBody s = .error (.fault f) ↔ s.tv = true ∧ s.nbits.toNat ≤ bitsMax s.cfg ∧
      (readStream s s.nbits.toNat = .error (.fault f) ∨ ∃ bits, readStream s s.nbits.toNat = .ok bits ∧
        (readTree s = .error (.fault f) ∨ ∃ nodes, readTree s = .ok nodes ∧
          decodeFn nodes s.root.toNat (leafCount s) bits = .broken ∧ f = .brokenTree)) := by
  simp only [decodeBody, bind_eq_error, requireTree_eq_ok, requireTree_eq_error, streamLength_eq_ok,
    streamLength_eq_error, reduceCtorEq, and_false, false_or, exists_const, and_assoc, exists_and_left, exists_eq_left]
  refine and_congr_right fun _ => and_congr_right fun _ => or_congr_right (exists_congr fun bits =>
    and_congr_right fun _ => or_congr_right (exists_congr fun nodes => and_congr_right fun _ => ?_))
  split <;> simp_all [bind_eq_error, eq_comm (a := Fault.brokenTree)]

theorem trimBody_ne_fault : trimBody s ≠ .error (.fault f) := by
  simp [trimBody, bind_eq_error, cellCount_eq_error]

end Sys2Proof.Proofs
end

section
/-! ## No command finds a broken tree -/

namespace Sys2Proof.Proofs

open Sys2Proof.Machine Sys2Proof.Safety

variable {s : State} {nodes : List Node}

/-- Reading elements faults at an unwritten one, which is no broken tree. -/
theorem readElems_ne_brokenTree {α : Type} {sp : Space} {m : Memory α} {i n : Nat} :
    readElems sp m i n ≠ .error (.fault .brokenTree) := by
  intro h
  obtain ⟨_, _, _, h⟩ := readElems_eq_error h
  cases h

theorem repeatsEarlier_ne_brokenTree {i : Nat} : repeatsEarlier s i ≠ .error (.fault .brokenTree) := by
  unfold repeatsEarlier
  split
  · simp
  · simp [bind_eq_error, readElems_ne_brokenTree]

theorem checkTable_ne_brokenTree {i n : Nat} : checkTable s i n ≠ .error (.fault .brokenTree) := by
  induction n generalizing i with
  | zero => simp [checkTable]
  | succ n ih => simp [checkTable, bind_eq_error, repeatsEarlier_ne_brokenTree, ih]

theorem lookUp_ne_brokenTree {i n : Nat} : lookUp s nodes i n ≠ .error (.fault .brokenTree) := by
  induction n generalizing i with
  | zero => simp [lookUp]
  | succ n ih =>
    simp only [lookUp, ne_eq, bind_eq_error, readElem_eq_error, not_or, not_exists, not_and]
    refine ⟨by simp, fun v _ => ?_⟩
    split
    · simp
    · simp [bind_eq_error, ih]

/-- Only ENCSYM, ENCODE and DECODE use the tree, and a valid one has every path they ask for. -/
theorem commandBody_ne_brokenTree (hcfg : s.cfg.wf) (h : TreeInv s) (i : Instr) :
    commandBody s i ≠ .error (.fault .brokenTree) := by
  intro hf
  cases i
  case nop => cases hf
  case reset => cases hf
  case count => exact readElems_ne_brokenTree (countBody_eq_fault.1 hf).2
  case pack => exact readElems_ne_brokenTree (packBody_eq_fault.1 hf).2
  case unpack =>
    obtain ⟨-, -, hread⟩ := unpackBody_eq_fault.1 hf
    exact readElems_ne_brokenTree hread
  case togrid => exact readElems_ne_brokenTree (togridBody_eq_fault.1 hf).2
  case fromgrid => exact readElems_ne_brokenTree (fromgridBody_eq_fault.1 hf).2
  case trim => exact trimBody_ne_fault hf
  case build =>
    obtain ⟨-, -, hcheck | ⟨-, hws | ⟨_, -, -, hss⟩⟩⟩ := buildBody_eq_fault.1 hf
    · exact checkTable_ne_brokenTree hcheck
    · exact readElems_ne_brokenTree hws
    · exact readElems_ne_brokenTree hss
  case encsym =>
    obtain ⟨htv, hread | ⟨nodes, hnodes, i, hleaf, hcode, -⟩⟩ := encsymBody_eq_fault.1 hf
    · exact readElems_ne_brokenTree hread
    · obtain ⟨hread, htree, hroot⟩ := treeInv_valid hcfg h htv
      obtain rfl : treeOf s = nodes := Except.ok.inj (hread.symm.trans hnodes)
      obtain ⟨hi, -⟩ := (leafOf_eq_some htree).1 hleaf
      obtain ⟨code, hsome, -⟩ := codeLengthsAreBounded _ _ _ _ htree hi
      rw [hroot, hsome] at hcode
      cases hcode
  case encode =>
    obtain ⟨htv, -, hread | ⟨nodes, hnodes, hlook | ⟨leaves, hleaves, hbits, -⟩⟩⟩ := encodeBody_eq_fault.1 hf
    · exact readElems_ne_brokenTree hread
    · exact lookUp_ne_brokenTree hlook
    · obtain ⟨hread, htree, hroot⟩ := treeInv_valid hcfg h htv
      obtain rfl : treeOf s = nodes := Except.ok.inj (hread.symm.trans hnodes)
      obtain ⟨hlen, hlook⟩ := lookUp_eq_ok.1 hleaves
      have hlt : ∀ i ∈ leaves, i < leafCount s := fun i hi => by
        obtain ⟨j, hj, rfl⟩ := List.getElem_of_mem hi
        obtain ⟨v, -, hv⟩ := hlook j (by omega)
        rw [List.getElem?_eq_getElem hj] at hv
        exact ((leafOf_eq_some htree).1 hv).1
      obtain ⟨bits, hsome⟩ := exists_encodeLeaves htree hlt
      rw [hroot, hsome] at hbits
      cases hbits
  case decode =>
    obtain ⟨htv, -, hread | ⟨bits, -, hread | ⟨nodes, hnodes, hbroken, -⟩⟩⟩ := decodeBody_eq_fault.1 hf
    · exact readElems_ne_brokenTree hread
    · exact readElems_ne_brokenTree hread
    · obtain ⟨hread, htree, hroot⟩ := treeInv_valid hcfg h htv
      obtain rfl : treeOf s = nodes := Except.ok.inj (hread.symm.trans hnodes)
      rw [hroot] at hbroken
      exact decodeFn_ne_broken htree bits hbroken

/-- Settles O60: a step faults only where a command does, and no command finds a broken tree. -/
theorem theTreeIsNeverBroken : Obligations.TheTreeIsNeverBroken := by
  rintro s ⟨-, -, ⟨hcfg, -⟩, -, htree⟩ hstep
  obtain ⟨_, _, _, _, i, -, -, -, hexec⟩ := step_fault_cases hstep
  exact commandBody_ne_brokenTree (s := s.dropMove.tick) hcfg htree i (exec_eq_fault.1 hexec)

end Sys2Proof.Proofs
end

section
/-! ## Commands fault at the first unwritten element (R50) -/

namespace Sys2Proof.Proofs

open Sys2Proof.Machine Sys2Proof.Safety

variable {s : State} {j : Nat}

/-- A range is read lowest index first, so reading it faults at its first unwritten element. -/
theorem readElems_first_unwritten {α : Type} {sp : Space} {m : Memory α} {i n : Nat} (hj : j < n)
    (hbelow : ∀ k < j, (m.read (i + k)).isSome = true) (hnone : m.read (i + j) = none) :
    readElems sp m i n = .error (.fault (.unwrittenElement sp (i + j))) := by
  induction n generalizing i j with
  | zero => omega
  | succ n ih =>
    cases j with
    | zero => exact bind_eq_error.2 (.inl (readElem_eq_error.2 ⟨hnone, rfl⟩))
    | succ j =>
      obtain ⟨v, hv⟩ := Option.isSome_iff_exists.1 (hbelow 0 (by omega))
      have hshift : ∀ k, i + 1 + k = i + (k + 1) := by omega
      have hrest := ih (i := i + 1) (j := j) (by omega) (fun k hk => hshift k ▸ hbelow (k + 1) (by omega))
        (hshift j ▸ hnone)
      refine bind_eq_error.2 (.inr ⟨v, readElem_eq_ok.2 hv, bind_eq_error.2 (.inl ?_)⟩)
      rw [hrest, hshift]

/-- The same from index 0. -/
theorem readElems_zero_first_unwritten {α : Type} {sp : Space} {m : Memory α} {n : Nat} (hj : j < n)
    (hbelow : ∀ k < j, (m.read k).isSome = true) (hnone : m.read j = none) :
    readElems sp m 0 n = .error (.fault (.unwrittenElement sp j)) := by
  simpa using readElems_first_unwritten (sp := sp) (i := 0) hj (by simpa using hbelow) (by simpa using hnone)

/-- ENCODE looks its Symbols up one by one, so it faults at the first unwritten one when those before it are in the
tree. -/
theorem lookUp_first_unwritten {nodes : List Node} {i n : Nat} (hj : j < n)
    (hbelow : ∀ k < j, ∃ v l, s.seqin.read (i + k) = some v ∧ leafOf nodes (leafCount s) v = some l)
    (hnone : s.seqin.read (i + j) = none) :
    lookUp s nodes i n = .error (.fault (.unwrittenElement .seqin (i + j))) := by
  induction n generalizing i j with
  | zero => omega
  | succ n ih =>
    cases j with
    | zero => exact bind_eq_error.2 (.inl (readElem_eq_error.2 ⟨hnone, rfl⟩))
    | succ j =>
      obtain ⟨v, l, hv, hl⟩ := hbelow 0 (by omega)
      have hshift : ∀ k, i + 1 + k = i + (k + 1) := by omega
      have hrest := ih (i := i + 1) (j := j) (by omega) (fun k hk => hshift k ▸ hbelow (k + 1) (by omega))
        (hshift j ▸ hnone)
      refine bind_eq_error.2 (.inr ⟨v, readElem_eq_ok.2 hv, ?_⟩)
      simp only [hl]
      exact bind_eq_error.2 (.inl (by rw [hrest, hshift]))

/-- The check for a repeat at index `i` reads the Symbols up to `i`, lowest first, unless `i` is 0. -/
theorem repeatsEarlier_first_unwritten {i : Nat} (hi : 0 < i) (hj : j ≤ i)
    (hbelow : ∀ k < j, (s.wtS.read k).isSome = true) (hnone : s.wtS.read j = none) :
    repeatsEarlier s i = .error (.fault (.unwrittenElement .wt j)) := by
  rw [repeatsEarlier, if_neg (by omega)]
  rcases Nat.lt_or_eq_of_le hj with hlt | rfl
  · exact bind_eq_error.2 (.inl (readElems_zero_first_unwritten hlt hbelow hnone))
  · obtain ⟨earlier, hearlier⟩ := exists_holds hbelow
    exact bind_eq_error.2 (.inr ⟨earlier, readElems_zero_eq_ok.2 hearlier,
      bind_eq_error.2 (.inl (readElem_eq_error.2 ⟨hnone, rfl⟩))⟩)

theorem isSome_of_entryGood {i : Nat} (h : EntryGood s i) : (s.wtS.read i).isSome = true := by
  obtain ⟨-, v, hv, -⟩ := h
  rw [hv]
  rfl

/-- Entries that pass check 3 are found to pass it. -/
theorem repeatsEarlier_of_entryGood {i : Nat} (h : ∀ k ≤ i, EntryGood s k) : repeatsEarlier s i = .ok false := by
  obtain ⟨ss, hlen, hss⟩ := exists_holds (m := s.wtS) (n := i + 1) fun k hk => isSome_of_entryGood (h k (by omega))
  obtain ⟨b, hb⟩ := repeatsEarlier_of_holds hss (i := i) (by omega)
  cases b with
  | false => exact hb
  | true =>
    obtain ⟨k, hk, v, hkv, hiv⟩ := (repeatsEarlier_eq_ok hb).1 rfl
    obtain ⟨-, v', hv', hfirst⟩ := h i le_rfl
    rw [hiv] at hv'
    exact absurd (hv' ▸ hkv) (hfirst k hk)

/-- Check 3 stops at the first entry that it cannot read. -/
theorem checkTable_first_unwritten {i n : Nat} {x : Stop} (hj : j < n)
    (hbelow : ∀ k < j, (∃ w, s.wtW.read (i + k) = some w ∧ w ≠ 0) ∧ repeatsEarlier s (i + k) = .ok false)
    (hstop : s.wtW.read (i + j) = none ∧ x = .fault (.unwrittenElement .wt (i + j)) ∨
      (∃ w, s.wtW.read (i + j) = some w ∧ w ≠ 0) ∧ repeatsEarlier s (i + j) = .error x) :
    checkTable s i n = .error x := by
  induction n generalizing i j with
  | zero => omega
  | succ n ih =>
    rw [checkTable]
    cases j with
    | zero =>
      rcases hstop with ⟨hnone, rfl⟩ | ⟨⟨w, hw, hne⟩, hrep⟩
      · exact bind_eq_error.2 (.inl (readElem_eq_error.2 ⟨hnone, rfl⟩))
      · exact bind_eq_error.2 (.inr ⟨w, readElem_eq_ok.2 hw,
          bind_eq_error.2 (.inr ⟨(), by simpa using hne, bind_eq_error.2 (.inl hrep)⟩)⟩)
    | succ j =>
      obtain ⟨⟨w, hw, hne⟩, hrep⟩ := hbelow 0 (by omega)
      have hshift : ∀ k, i + 1 + k = i + (k + 1) := by omega
      have hrest := ih (i := i + 1) (j := j) (by omega) (fun k hk => hshift k ▸ hbelow (k + 1) (by omega))
        (hshift j ▸ hstop)
      exact bind_eq_error.2 (.inr ⟨w, readElem_eq_ok.2 hw, bind_eq_error.2 (.inr ⟨(), by simpa using hne,
        bind_eq_error.2 (.inr ⟨false, hrep, bind_eq_error.2 (.inr ⟨(), rfl, hrest⟩)⟩)⟩)⟩)

/-- BUILD's part of O12: where its reads meet an unwritten weight or Symbol, BUILD faults there. -/
theorem buildBody_first_unwritten (hkMax : s.nsym.toNat ≤ s.cfg.kMax) (hj : j < s.nsym.toNat)
    (hgood : ∀ i < j, EntryGood s i) :
    (s.wtW.read j = none → buildBody s = .error (.fault (.unwrittenElement .wt j))) ∧
      ∀ w, s.wtW.read j = some w → w ≠ 0 → s.wtS.read j = none →
        (0 < j → buildBody s = .error (.fault (.unwrittenElement .wt j))) ∧
        (s.nsym = 1 → w.toNat < 2 ^ s.cfg.weightW → buildBody s = .error (.fault (.unwrittenElement .wt j))) ∧
        ∀ u, j = 0 → 1 < s.nsym.toNat → s.wtW.read 1 = some u → u ≠ 0 →
          buildBody s = .error (.fault (.unwrittenElement .wt j)) := by
  have hbelow : ∀ k < j, (∃ w, s.wtW.read k = some w ∧ w ≠ 0) ∧ repeatsEarlier s k = .ok false := fun k hk =>
    ⟨(hgood k hk).1, repeatsEarlier_of_entryGood fun l hl => hgood l (by omega)⟩
  have hwritten : ∀ k < j, (s.wtS.read k).isSome = true := fun k hk => isSome_of_entryGood (hgood k hk)
  have hcheck : checkTable s 0 s.nsym.toNat = .error (.fault (.unwrittenElement .wt j)) →
      buildBody s = .error (.fault (.unwrittenElement .wt j)) := fun h =>
    buildBody_eq_fault.2 ⟨by omega, hkMax, .inl h⟩
  refine ⟨fun hnone => ?_, fun w hw hne hnone => ⟨fun h0 => ?_, fun h1 hfit => ?_, fun u h0 h1 hu hune => ?_⟩⟩
  · exact hcheck (checkTable_first_unwritten hj (by simpa using hbelow) (.inl (by simpa using hnone)))
  · exact hcheck (checkTable_first_unwritten hj (by simpa using hbelow)
      (.inr (by simpa using ⟨⟨w, hw, hne⟩, repeatsEarlier_first_unwritten h0 le_rfl hwritten hnone⟩)))
  · have hn : s.nsym.toNat = 1 := by rw [h1]; rfl
    obtain rfl : j = 0 := by omega
    have hfirst : repeatsEarlier s 0 = .ok false := rfl
    have hws : readElems .wt s.wtW 0 1 = .ok [w] := by simp [readElems, readElem, hw]
    have hss : readElems .wt s.wtS 0 1 = .error (.fault (.unwrittenElement .wt 0)) :=
      readElems_zero_first_unwritten one_pos hwritten hnone
    refine buildBody_eq_fault.2 ⟨by omega, hkMax, .inr ⟨checkTable_eq_ok.2 fun k hk => ?_, .inr ⟨[w], ?_⟩⟩⟩
    · obtain rfl : k = 0 := by omega
      exact ⟨⟨w, hw, hne⟩, hfirst⟩
    · rw [hn]
      exact ⟨hws, by simpa [weightSum] using hfit, hss⟩
  · subst h0
    have hfirst : repeatsEarlier s 0 = .ok false := rfl
    refine hcheck (checkTable_first_unwritten h1 (fun k hk => ?_)
      (.inr ⟨⟨u, by simpa using hu, hune⟩, repeatsEarlier_first_unwritten (by omega) (by omega) hwritten hnone⟩))
    obtain rfl : k = 0 := by omega
    exact ⟨⟨w, hw, hne⟩, hfirst⟩

/-- Settles O12: each clause is the fault of the command's reads at their first unwritten element. -/
theorem unwrittenElementsFault : Obligations.UnwrittenElementsFault := by
  intro s j
  simp only [exec_eq_fault]
  refine ⟨fun hle hj hbelow hnone => ?_, fun hle hj hbelow hnone => ⟨?_, fun htv => ?_⟩,
    fun hle hj hbelow hnone => ⟨?_, fun hneeded => ?_⟩, fun hle hj hbelow hnone => ?_,
    fun htree htv hle hj hbelow hnone => ?_, buildBody_first_unwritten⟩
  · exact countBody_eq_fault.2 ⟨hle, readElems_zero_first_unwritten hj hbelow hnone⟩
  · exact packBody_eq_fault.2 ⟨hle, readElems_zero_first_unwritten hj hbelow hnone⟩
  · exact decodeBody_eq_fault.2 ⟨htv, hle, .inl (readElems_zero_first_unwritten hj hbelow hnone)⟩
  · exact togridBody_eq_fault.2 ⟨hle, readElems_zero_first_unwritten hj hbelow hnone⟩
  · exact unpackBody_eq_fault.2 ⟨hle, hneeded, readElems_zero_first_unwritten hj hbelow hnone⟩
  · exact fromgridBody_eq_fault.2 ⟨hle, readElems_zero_first_unwritten hj hbelow hnone⟩
  · obtain ⟨hwritten, htreeOk, -⟩ := htree.2 htv
    have hlook := lookUp_first_unwritten (s := s) (nodes := treeOf s) (i := 0) hj (fun k hk => ?_) (by simpa using hnone)
    · rw [Nat.zero_add] at hlook
      exact encodeBody_eq_fault.2 ⟨htv, hle, .inr ⟨_, readTree_eq_treeOf hwritten, .inl hlook⟩⟩
    · obtain ⟨v, hv, l, hl⟩ := hbelow k hk
      exact ⟨v, l, by simpa using hv, (leafOf_eq_some htreeOk).2 hl⟩

end Sys2Proof.Proofs
end

section
/-! ## A command word and its command (R91, R99) -/

namespace Sys2Proof.Proofs

open Sys2Proof.Machine Sys2Proof.Safety

variable {s t : State} {c : Word} {i : Instr} {rest : List HostMove}

theorem opcode_of_mem_opcodeRows : ∀ row ∈ opcodeRows, opcode row.2 = row.1 := by decide

theorem opcode_of_findOpcode {op : BitVec 8} (h : findOpcode op = some i) : opcode i = op := by
  obtain ⟨row, hrow, rfl⟩ := Option.map_eq_some_iff.1 h
  have hop : row.1 = op := by simpa using List.find?_some hrow
  rw [opcode_of_mem_opcodeRows row (List.mem_of_find?_eq_some hrow), hop]

/-- A word is its two fields (R90). -/
theorem zeroField_append_opField (c : Word) : zeroField c ++ opField c = c := by
  refine BitVec.eq_of_getLsbD_eq fun j hj => ?_
  rw [BitVec.getLsbD_append, zeroField, opField, BitVec.getLsbD_extractLsb', BitVec.getLsbD_extractLsb']
  by_cases h8 : j < 8
  · simp [h8]
  · have hadd : 8 + (j - 8) = j := by omega
    have hlt : j - 8 < 24 := by omega
    simp [h8, hadd, hlt]

/-- The only word that decodes to a command is the command's own. -/
theorem encode_of_decode (h : decode c = .ok i) : encode i = c := by
  unfold decode at h
  split at h
  · cases h
  · rename_i hzero
    split at h
    · rename_i hfind
      cases h
      rw [← zeroField_append_opField c, not_not.1 hzero, encode, opcode_of_findOpcode hfind]
    · cases h

theorem step_cons {m : HostMove} (h : s.pending = m :: rest) : step s = hostMove m { s with pending := rest } := by
  simp [step, nextMove, h, State.dropMove]

/-- A write to `CMD` issues its word, and no other host move does (R23, R63). -/
theorem step_of_commands (h : Commands s c rest) :
    step s = issue c { s with pending := rest, epoch := s.epoch + 1 } := by
  rw [step_cons h]
  rfl

theorem commands_of_placeOf {space : BitVec 4} {index : Word} (h : s.pending = .write space index c :: rest)
    (hpl : placeOf s.cfg space index = some (.reg .cmd)) : Commands s c rest := by
  obtain ⟨rfl, rfl⟩ := placeOf_eq_cmd hpl
  exact h

/-- Settles O3. -/
theorem stepRunsTheDecodedCommand : Obligations.StepRunsTheDecodedCommand := by
  intro s c rest i h hdecode _
  rw [step_of_commands h, issue, hdecode]

end Sys2Proof.Proofs
end

section
/-! ## The error record (R25, R26, R200) -/

namespace Sys2Proof.Proofs

open Sys2Proof.Machine Sys2Proof.Safety

variable {s t : State}

theorem errCode_ne_zero (e : ErrKind) : errCode e ≠ 0 := by
  cases e <;> decide

theorem getLsbD_errBit (e : ErrKind) : (errBit e).getLsbD (errCode e).toNat = true := by
  cases e <;> decide

/-- A recorded error has its `ERRACC` bit. -/
theorem getLsbD_erracc_raise (s : State) (e : ErrKind) (info : Word) :
    (s.raise e info).erracc.getLsbD (s.raise e info).err.toNat = true := by
  rw [State.raise_erracc, State.raise_err, BitVec.getLsbD_or, getLsbD_errBit, Bool.or_true]

theorem errorRecordOk_raise (h : ErrorRecordOk s) (e : ErrKind) (info : Word) : ErrorRecordOk (s.raise e info) := by
  obtain ⟨-, hunused, -⟩ := h
  have hbit : errCode e ≤ 8 ∧ errBit e &&& ~~~erraccUsed = 0 := by cases e <;> decide
  refine ⟨hbit.1, ?_, fun h0 => absurd h0 (errCode_ne_zero e), fun _ => getLsbD_erracc_raise s e info⟩
  rw [State.raise_erracc, BitVec.and_or_distrib_right, hunused, hbit.2]
  rfl

/-- Settles O57: a step leaves the error record alone, or takes an error, or clears `ERR` and `EINFO`. -/
theorem stepKeepsTheErrorRecord : Obligations.StepKeepsTheErrorRecord := by
  intro s t hs h
  have hmove : ErrorRecordOk s.dropMove.tick := hs
  refine step_induction (Q := ErrorRecordOk) h hs (fun _ => hs) (fun v pl => ?_) (fun i hi => ?_)
    (errorRecordOk_raise hmove .illegalCommand) (errorRecordOk_of_atReset (atReset_resetBlock _))
  · rw [store_eq]
    exact hs
  · rcases exec_cases hi with ⟨u, hu, rfl⟩ | ⟨e, info, rfl⟩
    · by_cases hr : i = .reset
      · subst hr
        cases hu
        exact errorRecordOk_of_atReset (atReset_resetBlock _)
      · refine ⟨by simp, ?_, fun _ => rfl, fun h0 => absurd rfl h0⟩
        obtain ⟨-, hunused, -⟩ := hs
        rw [State.succeed_erracc, hu.erracc hr]
        exact hunused
    · exact errorRecordOk_raise hmove e info

/-- Settles O9. -/
theorem successfulCommandClearsErr : Obligations.SuccessfulCommandClearsErr := by
  intro i s t h herr
  rcases exec_cases h with ⟨u, hu, rfl⟩ | ⟨e, info, rfl⟩
  · exact ⟨rfl, hu.erracc⟩
  · exact absurd herr (errCode_ne_zero e)

/-- Where the move is no reset, a step adds at most the bit of one error to `ERRACC`. -/
theorem erracc_step (h : step s = .next t) (hr : ¬ Resets s) :
    t.erracc = s.erracc ∨ ∃ e, t.erracc = s.erracc ||| errBit e := by
  rcases step_cases h with ⟨-, rfl⟩ | ⟨_, _, v, _, -, -, rfl⟩ | ⟨_, _, v, _, pl, -, -, -, rfl⟩ |
    ⟨_, _, c, rest, i, hp, hpl, hdecode, hexec⟩ | ⟨_, _, c, _, _, -, -, -, rfl⟩ | ⟨rest, hp, rfl⟩
  · exact .inl rfl
  · exact .inl rfl
  · rw [store_eq]
    exact .inl rfl
  · have hcmd : Commands s (encode i) rest := encode_of_decode hdecode ▸ commands_of_placeOf hp hpl
    have hi : i ≠ .reset := by
      rintro rfl
      exact hr (.inr ⟨rest, hcmd⟩)
    rcases exec_cases hexec with ⟨u, hu, rfl⟩ | ⟨e, info, rfl⟩
    · exact .inl (hu.erracc hi)
    · exact .inr ⟨e, rfl⟩
  · exact .inr ⟨.illegalCommand, rfl⟩
  · exact absurd (.inl ⟨rest, hp⟩) hr

theorem erracc_and_step (h : step s = .next t) (hr : ¬ Resets s) : s.erracc &&& t.erracc = s.erracc := by
  rcases erracc_step h hr with heq | ⟨e, heq⟩ <;> rw [heq]
  · exact BitVec.and_self
  · ext j hj
    simp +contextual

/-- A command, or an illegal word, that leaves an error recorded has taken it in this step. -/
theorem exists_raise_of_issue {c : Word} (h : issue c s = .next t) (herr : t.err ≠ 0) :
    ∃ e info, t = s.raise e info := by
  rcases issue_cases c s with ⟨i, -, hi⟩ | ⟨-, hi⟩ <;> rw [hi] at h
  · rcases exec_cases h with ⟨u, -, rfl⟩ | hraise
    · exact absurd rfl herr
    · exact hraise
  · cases h
    exact ⟨_, _, rfl⟩

/-- Settles O11. -/
theorem errAccAccumulates : Obligations.ErrAccAccumulates := by
  intro s t h hr
  refine ⟨erracc_and_step h hr, fun ⟨c, rest, hcmd⟩ herr => ?_⟩
  rw [step_of_commands hcmd] at h
  obtain ⟨e, info, rfl⟩ := exists_raise_of_issue h herr
  exact getLsbD_erracc_raise _ e info

end Sys2Proof.Proofs
end

section
/-! ## The tree, the resets and the parameters (R28, R126, R231) -/

namespace Sys2Proof.Proofs

open Sys2Proof.Machine Sys2Proof.Safety

variable {s t : State}

/-- A step leaves the arena and its registers alone, or is a successful BUILD, or a reset (R24, R126). -/
theorem tree_step (h : step s = .next t) :
    (t.node = s.node ∧ t.root = s.root ∧ t.nnodes = s.nnodes ∧ t.tv = s.tv) ∨
      (t.tv = true ∧ t.err = 0 ∧ ∃ rest, Commands s 0x00000002 rest) ∨ (t.tv = false ∧ Resets s) := by
  rcases step_cases h with ⟨-, rfl⟩ | ⟨_, _, v, _, -, -, rfl⟩ | ⟨_, _, v, _, pl, -, -, -, rfl⟩ |
    ⟨_, _, c, rest, i, hp, hpl, hdecode, hexec⟩ | ⟨_, _, c, _, _, -, -, -, rfl⟩ | ⟨rest, hp, rfl⟩
  · exact .inl ⟨rfl, rfl, rfl, rfl⟩
  · exact .inl ⟨rfl, rfl, rfl, rfl⟩
  · rw [store_eq]
    exact .inl ⟨rfl, rfl, rfl, rfl⟩
  · have hcmd : Commands s (encode i) rest := encode_of_decode hdecode ▸ commands_of_placeOf hp hpl
    rcases exec_cases hexec with ⟨u, hu, rfl⟩ | ⟨e, info, rfl⟩
    · by_cases hb : i = .build
      · subst hb
        cases hu
        exact .inr (.inl ⟨rfl, rfl, rest, hcmd⟩)
      · by_cases hr : i = .reset
        · subst hr
          cases hu
          exact .inr (.inr ⟨rfl, .inr ⟨rest, hcmd⟩⟩)
        · exact .inl (hu.tree hb hr)
    · exact .inl ⟨rfl, rfl, rfl, rfl⟩
  · exact .inl ⟨rfl, rfl, rfl, rfl⟩
  · exact .inr (.inr ⟨rfl, .inl ⟨rest, hp⟩⟩)

/-- Settles O13. -/
theorem onlyBuildAndResetChangeTheTree : Obligations.OnlyBuildAndResetChangeTheTree :=
  fun _ _ h hchanged => (tree_step h).resolve_left hchanged

theorem exec_reset (s : State) : exec .reset s = .next s.resetBlock := rfl

/-- Settles O7: RESET and the hard reset are one function, and a step that is neither keeps `TV` and `ERRACC`'s bits. -/
theorem resetsLeaveTheResetState : Obligations.ResetsLeaveTheResetState := by
  refine ⟨by decide, fun s => ⟨_, exec_reset s, atReset_resetBlock s, rfl, rfl, rfl, rfl⟩, fun s rest h => ?_,
    fun s t h hr => ⟨fun htv => ?_, erracc_and_step h hr⟩⟩
  · rw [step_cons h, exec_reset]
    rfl
  · rcases tree_step h with ⟨-, -, -, hsame⟩ | ⟨htrue, -⟩ | ⟨-, hresets⟩
    · rw [hsame, htv]
    · exact htrue
    · exact absurd hresets hr

/-- Reading a register's index in space 0 returns the register's word. -/
theorem hostRead_register {index : Word} {r : Reg} (h : regOf index.toNat = some r) :
    hostRead s 0 index = some (regWord s r) := by
  have hpl : placeOf s.cfg 0 index = (regOf index.toNat).map Place.reg := rfl
  rw [hostRead, hpl, h]
  exact congrArg some (viewWord_wholeView _ _)

theorem cfg_step (h : step s = .next t) : t.cfg = s.cfg := by
  refine step_induction (Q := fun t => t.cfg = s.cfg) h rfl (fun _ => rfl) (fun v pl => ?_) (fun i hi => ?_)
    (fun _ => rfl) rfl
  · rw [store_eq]
    rfl
  · rcases exec_cases hi with ⟨u, hu, rfl⟩ | ⟨e, info, rfl⟩
    · exact hu.cfg
    · rfl

/-- Settles O14. -/
theorem configurationIsConstant : Obligations.ConfigurationIsConstant :=
  ⟨fun _ _ => cfg_step, fun _ => ⟨hostRead_register (r := .cfgSymw) rfl, hostRead_register (r := .cfgKmax) rfl,
    hostRead_register (r := .cfgWeightw) rfl, hostRead_register (r := .cfgSeqmax) rfl,
    hostRead_register (r := .cfgCellsmax) rfl⟩⟩

end Sys2Proof.Proofs
end

section
/-! ## The lengths of what a command writes -/

namespace Sys2Proof.Proofs

open Sys2Proof.Machine Sys2Proof.Safety

/-- Beyond a range as long as a register says, a write of it leaves the buffer as it was. -/
theorem read_writeRange_beyond {α : Type} (m : Memory α) {vs : List α} {j : Nat} (hlen : vs.length < 2 ^ 32)
    (hj : (wordOf vs.length).toNat ≤ j) : (m.writeRange 0 vs).read j = m.read j :=
  Memory.read_writeRange_outside m (toNat_wordOf hlen ▸ hj)

/-- A climb adds at most one bit for each edge it may take. -/
theorem length_le_of_pathUp {nodes : List Node} {root fuel i : Nat} {tail bits : List Bool}
    (h : pathUp nodes root fuel i tail = some bits) : bits.length ≤ fuel + tail.length := by
  induction fuel generalizing i tail with
  | zero =>
    simp only [pathUp, Option.ite_none_right_eq_some, Option.some.injEq] at h
    simp [h.2]
  | succ fuel ih =>
    rw [pathUp] at h
    split at h
    · rw [Option.some.inj h]
      omega
    · split at h
      · have hle := ih h
        rw [List.length_cons] at hle
        omega
      · cases h

/-- A Code is no longer than the list of nodes, but for the one-bit Code of a one-leaf tree. -/
theorem length_le_of_codeOf {nodes : List Node} {root k i : Nat} {code : List Bool}
    (h : codeOf nodes root k i = some code) : code.length ≤ max 1 nodes.length := by
  rw [codeOf] at h
  split at h
  · cases h
    simp
  · have hle := length_le_of_pathUp h
    simp only [List.length_nil] at hle
    omega

theorem cdiv_le_self {b : Nat} (hb : 0 < b) (n : Nat) : cdiv n b ≤ n :=
  (cdiv_le_iff hb n n).2 (Nat.le_mul_of_pos_right n hb)

theorem length_packFn (bits : List Bool) : (packFn bits).length = cdiv bits.length cellW := by
  simp [packFn]

theorem sum_meaningful (t m : Nat) :
    ((List.range (m + 1)).map (meaningful (m + 1) t)).sum = cellW * m + (t - cellW * m) := by
  have hfull : ∀ j ∈ List.range m, meaningful (m + 1) t j = cellW := fun j hj => by
    have := List.mem_range.1 hj
    simp [meaningful, this]
  have hlast : meaningful (m + 1) t m = t - cellW * m := by simp [meaningful]
  rw [List.range_succ, List.map_append, List.map_congr_left hfull, List.sum_append]
  simp [hlast, Nat.mul_comm]

/-- As many Cells as the framing calls for hold as many bits as it says (R163). -/
theorem length_unpackFn {cells : List Cell} {t : Nat} (h : cells.length = cdiv t cellW) :
    (unpackFn cells t).length = t := by
  have hsum : (unpackFn cells t).length = ((List.range cells.length).map (meaningful cells.length t)).sum := by
    rw [unpackFn, List.length_flatMap, List.range_eq_range', ← List.zipIdx_map_snd 0 cells, List.map_map]
    simp [Function.comp_def]
  rw [hsum]
  have hle : t ≤ cdiv t cellW * cellW := le_cdiv_mul (by decide) t
  cases hn : cells.length with
  | zero =>
    rw [hn] at h
    rw [← h] at hle
    simp
    omega
  | succ m =>
    have hlt : ¬ cdiv t cellW ≤ m := by omega
    rw [cdiv_le_iff (by decide), Nat.mul_comm] at hlt
    rw [sum_meaningful]
    omega

theorem gridWidth_le (n : Nat) : gridWidth n ≤ n :=
  (csqrt_le_iff n n).2 (Nat.le_mul_self n)

theorem gridWidth_pos {n : Nat} (h : n ≠ 0) : 0 < gridWidth n := by
  have hle := csqrt_sq_ge n
  rcases Nat.eq_zero_or_pos (gridWidth n) with h0 | hpos
  · rw [gridWidth] at h0
    rw [h0] at hle
    omega
  · exact hpos

theorem gridHeight_le (n : Nat) : gridHeight n ≤ n := by
  rw [gridHeight]
  split
  · omega
  · exact cdiv_le_self (gridWidth_pos ‹_›) n

theorem length_gridCells (cells : List Cell) :
    (gridCells cells).length = gridWidth cells.length * gridHeight cells.length := by
  simp [gridCells]

end Sys2Proof.Proofs
end

section
/-! ## Frames (R51) -/

namespace Sys2Proof.Proofs

open Sys2Proof.Machine Sys2Proof.Safety

/-- Settles O15. -/
theorem frameOfCountAndBuild : Obligations.FrameOfCountAndBuild := by
  intro s t hcfg
  obtain ⟨-, ⟨-, -, hkMax⟩, -⟩ := id hcfg
  constructor <;> intro h <;> rcases exec_body_cases h with ⟨u, hu, rfl⟩ | ⟨e, info, rfl⟩
  · obtain ⟨-, seq, -, -, hlen, rfl⟩ := countBody_eq_ok.1 hu
    refine ⟨rfl, fun j hj => ⟨read_writeRange_beyond _ ?_ hj, read_writeRange_beyond _ ?_ ?_⟩⟩
    · rw [List.length_map]; omega
    · rw [List.length_map]; omega
    · simpa using hj
  · exact ⟨rfl, fun _ _ => ⟨rfl, rfl⟩⟩
  · obtain ⟨nodes, rfl, ⟨hlen, -, hk⟩, -⟩ := exists_tree_of_buildBody hcfg hu
    exact ⟨rfl, fun j hj => read_writeRange_beyond _ (by omega) hj⟩
  · exact ⟨rfl, fun _ _ => rfl⟩

/-- Settles O16. -/
theorem frameOfEncodeAndDecode : Obligations.FrameOfEncodeAndDecode := by
  rintro s t ⟨-, -, -, ⟨-, hseqMax⟩, ⟨-, hcellsMax⟩⟩
  refine ⟨fun h => ?_, fun h => ?_, fun h => ?_⟩ <;> rcases exec_body_cases h with ⟨u, hu, rfl⟩ | ⟨e, info, rfl⟩
  · obtain ⟨-, nodes, hnodes, -, i, -, code, hcode, rfl⟩ := encsymBody_eq_ok.1 hu
    have hlen := length_le_of_codeOf hcode
    exact ⟨rfl, fun j hj => read_writeRange_beyond _ (by omega) hj⟩
  · exact ⟨rfl, fun _ _ => rfl⟩
  · obtain ⟨-, -, _, -, -, _, -, bits, -, hlen, rfl⟩ := encodeBody_eq_ok.1 hu
    exact ⟨rfl, fun j hj => read_writeRange_beyond _ (lt_of_le_of_lt hlen hcellsMax) hj⟩
  · exact ⟨rfl, fun _ _ => rfl⟩
  · obtain ⟨-, -, _, -, -, _, -, -, out, -, hlen, rfl⟩ := decodeBody_eq_ok.1 hu
    exact ⟨rfl, fun j hj => read_writeRange_beyond _ (by omega) hj⟩
  · exact ⟨rfl, fun _ _ => rfl⟩

/-- Settles O17. -/
theorem frameOfPackUnpackTrim : Obligations.FrameOfPackUnpackTrim := by
  intro s t
  refine ⟨fun h => ?_, fun h => ?_, fun h => ?_⟩ <;> rcases exec_body_cases h with ⟨u, hu, rfl⟩ | ⟨e, info, rfl⟩
  · obtain ⟨-, bits, hbits, -, rfl⟩ := packBody_eq_ok.1 hu
    have hlen : (packFn bits).length ≤ bits.length := length_packFn bits ▸ cdiv_le_self (by decide) _
    exact ⟨rfl, fun j hj => read_writeRange_beyond _ (by omega) hj⟩
  · exact ⟨rfl, fun _ _ => rfl⟩
  · obtain ⟨-, hneeded, cells, hcells, -, rfl⟩ := unpackBody_eq_ok.1 hu
    have hlen : (unpackFn cells s.totalbits.toNat).length = s.totalbits.toNat := length_unpackFn (hcells.trans hneeded)
    exact ⟨rfl, fun j hj => read_writeRange_beyond _ (by omega) hj⟩
  · exact ⟨rfl, fun _ _ => rfl⟩
  · obtain ⟨-, -, rfl⟩ := trimBody_eq_ok.1 hu
    rfl
  · rfl

/-- Settles O18. -/
theorem frameOfTogridAndFromgrid : Obligations.FrameOfTogridAndFromgrid := by
  intro s t _
  constructor <;> intro h <;> rcases exec_body_cases h with ⟨u, hu, rfl⟩ | ⟨e, info, rfl⟩
  · obtain ⟨-, cells, hcells, -, rfl⟩ := togridBody_eq_ok.1 hu
    have hw := gridWidth_le s.ncells.toNat
    have hh := gridHeight_le s.ncells.toNat
    refine ⟨rfl, fun j hj => Memory.read_writeRange_outside _ ?_⟩
    rw [State.succeed_gw, State.succeed_gh, State.putGrid_gw, State.putGrid_gh, toNat_wordOf (by omega),
      toNat_wordOf (by omega)] at hj
    rwa [length_gridCells, hcells]
  · exact ⟨rfl, fun _ _ => rfl⟩
  · obtain ⟨-, cells, hcells, -, rfl⟩ := fromgridBody_eq_ok.1 hu
    exact ⟨rfl, fun j hj => Memory.read_writeRange_outside _ (hcells ▸ hj)⟩
  · exact ⟨rfl, fun _ _ => rfl⟩

end Sys2Proof.Proofs
end

section
/-! ## Host addresses (R60 to R67) -/

namespace Sys2Proof.Proofs

open Sys2Proof.Machine Sys2Proof.Safety

variable {s t : State} {p : Params} {space : BitVec 4} {sp : Space} {index : Word} {pl : Place}

/-- The address map of a buffer's space. -/
theorem placeOf_eq_some_iff (hs : spaceOf space = some sp) (hsp : sp ≠ .reg) :
    placeOf p space index = some pl ↔ index.toNat < spaceWords p sp ∧ bufferPlace sp index.toNat = some pl := by
  unfold placeOf
  rw [hs]
  cases sp
  case reg => exact absurd rfl hsp
  all_goals exact Option.ite_none_right_eq_some

theorem bufferPlace_ne_reg {i : Nat} {r : Reg} (h : bufferPlace sp i = some (.reg r)) : False := by
  cases sp
  case wt => simp only [bufferPlace, Option.some.injEq] at h; split at h <;> cases h
  case node => simp only [bufferPlace, Option.some.injEq] at h; split at h <;> cases h
  all_goals cases h

/-- In a configuration that meets R6 every space has fewer words than an index can name. -/
theorem spaceWords_lt (hcfg : p.wf) (sp : Space) : spaceWords p sp < 2 ^ 32 := by
  obtain ⟨-, ⟨hk, -, hkMax⟩, -, ⟨-, hseqMax⟩, ⟨-, hcellsMax⟩⟩ := hcfg
  cases sp
  case reg => simp [spaceWords]
  case seqin => exact hseqMax
  case symout => exact hseqMax
  case wt => simp only [spaceWords]; omega
  case node => simp only [spaceWords, nodeMax]; omega
  case codebuf =>
    have := cdiv_le_self (b := 32) (by decide) (codeW p)
    simp only [spaceWords, codeWords, codeW] at this ⊢
    omega
  case bitbuf => exact lt_of_le_of_lt (cdiv_le_self (by decide) _) hcellsMax
  case cellbuf => simp only [spaceWords]; omega
  case grid =>
    have hside : csqrt p.cellsMax ≤ 2 ^ 14 := (csqrt_le_iff _ _).2 (by omega)
    exact lt_of_le_of_lt (Nat.pow_le_pow_left hside 2) (by decide)

/-- A read of an address all of whose bits are defined returns the view's word. -/
theorem hostRead_of_view {w : Word} (hpl : placeOf s.cfg space index = some pl) (hview : viewAt s pl = wholeView w) :
    hostRead s space index = some w := by
  simp [hostRead, hpl, hview]

/-- The place of word `n` of a buffer's host view. -/
theorem placeOf_wordOf (hcfg : p.wf) (hs : spaceOf space = some sp) {n : Nat} (hn : n < spaceWords p sp)
    (hpl : bufferPlace sp n = some pl) : placeOf p space (wordOf n) = some pl := by
  have hword : (wordOf n).toNat = n := toNat_wordOf (hn.trans (spaceWords_lt hcfg sp))
  have hsp : sp ≠ .reg := by
    rintro rfl
    simp [spaceWords] at hn
  exact (placeOf_eq_some_iff hs hsp).2 (by rw [hword]; exact ⟨hn, hpl⟩)

/-- A written bit of a bit buffer stands in its word at bit `31 - q` (R64). -/
theorem getLsbD_viewWord_bit {m : Memory Bool} {size j q : Nat} {beyond : Bool × Bool} {b : Bool} (free : Word)
    (hq : q < 32) (hsize : 32 * j + q < size) (hb : m.read (32 * j + q) = some b) :
    (viewWord (bitWordView m size beyond j) free).getLsbD (31 - q) = b := by
  obtain ⟨hvalue, hdefined⟩ := getLsbD_bitWordView m size beyond j hq
  have hbit : bitView m size beyond (32 * j + q) = (b, true) := by rw [bitView, if_neg (by omega), hb]
  rw [getLsbD_viewWord _ _ (by omega), hvalue, hdefined, hbit]
  rfl

/-- Beyond the buffer's size the word has the bit that stands for none. -/
theorem getLsbD_viewWord_beyond {m : Memory Bool} {size j q : Nat} {b : Bool} (free : Word) (hq : q < 32)
    (hsize : size ≤ 32 * j + q) : (viewWord (bitWordView m size (b, true) j) free).getLsbD (31 - q) = b := by
  obtain ⟨hvalue, hdefined⟩ := getLsbD_bitWordView m size (b, true) j hq
  rw [getLsbD_viewWord _ _ (by omega), hvalue, hdefined, bitView, if_pos hsize]
  rfl

end Sys2Proof.Proofs
end

section
/-! ## Host reads (R62) -/

namespace Sys2Proof.Proofs

open Sys2Proof.Machine Sys2Proof.Safety

variable {s : State}

theorem registerViews (s : State) : RegisterViews s := by
  have hstatus : regWord s .status = if s.tv then 1 else 0 := by
    rw [regWord]
    cases s.tv <;> rfl
  refine ⟨hostRead_register (r := .id) rfl, hostRead_register (r := .cmd) rfl, ?_, hostRead_register (r := .err) rfl,
    hostRead_register (r := .einfo) rfl, hostRead_register (r := .erracc) rfl, hostRead_register (r := .arg) rfl,
    hostRead_register (r := .seqlen) rfl, hostRead_register (r := .nsym) rfl, hostRead_register (r := .nbits) rfl,
    hostRead_register (r := .ncells) rfl, hostRead_register (r := .totalbits) rfl, hostRead_register (r := .gw) rfl,
    hostRead_register (r := .gh) rfl, hostRead_register (r := .outlen) rfl, hostRead_register (r := .padidx) rfl,
    hostRead_register (r := .root) rfl, hostRead_register (r := .nnodes) rfl, hostRead_register (r := .codelen) rfl⟩
  rw [← hstatus]
  exact hostRead_register rfl

/-- The four words of arena node `i` (R40). -/
theorem hostRead_node (hcfg : s.cfg.wf) {i : Nat} (hi : i < nodeMax s.cfg) {n : Node} (hn : s.node.read i = some n) :
    hostRead s 3 (wordOf (4 * i)) = some (nodeWeightWord n) ∧
      hostRead s 3 (wordOf (4 * i + 1)) = some (nodeSymbolWord n) ∧
      hostRead s 3 (wordOf (4 * i + 2)) = some (indexWord (leftChild n)) ∧
      hostRead s 3 (wordOf (4 * i + 3)) = some (indexWord (rightChild n)) := by
  have hdiv : ∀ c < 4, (4 * i + c) / 4 = i ∧ (4 * i + c) % 4 = c := by omega
  have hword : ∀ (c : Nat) (pl : Place) (w : Word), c < 4 → bufferPlace .node (4 * i + c) = some pl →
      viewAt s pl = wholeView w → hostRead s 3 (wordOf (4 * i + c)) = some w := fun c pl w hc hpl hview =>
    hostRead_of_view (placeOf_wordOf (sp := .node) hcfg rfl (by rw [spaceWords]; omega) hpl) hview
  refine ⟨hword 0 (.nodeWeight i) _ (by omega) ?_ (by rw [viewAt, hn]; rfl),
    hword 1 (.nodeSymbol i) _ (by omega) ?_ (by rw [viewAt, hn]; rfl),
    hword 2 (.nodeLeft i) _ (by omega) ?_ (by rw [viewAt, hn]; rfl),
    hword 3 (.nodeRight i) _ (by omega) ?_ (by rw [viewAt, hn]; rfl)⟩ <;>
  simp [bufferPlace, hdiv]

theorem nodeViews (hcfg : s.cfg.wf) : NodeViews s :=
  fun _ hi => ⟨fun _ _ hn => hostRead_node hcfg hi hn, fun _ _ _ hn => hostRead_node hcfg hi hn⟩

theorem bitViews (hcfg : s.cfg.wf) : BitViews s := by
  refine ⟨fun j hj => ?_, fun j hj => ?_⟩
  · have hpl : placeOf s.cfg 4 (wordOf j) = some (.codeWord j) := placeOf_wordOf (sp := .codebuf) hcfg rfl hj rfl
    refine ⟨_, by rw [hostRead, hpl, Option.map_some], fun q hq => ⟨fun hsize b hb => ?_, fun hsize => ?_⟩⟩
    · exact getLsbD_viewWord_bit _ hq hsize hb
    · exact getLsbD_viewWord_beyond _ hq hsize
  · have hpl : placeOf s.cfg 5 (wordOf j) = some (.bitWord j) := placeOf_wordOf (sp := .bitbuf) hcfg rfl hj rfl
    refine ⟨_, by rw [hostRead, hpl, Option.map_some], fun q hq hsize b hb => ?_⟩
    exact getLsbD_viewWord_bit _ hq hsize hb

/-- A Cell's word is the Cell below eight zero bits (R44). -/
theorem cellView_some (c : Cell) : cellView (some c) = wholeView ((0x00 : BitVec 8) ++ c) := by
  rw [cellView, Option.map_some, elementView_some]
  congr 1
  exact BitVec.setWidth_eq_append (by decide)

theorem elementViews (hcfg : s.cfg.wf) : ElementViews s := by
  refine ⟨fun i hi v hv => ?_, fun i hi w hw => ?_, fun i hi v hv => ?_, fun i hi c hc => ?_, fun i hi c hc => ?_,
    fun i hi v hv => ?_⟩
  · have hpl : placeOf s.cfg 1 (wordOf i) = some (.seqin i) := placeOf_wordOf (sp := .seqin) hcfg rfl hi rfl
    exact hostRead_of_view hpl (by rw [viewAt, hv, elementView_some])
  · have hpl : placeOf s.cfg 2 (wordOf (2 * i)) = some (.wtWeight i) :=
      placeOf_wordOf (sp := .wt) hcfg rfl (by rw [spaceWords]; omega) (by simp [bufferPlace])
    exact hostRead_of_view hpl (by rw [viewAt, hw, elementView_some])
  · have hodd : (2 * i + 1) % 2 = 1 ∧ (2 * i + 1) / 2 = i := by omega
    have hpl : placeOf s.cfg 2 (wordOf (2 * i + 1)) = some (.wtSymbol i) :=
      placeOf_wordOf (sp := .wt) hcfg rfl (by rw [spaceWords]; omega) (by simp [bufferPlace, hodd])
    exact hostRead_of_view hpl (by rw [viewAt, hv, elementView_some])
  · have hpl : placeOf s.cfg 6 (wordOf i) = some (.cell i) := placeOf_wordOf (sp := .cellbuf) hcfg rfl hi rfl
    exact hostRead_of_view hpl (by rw [viewAt, hc, cellView_some])
  · have hpl : placeOf s.cfg 7 (wordOf i) = some (.gridCell i) := placeOf_wordOf (sp := .grid) hcfg rfl hi rfl
    exact hostRead_of_view hpl (by rw [viewAt, hc, cellView_some])
  · have hpl : placeOf s.cfg 8 (wordOf i) = some (.symout i) := placeOf_wordOf (sp := .symout) hcfg rfl hi rfl
    exact hostRead_of_view hpl (by rw [viewAt, hv, elementView_some])

/-- What the host has still to do and what it last read are no part of what it reads. -/
theorem hostRead_hostSide (s : State) (moves : List HostMove) (w : Word) (space : BitVec 4) (index : Word) :
    hostRead { s with pending := moves, readData := w } space index = hostRead s space index := rfl

/-- Settles O49: a read depends on the block alone, and each view is its rule's. -/
theorem hostReadChangesNothing : Obligations.HostReadChangesNothing := by
  refine ⟨fun s space index v rest hp hread => ⟨?_, by rw [hostRead_hostSide, hread]⟩,
    fun s => ⟨registerViews s, fun hcfg => ⟨nodeViews hcfg, bitViews hcfg, elementViews hcfg⟩⟩⟩
  have hread' : hostRead { s with pending := rest } space index = some v := hread
  rw [step_cons hp, hostMove, hread']
  rfl

end Sys2Proof.Proofs
end

section
/-! ## Host writes (R22, R63, R67) -/

namespace Sys2Proof.Proofs

open Sys2Proof.Machine Sys2Proof.Safety

variable {s t : State} {space : BitVec 4} {sp : Space} {index v w : Word} {rest : List HostMove} {pl : Place}

/-- A write at an address other than `CMD`'s stores the word. -/
theorem step_write (hp : s.pending = .write space index v :: rest) (hpl : placeOf s.cfg space index = some pl)
    (hcmd : pl ≠ .reg .cmd) : step s = .next (store { s with pending := rest, epoch := s.epoch + 1 } v pl) := by
  have hpl' : placeOf ({ s with pending := rest } : State).cfg space index = some pl := hpl
  rw [step_cons hp]
  simp only [hostMove, hpl']
  rfl

/-- A write that goes on was at a defined address. -/
theorem exists_place_of_write (hp : s.pending = .write space index v :: rest) (h : step s = .next t) :
    ∃ pl, placeOf s.cfg space index = some pl := by
  rw [step_cons hp] at h
  cases hpl : placeOf s.cfg space index with
  | some pl => exact ⟨pl, rfl⟩
  | none =>
    have hpl' : placeOf ({ s with pending := rest } : State).cfg space index = none := hpl
    simp [hostMove, hpl'] at h

theorem storeReg_readOnly {r : Reg} (s : State) (v : Word) (h : regAccess r = .ro) : storeReg s v r = s := by
  cases r
  case arg | seqlen | nsym | nbits | ncells | totalbits | gw | gh => cases h
  all_goals rfl

/-- The arena, `CODEBUF` and `SYMOUT` ignore a write (R40, R42, R46). -/
theorem store_readOnly {i : Nat} (s : State) (v : Word) (hsp : sp = .node ∨ sp = .codebuf ∨ sp = .symout)
    (h : bufferPlace sp i = some pl) : store s v pl = s := by
  rcases hsp with rfl | rfl | rfl
  · simp only [bufferPlace, Option.some.injEq] at h
    split at h <;> subst h <;> rfl
  · cases h
    rfl
  · cases h
    rfl

/-- A write to a word of a read-only buffer changes nothing. -/
theorem step_write_readOnly (hp : s.pending = .write space index v :: rest) (hs : spaceOf space = some sp)
    (hsp : sp = .node ∨ sp = .codebuf ∨ sp = .symout) (hindex : index.toNat < spaceWords s.cfg sp) :
    step s = .next { s with pending := rest, epoch := s.epoch + 1 } := by
  obtain ⟨pl, hpl⟩ : ∃ pl, bufferPlace sp index.toNat = some pl := by
    rcases hsp with rfl | rfl | rfl <;> exact ⟨_, rfl⟩
  have hreg : sp ≠ .reg := by rcases hsp with rfl | rfl | rfl <;> decide
  have hcmd : pl ≠ .reg .cmd := fun h => bufferPlace_ne_reg (h ▸ hpl)
  rw [step_write hp ((placeOf_eq_some_iff hs hreg).2 ⟨hindex, hpl⟩) hcmd, store_readOnly _ v hsp hpl]

/-- Settles O51. -/
theorem writesToReadOnlyAreIgnored : Obligations.WritesToReadOnlyAreIgnored := by
  rintro s space index v rest hp (⟨r, hpl, hro⟩ | ⟨rfl, hindex⟩ | ⟨rfl, hindex⟩ | ⟨rfl, hindex⟩)
  · have hcmd : Place.reg r ≠ .reg .cmd := by
      rintro h
      cases h
      cases hro
    rw [step_write hp hpl hcmd, store, storeReg_readOnly _ v hro]
  · exact step_write_readOnly hp rfl (.inl rfl) hindex
  · exact step_write_readOnly hp rfl (.inr (.inl rfl)) hindex
  · exact step_write_readOnly hp rfl (.inr (.inr rfl)) hindex

/-- What a write leaves in the view of its place is what a read of the address then returns. -/
theorem hostRead_after_write (hp : s.pending = .write space index v :: rest) (h : step s = .next t)
    (hpl : placeOf s.cfg space index = some pl) (hcmd : pl ≠ .reg .cmd)
    (hview : ∀ u : State, u.cfg = s.cfg → viewAt (store u v pl) pl = wholeView w) :
    hostRead t space index = some w := by
  refine hostRead_of_view (pl := pl) (by rw [cfg_step h, hpl]) ?_
  rw [step_write hp hpl hcmd] at h
  cases h
  exact hview _ rfl

/-- The registers of the indices `0x07` to `0x0D` keep all 32 bits (R30 to R35). -/
theorem exists_lengthReg {n : Nat} (hlo : 0x07 ≤ n) (hhi : n ≤ 0x0D) :
    ∃ r, regOf n = some r ∧ r ≠ .cmd ∧ ∀ (s : State) (v : Word), regWord (storeReg s v r) r = v := by
  interval_cases n
  exacts [⟨.seqlen, rfl, by decide, fun _ _ => rfl⟩, ⟨.nsym, rfl, by decide, fun _ _ => rfl⟩,
    ⟨.nbits, rfl, by decide, fun _ _ => rfl⟩, ⟨.ncells, rfl, by decide, fun _ _ => rfl⟩,
    ⟨.totalbits, rfl, by decide, fun _ _ => rfl⟩, ⟨.gw, rfl, by decide, fun _ _ => rfl⟩,
    ⟨.gh, rfl, by decide, fun _ _ => rfl⟩]

/-- A Cell keeps the low 24 bits (R44, R67). -/
theorem cellView_setWidth (v : Word) : cellView (some (v.setWidth 24)) = wholeView (wordOf (v.toNat % 2 ^ 24)) := by
  rw [cellView, Option.map_some, elementView_some]
  congr 1
  apply BitVec.eq_of_toNat_eq
  simp [wordOf]

/-- Word `j` of `BITBUF` puts its bit `31 - q` into buffer bit `32j + q`, below `BITS_MAX` (R43, R64). -/
theorem read_writeRange_keptBits (p : Params) (m : Memory Bool) (v : Word) {j q : Nat} (hq : q < 32)
    (hsize : 32 * j + q < bitsMax p) :
    (m.writeRange (32 * j) (keptBits p j v)).read (32 * j + q) = some (v.getLsbD (31 - q)) := by
  have hlen : q < (keptBits p j v).length := by
    rw [keptBits, List.length_take, length_bitsOf]
    omega
  rw [Memory.read_writeRange, if_pos (by omega), Nat.add_sub_cancel_left, keptBits, List.getElem?_take_of_lt (by omega),
    getElem?_bitsOf _ hq]
  rfl

/-- Settles O53: each place keeps the bits of its rule, and its view gives them back. -/
theorem hostWritesAreNarrowed : Obligations.HostWritesAreNarrowed := by
  rintro s t space index v rest ⟨⟨-, hsymW⟩, -, ⟨-, hweightW, -⟩, -⟩ hp h
  obtain ⟨pl, hpl⟩ := exists_place_of_write hp h
  have hsym : keepLow s.cfg.symW v = wordOf (v.toNat % 2 ^ s.cfg.symW) := keepLow_eq hsymW v
  have hweight : keepLow s.cfg.weightW v = wordOf (v.toNat % 2 ^ s.cfg.weightW) := keepLow_eq hweightW v
  refine ⟨?_, ?_, ?_, ?_, ?_, ?_, ?_⟩
  · rintro rfl
    obtain ⟨-, hplace⟩ := (placeOf_eq_some_iff (sp := .seqin) rfl (by decide)).1 hpl
    cases hplace
    exact hostRead_after_write hp h hpl (by simp) fun u hu => by simp [store, viewAt, hu, hsym]
  · rintro rfl heven
    obtain ⟨-, hplace⟩ := (placeOf_eq_some_iff (sp := .wt) rfl (by decide)).1 hpl
    obtain rfl : .wtWeight (index.toNat / 2) = pl := by simpa [bufferPlace, heven] using hplace
    exact hostRead_after_write hp h hpl (by simp) fun u hu => by simp [store, viewAt, hu, hweight]
  · rintro rfl hodd
    obtain ⟨-, hplace⟩ := (placeOf_eq_some_iff (sp := .wt) rfl (by decide)).1 hpl
    obtain rfl : .wtSymbol (index.toNat / 2) = pl := by simpa [bufferPlace, hodd] using hplace
    exact hostRead_after_write hp h hpl (by simp) fun u hu => by simp [store, viewAt, hu, hsym]
  · rintro (rfl | rfl)
    · obtain ⟨-, hplace⟩ := (placeOf_eq_some_iff (sp := .cellbuf) rfl (by decide)).1 hpl
      cases hplace
      exact hostRead_after_write hp h hpl (by simp) fun u _ => by
        simp only [store, viewAt, Memory.read_write_same, cellView_setWidth]
    · obtain ⟨-, hplace⟩ := (placeOf_eq_some_iff (sp := .grid) rfl (by decide)).1 hpl
      cases hplace
      exact hostRead_after_write hp h hpl (by simp) fun u _ => by
        simp only [store, viewAt, Memory.read_write_same, cellView_setWidth]
  · rintro rfl rfl
    obtain rfl : Place.reg .arg = pl := Option.some.inj hpl
    exact hostRead_after_write hp h hpl (by simp) fun u hu => by simp [store, storeReg, viewAt, regWord, hu, hsym]
  · rintro rfl hlo hhi
    obtain ⟨r, hr, hcmd, hword⟩ := exists_lengthReg hlo hhi
    have hreg : placeOf s.cfg 0 index = some (.reg r) := congrArg (Option.map Place.reg) hr
    exact hostRead_after_write hp h hreg (by simpa using hcmd) fun u _ => by rw [store, viewAt, hword]
  · rintro rfl
    obtain ⟨-, hplace⟩ := (placeOf_eq_some_iff (sp := .bitbuf) rfl (by decide)).1 hpl
    cases hplace
    have hcfg := cfg_step h
    rw [step_write hp hpl (by simp)] at h
    cases h
    refine ⟨_, by rw [hostRead, hcfg, hpl, Option.map_some], fun q hq hsize => ?_⟩
    have hbit := read_writeRange_keptBits s.cfg s.bitbuf v hq hsize
    exact ⟨hbit, getLsbD_viewWord_bit _ hq hsize hbit⟩

end Sys2Proof.Proofs
end

/-! # Proofs of `20_memory.md`: undefined addresses, what one write changes, and the buffers' capacities -/

section
/-! ## The address map (R60, R61) -/

namespace Sys2Proof.Proofs

open Sys2Proof.Machine Sys2Proof.Safety

variable {p : Params} {space space' : BitVec 4} {sp : Space} {index index' : Word} {pl : Place} {r : Reg} {i : Nat}

/-- A defined address is a register's index in space 0, or a word of a buffer below the word count of its space. -/
theorem placeOf_cases (h : placeOf p space index = some pl) :
    (∃ r, spaceOf space = some .reg ∧ regOf index.toNat = some r ∧ pl = .reg r) ∨
      ∃ sp, spaceOf space = some sp ∧ sp ≠ .reg ∧ index.toNat < spaceWords p sp ∧
        bufferPlace sp index.toNat = some pl := by
  cases hs : spaceOf space with
  | none => simp [placeOf, hs] at h
  | some sp =>
    by_cases hsp : sp = .reg
    · subst hsp
      simp only [placeOf, hs, Option.map_eq_some_iff] at h
      obtain ⟨r, hr, rfl⟩ := h
      exact .inl ⟨r, rfl, hr, rfl⟩
    · obtain ⟨hindex, hplace⟩ := (placeOf_eq_some_iff hs hsp).1 h
      exact .inr ⟨sp, rfl, hsp, hindex, hplace⟩

/-- The index of a register in space 0, by its row of the register map. -/
def regIndex (r : Reg) : Nat := ((regRows.find? fun row => row.2 == r).map Prod.fst).getD 0

/-- The space and the index at which a place stands. -/
def placeAddress : Place → Space × Nat
  | .reg r => (.reg, regIndex r)
  | .seqin i => (.seqin, i)
  | .wtWeight i => (.wt, 2 * i)
  | .wtSymbol i => (.wt, 2 * i + 1)
  | .nodeWeight i => (.node, 4 * i)
  | .nodeSymbol i => (.node, 4 * i + 1)
  | .nodeLeft i => (.node, 4 * i + 2)
  | .nodeRight i => (.node, 4 * i + 3)
  | .codeWord j => (.codebuf, j)
  | .bitWord j => (.bitbuf, j)
  | .cell i => (.cellbuf, i)
  | .gridCell i => (.grid, i)
  | .symout i => (.symout, i)

theorem regIndex_of_mem_regRows : ∀ row ∈ regRows, regIndex row.2 = row.1 := by decide

theorem regIndex_of_regOf (h : regOf i = some r) : regIndex r = i := by
  obtain ⟨row, hrow, rfl⟩ := Option.map_eq_some_iff.1 h
  have hindex : row.1 = i := by simpa using List.find?_some hrow
  rw [regIndex_of_mem_regRows row (List.mem_of_find?_eq_some hrow), hindex]

theorem placeAddress_of_bufferPlace (h : bufferPlace sp i = some pl) : placeAddress pl = (sp, i) := by
  cases sp
  case reg => cases h
  case wt =>
    simp only [bufferPlace, Option.some.injEq] at h
    split at h <;> subst h <;> simp only [placeAddress, Prod.mk.injEq, true_and] <;> omega
  case node =>
    have hmod : i % 4 = 0 ∨ i % 4 = 1 ∨ i % 4 = 2 ∨ i % 4 = 3 := by omega
    rcases hmod with hmod | hmod | hmod | hmod <;>
    · simp only [bufferPlace, hmod, Option.some.injEq] at h
      subst h
      simp only [placeAddress, Prod.mk.injEq, true_and]
      omega
  all_goals
    cases h
    rfl

/-- A place stands at the address that names it, and a buffer's word below the word count of its space. -/
theorem placeAddress_of_placeOf (h : placeOf p space index = some pl) :
    spaceOf space = some (placeAddress pl).1 ∧ index.toNat = (placeAddress pl).2 ∧
      ((placeAddress pl).1 ≠ .reg → (placeAddress pl).2 < spaceWords p (placeAddress pl).1) := by
  rcases placeOf_cases h with ⟨r, hs, hr, rfl⟩ | ⟨sp, hs, -, hindex, hplace⟩
  · exact ⟨hs, (regIndex_of_regOf hr).symm, fun hreg => absurd rfl hreg⟩
  · rw [placeAddress_of_bufferPlace hplace]
    exact ⟨hs, rfl, fun _ => hindex⟩

theorem spaceOf_injective : ∀ a b : BitVec 4, spaceOf a = spaceOf b → spaceOf a ≠ none → a = b := by decide

/-- No place stands at two addresses. -/
theorem placeOf_injective (h : placeOf p space index = some pl) (h' : placeOf p space' index' = some pl) :
    space = space' ∧ index = index' := by
  obtain ⟨hs, hindex, -⟩ := placeAddress_of_placeOf h
  obtain ⟨hs', hindex', -⟩ := placeAddress_of_placeOf h'
  exact ⟨spaceOf_injective _ _ (hs.trans hs'.symm) (by simp [hs]), BitVec.eq_of_toNat_eq (hindex.trans hindex'.symm)⟩

end Sys2Proof.Proofs
end

section
/-! ## Every write stays within its buffer (R69, R131, R183) -/

namespace Sys2Proof.Proofs

open Sys2Proof.Machine Sys2Proof.Safety

variable {s u : State}

theorem within_write {α : Type} {size i : Nat} {m : Memory α} (hm : Within size m) (hi : i < size) (v : α) :
    Within size (m.write i v) := by
  intro e he
  rcases Memory.mem_write he with rfl | he
  · exact hi
  · exact hm e he

theorem within_writeRange {α : Type} {size i : Nat} {m : Memory α} {vs : List α} (hm : Within size m)
    (hvs : i + vs.length ≤ size) : Within size (m.writeRange i vs) := by
  intro e he
  rcases Memory.mem_writeRange he with ⟨-, hlt, -⟩ | he
  · exact hlt.trans_le hvs
  · exact hm e he

/-- A command writes its results from index 0 on. -/
theorem within_writeRange_zero {α : Type} {size : Nat} {m : Memory α} {vs : List α} (hm : Within size m)
    (hvs : vs.length ≤ size) : Within size (m.writeRange 0 vs) :=
  within_writeRange hm ((Nat.zero_add _).trans_le hvs)

theorem csqrt_le_csqrt {a b : Nat} (h : a ≤ b) : csqrt a ≤ csqrt b :=
  (csqrt_le_iff a _).2 (h.trans (csqrt_sq_ge b))

/-- A Grid is no higher than it is wide (R183). -/
theorem gridHeight_le_gridWidth (n : Nat) : gridHeight n ≤ gridWidth n := by
  rw [gridHeight]
  split
  · exact Nat.zero_le _
  · exact (cdiv_le_iff (gridWidth_pos ‹_›) _ _).2 (csqrt_sq_ge n)

/-- The Grid of a cell sequence that `CELLBUF` can hold fits `GRID` (R183). -/
theorem length_gridCells_le {p : Params} {cells : List Cell} (h : cells.length ≤ p.cellsMax) :
    (gridCells cells).length ≤ gridMax p := by
  have hwidth : gridWidth cells.length ≤ csqrt p.cellsMax := csqrt_le_csqrt h
  rw [length_gridCells, gridMax, pow_two]
  exact Nat.mul_le_mul hwidth ((gridHeight_le_gridWidth _).trans hwidth)

/-- The Code that ENCSYM finds in a valid tree fits `CODEBUF` (R131). -/
theorem exists_code_of_encsymBody (hcfg : s.cfg.wf) (htree : TreeInv s) (h : encsymBody s = .ok u) :
    ∃ code, code.length ≤ codeW s.cfg ∧ u = s.putCode code := by
  obtain ⟨htv, nodes, hlen, hnodes, i, hleaf, code, hcode, rfl⟩ := encsymBody_eq_ok.1 h
  obtain ⟨-, htreeOk, hroot⟩ := treeInv_valid hcfg htree htv
  rw [treeOf_eq_of_holds hlen hnodes] at htreeOk
  obtain ⟨hi, -⟩ := (leafOf_eq_some htreeOk).1 hleaf
  obtain ⟨code', hcode', -, -, -, hle⟩ := codeLengthsAreBounded _ _ _ _ htreeOk hi
  rw [hroot, hcode', Option.some.injEq] at hcode
  exact ⟨code, hcode ▸ hle, rfl⟩

/-- What each command writes is no longer than its buffer. -/
theorem buffersWithin_commandBody {i : Instr} (hcfg : s.cfg.wf) (htree : TreeInv s) (hs : BuffersWithin s)
    (h : commandBody s i = .ok u) : BuffersWithin u := by
  obtain ⟨seqin, wtW, wtS, node, codebuf, bitbuf, cellbuf, grid, symout⟩ := id hs
  cases i
  case nop => cases h; exact hs
  case reset => cases h; exact buffersWithin_of_atReset (atReset_resetBlock s)
  case trim => obtain ⟨-, -, rfl⟩ := trimBody_eq_ok.1 h; exact hs
  case count =>
    obtain ⟨-, seq, -, -, hlen, rfl⟩ := countBody_eq_ok.1 h
    exact ⟨seqin, within_writeRange_zero wtW (by simpa using hlen), within_writeRange_zero wtS (by simpa using hlen), node,
      codebuf, bitbuf, cellbuf, grid, symout⟩
  case build =>
    obtain ⟨nodes, rfl, ⟨hlen, -, hk⟩, -⟩ := exists_tree_of_buildBody hcfg h
    have hnodes : nodes.length ≤ nodeMax s.cfg := by rw [nodeMax]; omega
    exact ⟨seqin, wtW, wtS, within_writeRange_zero node hnodes, codebuf, bitbuf, cellbuf, grid, symout⟩
  case encsym =>
    obtain ⟨code, hlen, rfl⟩ := exists_code_of_encsymBody hcfg htree h
    exact ⟨seqin, wtW, wtS, node, within_writeRange_zero codebuf hlen, bitbuf, cellbuf, grid, symout⟩
  case encode =>
    obtain ⟨-, -, _, -, -, _, -, bits, -, hlen, rfl⟩ := encodeBody_eq_ok.1 h
    exact ⟨seqin, wtW, wtS, node, codebuf, within_writeRange_zero bitbuf hlen, cellbuf, grid, symout⟩
  case decode =>
    obtain ⟨-, -, _, -, -, _, -, -, out, -, hlen, rfl⟩ := decodeBody_eq_ok.1 h
    exact ⟨seqin, wtW, wtS, node, codebuf, bitbuf, cellbuf, grid, within_writeRange_zero symout hlen⟩
  case pack =>
    obtain ⟨hle, bits, hbits, -, rfl⟩ := packBody_eq_ok.1 h
    have hcells : (packFn bits).length ≤ s.cfg.cellsMax := by
      rw [length_packFn, hbits, cdiv_le_iff (by decide), Nat.mul_comm]
      exact hle
    exact ⟨seqin, wtW, wtS, node, codebuf, bitbuf, within_writeRange_zero cellbuf hcells, grid, symout⟩
  case unpack =>
    obtain ⟨hle, hneeded, cells, hcells, -, rfl⟩ := unpackBody_eq_ok.1 h
    have hbits : (unpackFn cells s.totalbits.toNat).length ≤ bitsMax s.cfg := by
      rw [length_unpackFn (hcells.trans hneeded), bitsMax, Nat.mul_comm, ← cdiv_le_iff (by decide)]
      exact hneeded.symm.trans_le hle
    exact ⟨seqin, wtW, wtS, node, codebuf, within_writeRange_zero bitbuf hbits, cellbuf, grid, symout⟩
  case togrid =>
    obtain ⟨hle, cells, hcells, -, rfl⟩ := togridBody_eq_ok.1 h
    have hgrid : (gridCells cells).length ≤ gridMax s.cfg := length_gridCells_le (hcells ▸ hle)
    exact ⟨seqin, wtW, wtS, node, codebuf, bitbuf, cellbuf, within_writeRange_zero grid hgrid, symout⟩
  case fromgrid =>
    obtain ⟨hle, cells, hcells, -, rfl⟩ := fromgridBody_eq_ok.1 h
    exact ⟨seqin, wtW, wtS, node, codebuf, bitbuf, within_writeRange_zero cellbuf (hcells.trans_le hle), grid, symout⟩

/-- A write of a word of `BITBUF` ends at `BITS_MAX` (R43). -/
theorem keptBits_within {p : Params} {j : Nat} (hj : j < bitWords p) (v : Word) :
    32 * j + (keptBits p j v).length ≤ bitsMax p := by
  have hlt : ¬ cdiv (bitsMax p) 32 ≤ j := Nat.not_le.2 hj
  rw [cdiv_le_iff (by decide)] at hlt
  rw [keptBits, List.length_take]
  omega

/-- A host write at a defined address is to an element of the buffer (R61, R69). -/
theorem buffersWithin_store (hs : BuffersWithin s) {space : BitVec 4} {index : Word} {pl : Place} (v : Word)
    (hpl : placeOf s.cfg space index = some pl) : BuffersWithin (store s v pl) := by
  obtain ⟨seqin, wtW, wtS, node, codebuf, bitbuf, cellbuf, grid, symout⟩ := id hs
  obtain ⟨-, -, hlt⟩ := placeAddress_of_placeOf hpl
  cases pl with
  | reg r => cases r <;> exact hs
  | seqin i =>
    have hi : i < s.cfg.seqMax := hlt nofun
    exact ⟨within_write seqin hi _, wtW, wtS, node, codebuf, bitbuf, cellbuf, grid, symout⟩
  | wtWeight i =>
    have hi : 2 * i < 2 * s.cfg.kMax := hlt nofun
    exact ⟨seqin, within_write wtW (by omega) _, wtS, node, codebuf, bitbuf, cellbuf, grid, symout⟩
  | wtSymbol i =>
    have hi : 2 * i + 1 < 2 * s.cfg.kMax := hlt nofun
    exact ⟨seqin, wtW, within_write wtS (by omega) _, node, codebuf, bitbuf, cellbuf, grid, symout⟩
  | bitWord j =>
    have hj : j < bitWords s.cfg := hlt nofun
    exact ⟨seqin, wtW, wtS, node, codebuf, within_writeRange bitbuf (keptBits_within hj v), cellbuf, grid, symout⟩
  | cell i =>
    have hi : i < s.cfg.cellsMax := hlt nofun
    exact ⟨seqin, wtW, wtS, node, codebuf, bitbuf, within_write cellbuf hi _, grid, symout⟩
  | gridCell i =>
    have hi : i < gridMax s.cfg := hlt nofun
    exact ⟨seqin, wtW, wtS, node, codebuf, bitbuf, cellbuf, within_write grid hi _, symout⟩
  | _ => exact hs

/-- Settles O58: a host write is below the word count of its space, and a command's results fit by its checks, R131 and
R183. -/
theorem stepKeepsBuffersWithinCapacity : Obligations.StepKeepsBuffersWithinCapacity := by
  rintro s t ⟨-, hs, ⟨hcfg, -⟩, -, htree⟩ h
  have hmove : BuffersWithin s.dropMove.tick := hs
  rcases step_cases h with ⟨-, rfl⟩ | ⟨_, _, _, _, -, -, rfl⟩ | ⟨_, _, v, _, _, -, hpl, -, rfl⟩ |
    ⟨_, _, _, _, i, -, -, -, hexec⟩ | ⟨_, _, _, _, _, -, -, -, rfl⟩ | ⟨_, -, rfl⟩
  · exact hs
  · exact hs
  · exact buffersWithin_store hmove v hpl
  · exact exec_induction (Q := BuffersWithin) hexec (fun _ _ => hs) fun u hu =>
      buffersWithin_commandBody (s := s.dropMove.tick) (u := u) hcfg htree hmove hu
  · exact hs
  · exact buffersWithin_of_atReset (atReset_resetBlock _)

end Sys2Proof.Proofs
end

section
/-! ## Undefined addresses (R70) -/

namespace Sys2Proof.Proofs

open Sys2Proof.Machine Sys2Proof.Safety

variable {s : State} {p : Params} {space : BitVec 4} {index v : Word} {rest : List HostMove}

theorem spaceOf_eq_none : ∀ space : BitVec 4, 9 ≤ space.toNat → spaceOf space = none := by decide

theorem index_of_mem_regRows :
    ∀ row ∈ regRows, ¬ (0x13 ≤ row.1 ∧ row.1 ≤ 0x17) ∧ row.1 < 0x1D := by decide

/-- The register list ends below `0x1D` and leaves out `0x13` to `0x17` (R61). -/
theorem regOf_eq_none {i : Nat} (h : (0x13 ≤ i ∧ i ≤ 0x17) ∨ 0x1D ≤ i) : regOf i = none := by
  rw [regOf, Option.map_eq_none_iff, List.find?_eq_none]
  intro row hrow heq
  have hindex := index_of_mem_regRows row hrow
  rw [beq_iff_eq] at heq
  omega

/-- The three kinds of undefined addresses (R70). -/
theorem placeOf_eq_none (h : 9 ≤ space.toNat ∨
    (space = 0 ∧ ((0x13 ≤ index.toNat ∧ index.toNat ≤ 0x17) ∨ 0x1D ≤ index.toNat)) ∨
    ∃ sp, spaceOf space = some sp ∧ sp ≠ .reg ∧ spaceWords p sp ≤ index.toNat) : placeOf p space index = none := by
  rcases h with hspace | ⟨rfl, hindex⟩ | ⟨sp, hs, hsp, hindex⟩
  · rw [placeOf, spaceOf_eq_none space hspace]
  · have hpl : placeOf p 0 index = (regOf index.toNat).map Place.reg := rfl
    rw [hpl, regOf_eq_none hindex]
    rfl
  · rw [Option.eq_none_iff_forall_ne_some]
    intro pl hpl
    obtain ⟨hlt, -⟩ := (placeOf_eq_some_iff hs hsp).1 hpl
    omega

theorem step_read_undefined (hp : s.pending = .read space index :: rest) (hpl : placeOf s.cfg space index = none) :
    step s = .refused (.undefinedAddress space index) := by
  have hread : hostRead { s with pending := rest } space index = none := by
    rw [hostRead, hpl]
    rfl
  rw [step_cons hp]
  simp only [hostMove, hread]

theorem step_write_undefined (hp : s.pending = .write space index v :: rest)
    (hpl : placeOf s.cfg space index = none) : step s = .refused (.undefinedAddress space index) := by
  have hpl' : placeOf ({ s with pending := rest } : State).cfg space index = none := hpl
  rw [step_cons hp]
  simp only [hostMove, hpl']

/-- Settles O50. -/
theorem undefinedAddressesAreRefused : Obligations.UndefinedAddressesAreRefused :=
  fun _ _ _ _ _ h =>
    ⟨fun hp => step_read_undefined hp (placeOf_eq_none h), fun hp => step_write_undefined hp (placeOf_eq_none h)⟩

end Sys2Proof.Proofs
end

section
/-! ## What one host write changes (R63) -/

namespace Sys2Proof.Proofs

open Sys2Proof.Machine Sys2Proof.Safety

/-- The word of a bit buffer depends on its own 32 bits alone. -/
theorem bitWordView_congr {m m' : Memory Bool} {size j : Nat} {beyond : Bool × Bool}
    (h : ∀ q < 32, m'.read (32 * j + q) = m.read (32 * j + q)) :
    bitWordView m' size beyond j = bitWordView m size beyond j := by
  have hbits : ∀ q ∈ List.range 32, bitView m' size beyond (32 * j + q) = bitView m size beyond (32 * j + q) :=
    fun q hq => by simp only [bitView, h q (List.mem_range.1 hq)]
  simp only [bitWordView, List.map_congr_left hbits]

/-- The bits of one word of `BITBUF` are no other word's (R43). -/
theorem read_writeRange_keptBits_other (p : Params) (m : Memory Bool) (v : Word) {j j' q : Nat} (hj : j ≠ j')
    (hq : q < 32) : (m.writeRange (32 * j) (keptBits p j v)).read (32 * j' + q) = m.read (32 * j' + q) := by
  have hlen : (keptBits p j v).length ≤ 32 := by
    rw [keptBits, List.length_take, length_bitsOf]
    omega
  rw [Memory.read_writeRange, if_neg (by omega)]

/-- A write of one register leaves the words of the others. -/
theorem regWord_storeReg_other (s : State) (v : Word) {r r' : Reg} (h : r ≠ r') :
    regWord (storeReg s v r) r' = regWord s r' := by
  cases r
  case arg | seqlen | nsym | nbits | ncells | totalbits | gw | gh =>
    cases r' <;> simp [storeReg, regWord] at h ⊢
  all_goals rfl

/-- A write of one place leaves the views of the others. -/
theorem viewAt_store_other (s : State) (v : Word) {pl pl' : Place} (h : pl ≠ pl') :
    viewAt (store s v pl) pl' = viewAt s pl' := by
  cases pl with
  | reg r =>
    cases pl' with
    | reg r' => exact congrArg wholeView (regWord_storeReg_other s v (mt (congrArg Place.reg) h))
    | _ => cases r <;> rfl
  | seqin i =>
    cases pl' with
    | seqin i' => simp only [store, viewAt, Memory.read_write_other _ (mt (congrArg Place.seqin) h)]
    | _ => rfl
  | wtWeight i =>
    cases pl' with
    | wtWeight i' => simp only [store, viewAt, Memory.read_write_other _ (mt (congrArg Place.wtWeight) h)]
    | _ => rfl
  | wtSymbol i =>
    cases pl' with
    | wtSymbol i' => simp only [store, viewAt, Memory.read_write_other _ (mt (congrArg Place.wtSymbol) h)]
    | _ => rfl
  | bitWord j =>
    cases pl' with
    | bitWord j' =>
      have hj : j ≠ j' := mt (congrArg Place.bitWord) h
      exact bitWordView_congr fun q hq => read_writeRange_keptBits_other s.cfg s.bitbuf v hj hq
    | _ => rfl
  | cell i =>
    cases pl' with
    | cell i' => simp only [store, viewAt, Memory.read_write_other _ (mt (congrArg Place.cell) h)]
    | _ => rfl
  | gridCell i =>
    cases pl' with
    | gridCell i' => simp only [store, viewAt, Memory.read_write_other _ (mt (congrArg Place.gridCell) h)]
    | _ => rfl
  | _ => rfl

/-- Settles O52: two addresses are two places, and a write changes the view of one place. -/
theorem hostWriteChangesOneElement : Obligations.HostWriteChangesOneElement := by
  intro s t space space' index index' v rest pl' hp hnotCmd h hother hpl'
  obtain ⟨pl, hpl⟩ := exists_place_of_write hp h
  have hcmd : pl ≠ .reg .cmd := fun heq => hnotCmd (placeOf_eq_cmd (heq ▸ hpl))
  have hne : pl ≠ pl' := fun heq => hother (placeOf_injective hpl (heq ▸ hpl'))
  rw [step_write hp hpl hcmd] at h
  cases h
  exact viewAt_store_other _ v hne

end Sys2Proof.Proofs
end

/-! # Proofs of `30_encoding.md`: command words, and the whole path of R97 -/

section
/-! ## The encoder and the decoder (R90 to R94) -/

namespace Sys2Proof.Proofs

open Sys2Proof.Machine Sys2Proof.Safety

variable {c : Word}

/-- The opcode map has every command's opcode in that command's row (R92). -/
theorem decode_encode (i : Instr) : decode (encode i) = .ok i := by
  cases i <;> rfl

/-- Settles O1. -/
theorem decodeAndEncodeAgree : Obligations.DecodeAndEncodeAgree :=
  ⟨fun i _ => decode_encode i, fun _ _ => encode_of_decode⟩

/-- Settles O2: the first seven words are those of the encoder, and each of the other two fails a check of R91. -/
theorem sampleWordsDecode : Obligations.SampleWordsDecode :=
  ⟨decode_encode .nop, decode_encode .count, decode_encode .build, decode_encode .decode, decode_encode .unpack,
    decode_encode .togrid, decode_encode .reset, rfl, rfl⟩

/-- "The full command words are `0x00000000` to `0x0000000A` and `0x0000000F`" (R92). -/
theorem toNat_encode (i : Instr) : (encode i).toNat ≤ 0x0A ∨ (encode i).toNat = 0x0F := by
  cases i <;> decide

theorem toNat_of_decode {i : Instr} (h : decode c = .ok i) : c.toNat ≤ 0x0A ∨ c.toNat = 0x0F :=
  encode_of_decode h ▸ toNat_encode i

/-- Settles O4: no such word is that of a command. -/
theorem illegalWordsRaise : Obligations.IllegalWordsRaise := by
  intro s c rest hcmd hillegal
  rw [step_of_commands hcmd]
  rcases issue_cases c { s with pending := rest, epoch := s.epoch + 1 } with ⟨i, hdecode, -⟩ | ⟨-, hraise⟩
  · have hlegal := toNat_of_decode hdecode
    omega
  · exact hraise

end Sys2Proof.Proofs
end

section
/-! ## The frequency table of a sequence (R110, R111) -/

namespace Sys2Proof.Proofs

open Sys2Proof.Machine Sys2Proof.Safety

variable {seq : List Symbol}

theorem symbols_countOne (v : Symbol) (t : List (Nat × Symbol)) :
    (countOne v t).map Prod.snd = if v ∈ t.map Prod.snd then t.map Prod.snd else t.map Prod.snd ++ [v] := by
  induction t with
  | nil => rfl
  | cons e rest ih =>
    rw [countOne]
    split
    · simp [*]
    · rename_i hne
      simp only [List.map_cons, ih, List.mem_cons, Ne.symm hne, false_or]
      split <;> rfl

/-- The Symbols of the table are those of the sequence, each once. -/
theorem symbols_countTable (seq : List Symbol) :
    ((countTable seq).map Prod.snd).Nodup ∧ ∀ v, v ∈ (countTable seq).map Prod.snd ↔ v ∈ seq := by
  induction seq using List.reverseRecOn with
  | nil => exact ⟨List.nodup_nil, fun _ => Iff.rfl⟩
  | append_singleton seq u ih =>
    obtain ⟨hnodup, hmem⟩ := ih
    rw [countTable_append_singleton, symbols_countOne]
    split
    · rename_i hu
      refine ⟨hnodup, fun v => (hmem v).trans ?_⟩
      rw [hmem u] at hu
      rw [List.mem_append, List.mem_singleton]
      exact ⟨.inl, fun h => h.elim id fun hv => hv ▸ hu⟩
    · rename_i hu
      exact ⟨hnodup.append (List.nodup_singleton u) (List.disjoint_singleton.2 hu), fun v => by
        rw [List.mem_append, List.mem_append, hmem v]⟩

/-- The table has one entry for each distinct Symbol. -/
theorem length_countTable (seq : List Symbol) : (countTable seq).length = seq.dedup.length := by
  obtain ⟨hnodup, hmem⟩ := symbols_countTable seq
  have hperm : ((countTable seq).map Prod.snd).Perm seq.dedup :=
    (List.perm_ext_iff_of_nodup hnodup seq.nodup_dedup).2 fun v => (hmem v).trans List.mem_dedup.symm
  rw [← hperm.length_eq, List.length_map]

theorem one_le_of_mem_countOne {v : Symbol} {t : List (Nat × Symbol)} (ht : ∀ e ∈ t, 1 ≤ e.1) :
    ∀ e ∈ countOne v t, 1 ≤ e.1 := by
  induction t with
  | nil => simp [countOne]
  | cons e rest ih =>
    rw [List.forall_mem_cons] at ht
    rw [countOne]
    split
    · exact List.forall_mem_cons.2 ⟨Nat.le_add_left 1 e.1, ht.2⟩
    · exact List.forall_mem_cons.2 ⟨ht.1, ih ht.2⟩

theorem one_le_of_mem_countTable : ∀ e ∈ countTable seq, 1 ≤ e.1 := by
  induction seq using List.reverseRecOn with
  | nil => simp [countTable]
  | append_singleton seq v ih =>
    rw [countTable_append_singleton]
    exact one_le_of_mem_countOne ih

/-- The weights COUNT writes. -/
def countWeights (seq : List Symbol) : List Weight := (countTable seq).map fun e => wordOf e.1

/-- The Symbols COUNT writes. -/
def countSymbols (seq : List Symbol) : List Symbol := (countTable seq).map Prod.snd

@[simp] theorem length_countWeights (seq : List Symbol) : (countWeights seq).length = seq.dedup.length := by
  rw [countWeights, List.length_map, length_countTable]

@[simp] theorem length_countSymbols (seq : List Symbol) : (countSymbols seq).length = seq.dedup.length := by
  rw [countSymbols, List.length_map, length_countTable]

/-- Every count fits a word, so the weights are the counts. -/
theorem toNat_countWeights (h : seq.length < 2 ^ 32) :
    (countWeights seq).map BitVec.toNat = (countTable seq).map Prod.fst := by
  rw [countWeights, List.map_map]
  exact List.map_congr_left fun e he => toNat_wordOf ((count_le_length he).trans_lt h)

theorem weightSum_countWeights (h : seq.length < 2 ^ 32) : weightSum (countWeights seq) = seq.length := by
  rw [weightSum, toNat_countWeights h, sum_countTable]

theorem countWeights_ne_zero (h : seq.length < 2 ^ 32) : ∀ w ∈ countWeights seq, w ≠ 0 := by
  rintro w hw rfl
  have hmem : (0 : Weight).toNat ∈ (countTable seq).map Prod.fst :=
    toNat_countWeights h ▸ List.mem_map_of_mem hw
  obtain ⟨e, he, hzero⟩ := List.mem_map.1 hmem
  have hpos := one_le_of_mem_countTable e he
  rw [hzero] at hpos
  exact absurd hpos (by decide)

end Sys2Proof.Proofs
end

section
/-! ## Decoding undoes encoding (R142 to R145, R147) -/

namespace Sys2Proof.Proofs

open Sys2Proof.Machine Sys2Proof.Safety

variable {p : Params} {nodes : List Node} {root k : Nat} {seq : List Symbol} {bits : List Bool}

@[simp] theorem encodeFn_nil : encodeFn nodes root k [] = some [] := rfl

/-- The encoding of a sequence begins with the Code of its first Symbol. -/
theorem encodeFn_cons {v : Symbol} :
    encodeFn nodes root k (v :: seq) = some bits ↔ ∃ i code rest, leafOf nodes k v = some i ∧
      codeOf nodes root k i = some code ∧ encodeFn nodes root k seq = some rest ∧ bits = code ++ rest := by
  simp only [encodeFn, List.mapM_cons]
  cases leafOf nodes k v with
  | none => simp
  | some i =>
    cases seq.mapM (leafOf nodes k) with
    | none => simp
    | some leaves =>
      simp only [Option.bind_eq_bind, Option.bind_some, Option.pure_def, encodeLeaves]
      cases hcode : codeOf nodes root k i <;> cases encodeLeaves nodes root k leaves <;>
        simp [hcode, eq_comm (a := bits)]

/-- A sequence of Symbols of the tree has an encoding. -/
theorem exists_encodeFn (h : TreeOk p nodes k) (hseq : ∀ v ∈ seq, HasLeaf nodes k v) :
    ∃ bits, encodeFn nodes (2 * k - 2) k seq = some bits := by
  induction seq with
  | nil => exact ⟨[], rfl⟩
  | cons v seq ih =>
    obtain ⟨⟨i, hi, w, hleaf⟩, hseq⟩ := List.forall_mem_cons.1 hseq
    obtain ⟨code, hcode, -⟩ := codeLengthsAreBounded p nodes k i h hi
    obtain ⟨rest, hrest⟩ := ih hseq
    exact ⟨code ++ rest, encodeFn_cons.2 ⟨i, code, rest, (leafOf_eq_some h).2 ⟨hi, w, hleaf⟩, hcode, hrest, rfl⟩⟩

/-- The walk of `decode_fn` along bits that lead to a leaf gives its Symbol and starts again at the root (R144). -/
theorem decodeWalk_append {cur q start i : Nat} {w : Weight} {v : Symbol} {more : List Bool} (hne : bits ≠ [])
    (hwalk : walkDown nodes cur bits = some i) (hleaf : nodes[i]? = some (.leaf w v)) :
    ∃ q', decodeWalk nodes root (bits ++ more) cur q start = emit v (decodeWalk nodes root more root q' q') := by
  induction bits generalizing cur q with
  | nil => exact absurd rfl hne
  | cons b bits ih =>
    obtain ⟨c, hchild, hwalk⟩ := Option.bind_eq_some_iff.1 hwalk
    obtain ⟨_, l, r, hcur, hc⟩ := childAt_eq_some.1 hchild
    simp only [List.cons_append, decodeWalk, hcur, ← hc]
    cases bits with
    | nil =>
      cases hwalk
      simp only [hleaf]
      exact ⟨_, rfl⟩
    | cons b' bits =>
      obtain ⟨c', hchild', -⟩ := Option.bind_eq_some_iff.1 hwalk
      obtain ⟨_, _, _, hinner, -⟩ := childAt_eq_some.1 hchild'
      simp only [hinner]
      exact ih (List.cons_ne_nil _ _) hwalk

/-- Two or more leaves: the walk reads one Code after the other (R144). -/
theorem decodeWalk_encodeFn (h : TreeOk p nodes k) (hk : 2 ≤ k)
    (henc : encodeFn nodes (2 * k - 2) k seq = some bits) (q : Nat) :
    decodeWalk nodes (2 * k - 2) bits (2 * k - 2) q q = .ok seq := by
  induction seq generalizing bits q with
  | nil =>
    cases henc
    simp [decodeWalk]
  | cons v seq ih =>
    obtain ⟨i, code, rest, hleaf, hcode, hrest, rfl⟩ := encodeFn_cons.1 henc
    obtain ⟨hi, w, hnode⟩ := (leafOf_eq_some h).1 hleaf
    obtain ⟨code', hcode', hpos, -⟩ := codeLengthsAreBounded p nodes k i h hi
    obtain rfl : code' = code := Option.some.inj (hcode'.symm.trans hcode)
    rw [codeOf, if_neg (by omega)] at hcode
    obtain ⟨q', hwalk⟩ := decodeWalk_append (root := 2 * k - 2) (q := q) (start := q) (more := rest)
      (List.ne_nil_of_length_pos hpos) (walkDown_of_pathUp hcode) hnode
    rw [hwalk, ih hrest q', emit]

/-- One leaf: each bit 0 is one Symbol (R145). -/
theorem decodeOneLeaf_encodeFn (h : TreeOk p nodes 1) {w : Weight} {u : Symbol} (hnode : nodes[0]? = some (.leaf w u))
    (henc : encodeFn nodes root 1 seq = some bits) (q : Nat) : decodeOneLeaf u bits q = .ok seq := by
  induction seq generalizing bits q with
  | nil =>
    cases henc
    rfl
  | cons v seq ih =>
    obtain ⟨i, code, rest, hleaf, hcode, hrest, rfl⟩ := encodeFn_cons.1 henc
    obtain ⟨hi, _, hnode'⟩ := (leafOf_eq_some h).1 hleaf
    obtain rfl : i = 0 := by omega
    cases hcode
    cases hnode.symm.trans hnode'
    simp [decodeOneLeaf, ih hrest, emit]

/-- R147 item 2: `decode_fn(encode_fn(seq)) = ok(seq)`. -/
theorem decodeFn_encodeFn (h : TreeOk p nodes k) (henc : encodeFn nodes (2 * k - 2) k seq = some bits) :
    decodeFn nodes (2 * k - 2) k bits = .ok seq := by
  obtain ⟨-, hk, -⟩ := h.1
  rw [decodeFn]
  split
  · exact decodeWalk_encodeFn h ‹_› henc 0
  · obtain rfl : k = 1 := by omega
    obtain ⟨w, v, hnode⟩ := exists_leaf h (i := 0) (by omega)
    rw [if_pos rfl, List.head?_eq_getElem?, hnode]
    exact decodeOneLeaf_encodeFn h hnode henc 0

end Sys2Proof.Proofs
end

section
/-! ## Unpacking undoes packing (R161, R163, R169) -/

namespace Sys2Proof.Proofs

open Sys2Proof.Machine Sys2Proof.Safety

variable {bits : List Bool}

theorem length_chunk (bits : List Bool) (j : Nat) : (chunk bits j).length = chunkLength bits.length j := by
  simp [chunk, chunkLength, cellW]

/-- The meaningful bits of a Cell of a packed stream are as many as its chunk has. -/
theorem meaningful_eq_chunkLength {t j : Nat} (hj : j < cdiv t cellW) :
    meaningful (cdiv t cellW) t j = chunkLength t j := by
  have hle : t ≤ cdiv t cellW * cellW := le_cdiv_mul (by decide) t
  have hlt : ¬ cdiv t cellW ≤ cdiv t cellW - 1 := by omega
  rw [cdiv_le_iff (by decide)] at hlt
  unfold meaningful chunkLength
  generalize cdiv t cellW = n at *
  simp only [cellW] at *
  split <;> omega

/-- The Cell of a chunk is the number the chunk spells: 24 bits are enough for it. -/
theorem toNat_cell_chunk (bits : List Bool) (j : Nat) :
    (BitVec.ofNat 24 (bitsVal (chunk bits j))).toNat = bitsVal (chunk bits j) := by
  rw [BitVec.toNat_ofNat, Nat.mod_eq_of_lt]
  have hlen : (chunk bits j).length ≤ 24 := length_chunk bits j ▸ Nat.min_le_left _ _
  exact (bitsVal_lt _).trans_le (Nat.pow_le_pow_right (by decide) hlen)

theorem flatMap_chunk (bits : List Bool) (n : Nat) : (List.range n).flatMap (chunk bits) = bits.take (cellW * n) := by
  induction n with
  | zero => rfl
  | succ n ih => simp [List.range_succ, ih, Nat.mul_succ, List.take_add, chunk]

theorem unpackFn_packFn (bits : List Bool) : unpackFn (packFn bits) bits.length = bits := by
  have hzip : (packFn bits).zipIdx = (List.range (cdiv bits.length cellW)).map
      fun j => (BitVec.ofNat 24 (bitsVal (chunk bits j)), j) :=
    List.ext_getElem (by simp [packFn]) (by simp [packFn])
  have hchunk : ∀ j ∈ List.range (cdiv bits.length cellW),
      bitsOf (meaningful (packFn bits).length bits.length j) (BitVec.ofNat 24 (bitsVal (chunk bits j))).toNat =
        chunk bits j := fun j hj => by
    rw [length_packFn, meaningful_eq_chunkLength (List.mem_range.1 hj), ← length_chunk, toNat_cell_chunk,
      bitsOf_bitsVal]
  rw [unpackFn, hzip, List.flatMap_map, List.flatMap_congr hchunk, flatMap_chunk, Nat.mul_comm]
  exact List.take_of_length_le (le_cdiv_mul (by decide) _)

/-- A stream that `BITBUF` can hold packs into Cells that `CELLBUF` can hold. -/
theorem length_packFn_le {p : Params} (h : bits.length ≤ bitsMax p) : (packFn bits).length ≤ p.cellsMax := by
  rw [length_packFn, cdiv_le_iff (by decide), Nat.mul_comm]
  exact h

end Sys2Proof.Proofs
end

section
/-! ## The Grid begins with its Cells (R180 to R183) -/

namespace Sys2Proof.Proofs

open Sys2Proof.Machine Sys2Proof.Safety

theorem le_gridWidth_mul_gridHeight (n : Nat) : n ≤ gridWidth n * gridHeight n := by
  rw [gridHeight]
  split
  · omega
  · rw [Nat.mul_comm]
    exact le_cdiv_mul (gridWidth_pos ‹_›) n

theorem prefix_gridCells (cells : List Cell) : cells <+: gridCells cells := by
  rw [List.prefix_iff_getElem?]
  intro i hi
  have hin : i < gridWidth cells.length * gridHeight cells.length :=
    hi.trans_le (le_gridWidth_mul_gridHeight _)
  simp [gridCells, hin, hi]

/-- What holds a list holds its beginnings. -/
theorem holds_of_prefix {α : Type} {m : Memory α} {vs us : List α} (h : Holds m us) (hvs : vs <+: us) : Holds m vs := by
  intro j hj
  rw [h j (hj.trans_le hvs.length_le), List.prefix_iff_getElem?.1 hvs j hj, List.getElem?_eq_getElem hj]

end Sys2Proof.Proofs
end

section
/-! ## Commands that succeed (R99) -/

namespace Sys2Proof.Proofs

open Sys2Proof.Machine Sys2Proof.Safety

variable {s t u : State} {i : Instr}

theorem exec_of_body (h : commandBody s i = .ok u) : exec i s = .next u.succeed := by
  rw [exec_eq_commit, h, commit_ok]

/-- A command that leaves `ERR` 0 has made its body's writes. -/
theorem exists_body_of_exec (h : exec i s = .next t) (herr : t.err = 0) :
    ∃ u, commandBody s i = .ok u ∧ t = u.succeed := by
  rcases exec_body_cases h with hbody | ⟨e, info, rfl⟩
  · exact hbody
  · exact absurd herr (errCode_ne_zero e)

/-- The parameters, `ERRACC` and the tree are as before. -/
def SameTree (s t : State) : Prop :=
  t.cfg = s.cfg ∧ t.erracc = s.erracc ∧ t.node = s.node ∧ t.root = s.root ∧ t.nnodes = s.nnodes ∧ t.tv = s.tv

theorem SameTree.trans (h : SameTree s t) (h' : SameTree t u) : SameTree s u := by
  obtain ⟨hcfg, hacc, hnode, hroot, hnnodes, htv⟩ := h
  simpa only [SameTree, hcfg, hacc, hnode, hroot, hnnodes, htv] using h'

/-- No command but BUILD and RESET changes them when it succeeds (R26, R28, R126). -/
theorem sameTree_of_body (h : commandBody s i = .ok u) (hb : i ≠ .build) (hr : i ≠ .reset) : SameTree s u.succeed :=
  have hwrites := writes_of_commandBody h
  ⟨hwrites.cfg, hwrites.erracc hr, hwrites.tree hb hr⟩

theorem SameTree.treeInv (h : SameTree s t) (hs : TreeInv s) : TreeInv t := by
  obtain ⟨hcfg, -, htree⟩ := h
  exact treeInv_congr hcfg htree hs

theorem SameTree.treeOf (h : SameTree s t) : treeOf t = treeOf s ∧ leafCount t = leafCount s := by
  obtain ⟨-, -, hnode, -, hnnodes, -⟩ := h
  simp only [Safety.treeOf, leafCount, hnode, hnnodes, and_self]

/-- Where its nodes are written, the tree has in its place what the arena has. -/
theorem getElem?_treeOf (h : ∀ n < s.nnodes.toNat, (s.node.read n).isSome = true) {n : Nat} (hn : n < s.nnodes.toNat) :
    (treeOf s)[n]? = s.node.read n := by
  obtain ⟨nodes, hlen, hnodes⟩ := exists_holds h
  rw [treeOf_eq_of_holds hlen hnodes, hnodes n (by omega)]

end Sys2Proof.Proofs
end

section
/-! ## PACK, UNPACK, TRIM, TOGRID, FROMGRID succeed -/

namespace Sys2Proof.Proofs

open Sys2Proof.Machine Sys2Proof.Safety

variable {s : State} {bits : List Bool} {cells : List Cell}

/-- PACK (R162). -/
theorem exists_pack (hcfg : s.cfg.wf) (hlen : bits.length = s.nbits.toNat) (hstream : Holds s.bitbuf bits)
    (hmax : bits.length ≤ bitsMax s.cfg) :
    ∃ t, exec .pack s = .next t ∧ t.err = 0 ∧ SameTree s t ∧ (packFn bits).length = t.ncells.toNat ∧
      Holds t.cellbuf (packFn bits) ∧ t.totalbits = s.nbits := by
  obtain ⟨-, -, -, -, -, hcellsMax⟩ := hcfg
  have hcells : (packFn bits).length ≤ s.cfg.cellsMax := length_packFn_le hmax
  have hbody : commandBody s .pack = .ok _ := packBody_eq_ok.2 ⟨hlen ▸ hmax, bits, hlen, hstream, rfl⟩
  exact ⟨_, exec_of_body hbody, rfl, sameTree_of_body hbody nofun nofun, (toNat_wordOf (by omega)).symm,
    Memory.holds_writeRange s.cellbuf _, wordOf_toNat s.nbits⟩

/-- UNPACK (R165). -/
theorem exists_unpack (hlen : cells.length = s.ncells.toNat) (hcells : Holds s.cellbuf cells)
    (hmax : cells.length ≤ s.cfg.cellsMax) (hneeded : cells.length = cdiv s.totalbits.toNat cellW) :
    ∃ t, exec .unpack s = .next t ∧ t.err = 0 ∧ SameTree s t ∧ Holds t.bitbuf (unpackFn cells s.totalbits.toNat) ∧
      t.nbits = s.totalbits := by
  have hbody : commandBody s .unpack = .ok _ :=
    unpackBody_eq_ok.2 ⟨hlen ▸ hmax, hlen.symm.trans hneeded, cells, hlen, hcells, rfl⟩
  refine ⟨_, exec_of_body hbody, rfl, sameTree_of_body hbody nofun nofun, Memory.holds_writeRange s.bitbuf _, ?_⟩
  rw [State.succeed_nbits, State.putStream_nbits, length_unpackFn hneeded, wordOf_toNat]

/-- TRIM (R168). -/
theorem exists_trim (hmax : s.ncells.toNat ≤ s.cfg.cellsMax) (hneeded : cellsNeeded s ≤ s.ncells.toNat) :
    ∃ t, exec .trim s = .next t ∧ t.err = 0 ∧ SameTree s t ∧ cellsNeeded s = t.ncells.toNat ∧
      t.cellbuf = s.cellbuf ∧ t.totalbits = s.totalbits := by
  have hbody : commandBody s .trim = .ok _ := trimBody_eq_ok.2 ⟨hmax, hneeded, rfl⟩
  exact ⟨_, exec_of_body hbody, rfl, sameTree_of_body hbody nofun nofun,
    (toNat_wordOf (hneeded.trans_lt s.ncells.isLt)).symm, rfl, rfl⟩

/-- TOGRID (R181). -/
theorem exists_togrid (hlen : cells.length = s.ncells.toNat) (hcells : Holds s.cellbuf cells)
    (hmax : cells.length ≤ s.cfg.cellsMax) :
    ∃ t, exec .togrid s = .next t ∧ t.err = 0 ∧ SameTree s t ∧ t.gw.toNat = gridWidth cells.length ∧
      t.gh.toNat = gridHeight cells.length ∧ Holds t.grid (gridCells cells) ∧ t.totalbits = s.totalbits := by
  have hbody : commandBody s .togrid = .ok _ := togridBody_eq_ok.2 ⟨hlen ▸ hmax, cells, hlen, hcells, rfl⟩
  have hwidth := gridWidth_le s.ncells.toNat
  have hheight := gridHeight_le s.ncells.toNat
  refine ⟨_, exec_of_body hbody, rfl, sameTree_of_body hbody nofun nofun, ?_, ?_, Memory.holds_writeRange s.grid _, rfl⟩
  · rw [hlen]
    exact toNat_wordOf (by omega)
  · rw [hlen]
    exact toNat_wordOf (by omega)

/-- FROMGRID (R185). -/
theorem exists_fromgrid (hcfg : s.cfg.wf) (hlen : cells.length = s.gw.toNat * s.gh.toNat) (hgrid : Holds s.grid cells)
    (hmax : cells.length ≤ s.cfg.cellsMax) :
    ∃ t, exec .fromgrid s = .next t ∧ t.err = 0 ∧ SameTree s t ∧ cells.length = t.ncells.toNat ∧
      Holds t.cellbuf cells ∧ t.padidx.toNat = firstMarker cells ∧ t.totalbits = s.totalbits := by
  obtain ⟨-, -, -, -, -, hcellsMax⟩ := hcfg
  have hbody : commandBody s .fromgrid = .ok _ := fromgridBody_eq_ok.2 ⟨hlen ▸ hmax, cells, hlen, hgrid, rfl⟩
  have hpad : firstMarker cells ≤ cells.length := List.findIdx_le_length
  exact ⟨_, exec_of_body hbody, rfl, sameTree_of_body hbody nofun nofun, (toNat_wordOf (by omega)).symm,
    Memory.holds_writeRange s.cellbuf _, toNat_wordOf (by omega), rfl⟩

end Sys2Proof.Proofs
end

section
/-! ## COUNT, BUILD, ENCODE, DECODE succeed -/

namespace Sys2Proof.Proofs

open Sys2Proof.Machine Sys2Proof.Safety

variable {s t : State} {seq : List Symbol} {bits : List Bool}

/-- COUNT (R112). -/
theorem exec_count (hlen : seq.length = s.seqlen.toNat) (hseq : Holds s.seqin seq) (hmax : seq.length ≤ s.cfg.seqMax)
    (hk : seq.dedup.length ≤ s.cfg.kMax) :
    exec .count s = .next (s.putTable (countWeights seq) (countSymbols seq)).succeed :=
  exec_of_body (countBody_eq_ok.2 ⟨hlen ▸ hmax, seq, hlen, hseq, (length_countTable seq).trans_le hk, rfl⟩)

/-- BUILD on a good table writes nothing but the arena and its registers, which then hold a tree with every Symbol. -/
theorem exists_build {ws : List Weight} {ss : List Symbol} (hcfg : s.cfg.wf) (hk : s.nsym ≠ 0)
    (hkMax : s.nsym.toNat ≤ s.cfg.kMax) (hws : ws.length = s.nsym.toNat) (hss : ss.length = s.nsym.toNat)
    (holdsW : Holds s.wtW ws) (holdsS : Holds s.wtS ss) (hpos : ∀ w ∈ ws, w ≠ 0) (hnodup : ss.Nodup)
    (hsum : weightSum ws < 2 ^ s.cfg.weightW) :
    ∃ nodes t, t = (s.putTree nodes).succeed ∧ exec .build s = .next t ∧ TreeInv t ∧
      ∀ v ∈ ss, HasLeaf (treeOf t) (leafCount t) v := by
  obtain ⟨t, hexec, herr, -, hnnodes, -, hleaf, hwritten, -⟩ :=
    buildMakesATreeOfTheTable s ws ss hcfg hk hkMax hws hss holdsW holdsS hpos hnodup hsum
  obtain ⟨u, hbody, ht⟩ := exists_body_of_exec hexec herr
  obtain ⟨nodes, rfl, -⟩ := exists_tree_of_buildBody hcfg hbody
  have hinv : TreeInv t := by
    rw [ht]
    exact treeInv_congr (s := s.putTree nodes) rfl ⟨rfl, rfl, rfl, rfl⟩ (treeInv_buildBody hcfg hbody)
  refine ⟨nodes, t, ht, hexec, hinv, fun v hv => ?_⟩
  obtain ⟨n, hn, rfl⟩ := List.getElem_of_mem hv
  obtain ⟨w, v, -, hsv, hnode⟩ := hleaf n (by omega)
  rw [List.getElem?_eq_getElem hn, Option.some.injEq] at hsv
  have hcount : leafCount t = s.nsym.toNat := by rw [leafCount, hnnodes]; omega
  exact ⟨n, by omega, w, by rw [hsv, ← hnode, getElem?_treeOf hwritten (by omega)]⟩

/-- BUILD after COUNT makes a tree with every Symbol of the sequence; the sequence is still in its place (R113). -/
theorem exists_count_build (hcfg : s.cfg.wf) (hlen : seq.length = s.seqlen.toNat) (hseq : Holds s.seqin seq)
    (hne : seq ≠ []) (hmax : seq.length ≤ s.cfg.seqMax) (hk : seq.dedup.length ≤ s.cfg.kMax) :
    ∃ a b, exec .count s = .next a ∧ exec .build a = .next b ∧ a.err = 0 ∧ b.err = 0 ∧
      b.cfg = s.cfg ∧ b.erracc = s.erracc ∧ b.seqlen = s.seqlen ∧ b.seqin = s.seqin ∧
      b.tv = true ∧ TreeInv b ∧ ∀ v ∈ seq, HasLeaf (treeOf b) (leafCount b) v := by
  obtain ⟨-, ⟨-, -, hkMax⟩, ⟨-, -, hweight⟩, ⟨-, hseqMax⟩, -⟩ := id hcfg
  have hlen32 : seq.length < 2 ^ 32 := by omega
  obtain ⟨hnodup, hmem⟩ := symbols_countTable seq
  have hcount := exec_count hlen hseq hmax hk
  obtain ⟨a, ha⟩ : ∃ a, a = (s.putTable (countWeights seq) (countSymbols seq)).succeed := ⟨_, rfl⟩
  have hnsym : a.nsym.toNat = seq.dedup.length := by
    rw [ha, State.succeed_nsym, State.putTable_nsym, length_countWeights, toNat_wordOf (by omega)]
  have hnsym0 : a.nsym ≠ 0 := fun h0 => hne (by
    rw [h0] at hnsym
    exact (List.dedup_eq_nil seq).1 (List.length_eq_zero_iff.1 hnsym.symm))
  have hacfg : a.cfg = s.cfg := by simp [ha]
  obtain ⟨nodes, b, hb, hbuild, hinv, hleaf⟩ := exists_build (s := a) (ws := countWeights seq) (ss := countSymbols seq)
    (hacfg ▸ hcfg) hnsym0 (by rwa [hnsym, hacfg]) (by rw [length_countWeights, hnsym])
    (by rw [length_countSymbols, hnsym]) (ha ▸ Memory.holds_writeRange s.wtW _) (ha ▸ Memory.holds_writeRange s.wtS _)
    (countWeights_ne_zero hlen32) hnodup (by rw [weightSum_countWeights hlen32, hacfg]; omega)
  exact ⟨a, b, ha ▸ hcount, hbuild, by simp [ha], by simp [hb], by simp [hb, ha], by simp [hb, ha], by simp [hb, ha],
    by simp [hb, ha], by simp [hb], hinv, fun v hv => hleaf v ((hmem v).2 hv)⟩

/-- `encode_fn` is defined through the leaves of the sequence (R142). -/
theorem exists_leaves_of_encodeFn {nodes : List Node} {root k : Nat} (h : encodeFn nodes root k seq = some bits) :
    ∃ leaves, leaves.map some = seq.map (leafOf nodes k) ∧ encodeLeaves nodes root k leaves = some bits := by
  induction seq generalizing bits with
  | nil => exact ⟨[], rfl, h⟩
  | cons v seq ih =>
    obtain ⟨n, code, rest, hleaf, hcode, hrest, rfl⟩ := encodeFn_cons.1 h
    obtain ⟨leaves, hleaves, hbits⟩ := ih hrest
    exact ⟨n :: leaves, by simp [hleaf, hleaves], by simp [encodeLeaves, hcode, hbits]⟩

/-- The look-up of ENCODE finds the leaves of a sequence of Symbols of the tree. -/
theorem lookUp_of_holds {nodes : List Node} {leaves : List Nat} (hseq : Holds s.seqin seq)
    (hleaves : leaves.map some = seq.map (leafOf nodes (leafCount s))) : lookUp s nodes 0 seq.length = .ok leaves := by
  refine lookUp_eq_ok.2 ⟨by simpa using congrArg List.length hleaves, fun j hj => ⟨seq[j], ?_, ?_⟩⟩
  · rw [Nat.zero_add, hseq j hj, List.getElem?_eq_getElem hj]
  · obtain ⟨n, hn, hleaf⟩ : ∃ n, leaves[j]? = some n ∧ some n = leafOf nodes (leafCount s) seq[j] := by
      simpa [hj] using congrArg (·[j]?) hleaves
    rw [hn, hleaf]

/-- ENCODE (R143). -/
theorem exists_encode (hcfg : s.cfg.wf) (hinv : TreeInv s) (htv : s.tv = true) (hlen : seq.length = s.seqlen.toNat)
    (hseq : Holds s.seqin seq) (hmax : seq.length ≤ s.cfg.seqMax)
    (henc : encodeFn (treeOf s) (2 * leafCount s - 2) (leafCount s) seq = some bits)
    (hbits : bits.length ≤ bitsMax s.cfg) :
    ∃ t, exec .encode s = .next t ∧ t.err = 0 ∧ SameTree s t ∧ bits.length = t.nbits.toNat ∧ Holds t.bitbuf bits := by
  obtain ⟨hread, -, hroot⟩ := treeInv_valid hcfg hinv htv
  obtain ⟨hnodes, holds⟩ := readTree_eq_ok.1 hread
  obtain ⟨leaves, hleaves, hcodes⟩ := exists_leaves_of_encodeFn henc
  obtain ⟨-, -, -, -, -, hcellsMax⟩ := hcfg
  have hbody : commandBody s .encode = .ok _ := encodeBody_eq_ok.2 ⟨htv, hlen ▸ hmax, treeOf s, hnodes, holds, leaves,
    hlen ▸ lookUp_of_holds hseq hleaves, bits, hroot ▸ hcodes, hbits, rfl⟩
  exact ⟨_, exec_of_body hbody, rfl, sameTree_of_body hbody nofun nofun,
    (toNat_wordOf (hbits.trans_lt hcellsMax)).symm, Memory.holds_writeRange s.bitbuf bits⟩

/-- DECODE (R146). -/
theorem exists_decode {out : List Symbol} (hcfg : s.cfg.wf) (hinv : TreeInv s) (htv : s.tv = true)
    (hlen : bits.length = s.nbits.toNat) (hstream : Holds s.bitbuf bits) (hmax : bits.length ≤ bitsMax s.cfg)
    (hdec : decodeFn (treeOf s) (2 * leafCount s - 2) (leafCount s) bits = .ok out)
    (hout : out.length ≤ s.cfg.seqMax) :
    ∃ t, exec .decode s = .next t ∧ t.err = 0 ∧ SameTree s t ∧ t.outlen = wordOf out.length ∧ Holds t.symout out := by
  obtain ⟨hread, -, hroot⟩ := treeInv_valid hcfg hinv htv
  obtain ⟨hnodes, holds⟩ := readTree_eq_ok.1 hread
  have hbody : commandBody s .decode = .ok _ := decodeBody_eq_ok.2
    ⟨htv, hlen ▸ hmax, bits, hlen, hstream, treeOf s, hnodes, holds, out, hroot ▸ hdec, hout, rfl⟩
  exact ⟨_, exec_of_body hbody, rfl, sameTree_of_body hbody nofun nofun,
    by rw [State.succeed_outlen, State.putSymbols_outlen], Memory.holds_writeRange s.symout out⟩

/-- As long as the tree of the encoding stands, DECODE gives the sequence back (R147). -/
theorem exists_decode_of_encoded (hcfg : s.cfg.wf) (hinv : TreeInv s) (htv : s.tv = true)
    (hmax : seq.length ≤ s.cfg.seqMax)
    (henc : encodeFn (treeOf s) (2 * leafCount s - 2) (leafCount s) seq = some bits)
    (hbits : bits.length ≤ bitsMax s.cfg) (hsame : SameTree s t) (hlen : bits.length = t.nbits.toNat)
    (hstream : Holds t.bitbuf bits) :
    ∃ u, exec .decode t = .next u ∧ u.err = 0 ∧ SameTree t u ∧ u.outlen = wordOf seq.length ∧ Holds u.symout seq := by
  obtain ⟨-, hok, -⟩ := treeInv_valid hcfg hinv htv
  have hinv' := hsame.treeInv hinv
  obtain ⟨htreeOf, hleaves⟩ := hsame.treeOf
  obtain ⟨htcfg, -, -, -, -, htv'⟩ := hsame
  exact exists_decode (htcfg ▸ hcfg) hinv' (htv'.trans htv) hlen hstream (htcfg ▸ hbits)
    (by rw [htreeOf, hleaves]; exact decodeFn_encodeFn hok henc) (htcfg ▸ hmax)

end Sys2Proof.Proofs
end

section
/-! ## COMPRESS and EXPAND (R97, R147, R169, R187) -/

namespace Sys2Proof.Proofs

open Sys2Proof.Machine Sys2Proof.Safety

variable {s : State} {seq : List Symbol} {bits : List Bool}

/-- COMPRESS after BUILD (R97): the Grid of the Cells of the sequence's stream, and the stream's length. -/
theorem exists_compress (hcfg : s.cfg.wf) (hinv : TreeInv s) (htv : s.tv = true) (hlen : seq.length = s.seqlen.toNat)
    (hseq : Holds s.seqin seq) (hmax : seq.length ≤ s.cfg.seqMax)
    (henc : encodeFn (treeOf s) (2 * leafCount s - 2) (leafCount s) seq = some bits)
    (hbits : bits.length ≤ bitsMax s.cfg) :
    ∃ c d e, exec .encode s = .next c ∧ exec .pack c = .next d ∧ exec .togrid d = .next e ∧
      c.err = 0 ∧ d.err = 0 ∧ e.err = 0 ∧ (packFn bits).length = d.ncells.toNat ∧ SameTree s e ∧
      e.gw.toNat * e.gh.toNat = (gridCells (packFn bits)).length ∧ Holds e.grid (gridCells (packFn bits)) ∧
      bits.length = e.totalbits.toNat := by
  obtain ⟨c, hencode, hcerr, hsc, hnbits, hstream⟩ := exists_encode hcfg hinv htv hlen hseq hmax henc hbits
  have hccfg : c.cfg = s.cfg := hsc.1
  obtain ⟨d, hpack, hderr, hcd, hncells, hcells, htotal⟩ :=
    exists_pack (hccfg ▸ hcfg) hnbits hstream (hccfg ▸ hbits)
  have hdcfg : d.cfg = s.cfg := (hsc.trans hcd).1
  obtain ⟨e, htogrid, heerr, hde, hgw, hgh, hgrid, htotal'⟩ :=
    exists_togrid hncells hcells (hdcfg ▸ length_packFn_le hbits)
  exact ⟨c, d, e, hencode, hpack, htogrid, hcerr, hderr, heerr, hncells, (hsc.trans hcd).trans hde,
    by rw [hgw, hgh, length_gridCells], hgrid, by rw [htotal', htotal, hnbits]⟩

/-- EXPAND before DECODE (R97): the stream of a Grid, its padding trimmed off. -/
theorem exists_unframe (hcfg : s.cfg.wf) (hbits : bits.length ≤ bitsMax s.cfg)
    (hsize : s.gw.toNat * s.gh.toNat = (gridCells (packFn bits)).length) (hgrid : Holds s.grid (gridCells (packFn bits)))
    (htotal : bits.length = s.totalbits.toNat) (hfit : s.gw.toNat * s.gh.toNat ≤ s.cfg.cellsMax) :
    ∃ f g h, exec .fromgrid s = .next f ∧ exec .trim f = .next g ∧ exec .unpack g = .next h ∧
      f.err = 0 ∧ g.err = 0 ∧ h.err = 0 ∧ SameTree s h ∧ bits.length = h.nbits.toNat ∧ Holds h.bitbuf bits := by
  have hprefix := prefix_gridCells (packFn bits)
  obtain ⟨f, hfrom, hferr, hsf, hfcells, hf, -, hftotal⟩ :=
    exists_fromgrid hcfg hsize.symm hgrid (hsize.symm.trans_le hfit)
  have hneeded : cellsNeeded f = (packFn bits).length := by rw [cellsNeeded, hftotal, ← htotal, length_packFn]
  have hfcfg : f.cfg = s.cfg := hsf.1
  obtain ⟨g, htrim, hgerr, hfg, hgcells, hgbuf, hgtotal⟩ := exists_trim (s := f)
    (by rw [← hfcells, hfcfg, ← hsize]; exact hfit) (by rw [hneeded, ← hfcells]; exact hprefix.length_le)
  have htotal' : g.totalbits.toNat = bits.length := by rw [hgtotal, hftotal, htotal]
  obtain ⟨h, hunpack, hherr, hgh, hstream, hnbits⟩ := exists_unpack (s := g) (cells := packFn bits)
    (hneeded.symm.trans hgcells) (hgbuf ▸ holds_of_prefix hf hprefix)
    ((hsf.trans hfg).1 ▸ length_packFn_le hbits) (by rw [htotal', length_packFn])
  rw [htotal', unpackFn_packFn] at hstream
  exact ⟨f, g, h, hfrom, htrim, hunpack, hferr, hgerr, hherr, (hsf.trans hfg).trans hgh, by rw [hnbits, htotal'], hstream⟩

/-- Settles O48: COUNT and BUILD make a tree of the sequence's Symbols, the Grid of the packed stream gives the stream back,
and with the same tree decoding undoes encoding. -/
theorem compressExpandRoundTrip : Obligations.CompressExpandRoundTrip := by
  intro s seq hcfg hlen hseq hne hmax hk
  rw [← hlen] at hmax
  obtain ⟨a, b, hcount, hbuild, haerr, hberr, hbcfg, hbacc, hblen, hbseq, htv, hinv, hleaf⟩ :=
    exists_count_build hcfg hlen hseq hne hmax hk
  rw [← hbcfg] at hcfg hmax ⊢
  rw [← hblen] at hlen ⊢
  rw [← hbseq] at hseq
  obtain ⟨-, htree, -⟩ := treeInv_valid hcfg hinv htv
  obtain ⟨bits, henc⟩ := exists_encodeFn htree hleaf
  refine ⟨a, b, bits, hcount, hbuild, haerr, hberr, henc, fun hbits => ?_⟩
  obtain ⟨c, d, e, hencode, hpack, htogrid, hcerr, hderr, heerr, hncells, hbe, hsize, hgrid, htotal⟩ :=
    exists_compress hcfg hinv htv hlen hseq hmax henc hbits
  refine ⟨c, d, e, hencode, hpack, htogrid, hcerr, hderr, heerr, hncells ▸ length_packFn bits, fun hfit => ?_⟩
  have hecfg : e.cfg = b.cfg := hbe.1
  rw [show cdiv bits.length 24 = (packFn bits).length from (length_packFn bits).symm, ← length_gridCells, ← hsize] at hfit
  obtain ⟨f, g, h, hfrom, htrim, hunpack, hferr, hgerr, hherr, heh, hnbits, hstream⟩ :=
    exists_unframe (hecfg ▸ hcfg) (hecfg ▸ hbits) hsize hgrid htotal (hecfg ▸ hfit)
  have hbh := hbe.trans heh
  obtain ⟨i, hdecode, hierr, hhi, houtlen, hsymout⟩ :=
    exists_decode_of_encoded hcfg hinv htv hmax henc hbits hbh hnbits hstream
  obtain ⟨-, hacc, -⟩ := hbh.trans hhi
  exact ⟨f, g, h, i, hfrom, htrim, hunpack, hdecode, hferr, hgerr, hherr, hierr, hacc.trans hbacc,
    by rw [houtlen, hlen, wordOf_toNat], hsymout⟩

end Sys2Proof.Proofs
end

/-! # Proofs of `40_frequency.md`: the frequency table, and the path from COUNT to DECODE -/

section
/-! ## The order and the counts of the frequency table (R110, R111) -/

namespace Sys2Proof.Proofs

open Sys2Proof.Machine Sys2Proof.Safety

variable {seq : List Symbol}

theorem mem_countSymbols {v : Symbol} : v ∈ countSymbols seq ↔ v ∈ seq :=
  (symbols_countTable seq).2 v

theorem nodup_countSymbols (seq : List Symbol) : (countSymbols seq).Nodup :=
  (symbols_countTable seq).1

theorem countSymbols_append_singleton (seq : List Symbol) (v : Symbol) :
    countSymbols (seq ++ [v]) = if v ∈ seq then countSymbols seq else countSymbols seq ++ [v] := by
  rw [countSymbols, countTable_append_singleton, symbols_countOne]
  exact if_congr mem_countSymbols rfl rfl

/-- The table is in the order of first occurrence (R111): a Symbol that is new goes to the end of the table, and its first
occurrence is after the whole sequence before it. -/
theorem countSymbols_pairwise_idxOf (seq : List Symbol) :
    (countSymbols seq).Pairwise fun u v => seq.idxOf u < seq.idxOf v := by
  induction seq using List.reverseRecOn with
  | nil => exact .nil
  | append_singleton seq v ih =>
    have hkeep : (countSymbols seq).Pairwise fun a b => (seq ++ [v]).idxOf a < (seq ++ [v]).idxOf b :=
      ih.imp_of_mem fun ha hb hlt => by
        rwa [List.idxOf_append_of_mem (mem_countSymbols.1 ha), List.idxOf_append_of_mem (mem_countSymbols.1 hb)]
    rw [countSymbols_append_singleton]
    split
    · exact hkeep
    · rename_i hv
      refine List.pairwise_append.2 ⟨hkeep, List.pairwise_singleton _ _, fun a ha b hb => ?_⟩
      rw [List.mem_singleton.1 hb, List.idxOf_append_of_mem (mem_countSymbols.1 ha), List.idxOf_append_of_notMem hv]
      exact (List.idxOf_lt_length_of_mem (mem_countSymbols.1 ha)).trans_le (Nat.le_add_right _ _)

/-- When the entries of a table give the counts `f`, those of the table with one more `v` give one more for `v`. -/
theorem count_of_mem_countOne {v : Symbol} {t : List (Nat × Symbol)} {f : Symbol → Nat} (hnodup : (t.map Prod.snd).Nodup)
    (hf : ∀ e ∈ t, e.1 = f e.2) (hnew : v ∉ t.map Prod.snd → f v = 0) :
    ∀ e ∈ countOne v t, e.1 = f e.2 + if e.2 = v then 1 else 0 := by
  induction t with
  | nil => simpa [countOne] using hnew
  | cons e rest ih =>
    obtain ⟨he, hf⟩ := List.forall_mem_cons.1 hf
    obtain ⟨hnotMem, hnodup⟩ := List.nodup_cons.1 hnodup
    rw [countOne]
    split
    · rename_i hev
      refine List.forall_mem_cons.2 ⟨by simp [he, hev], fun e' he' => ?_⟩
      have hne : e'.2 ≠ v := fun h => hnotMem (by rw [hev, ← h]; exact List.mem_map_of_mem he')
      simpa [hne] using hf e' he'
    · rename_i hev
      refine List.forall_mem_cons.2 ⟨by simp [he, hev], ih hnodup hf fun hv => hnew ?_⟩
      exact List.not_mem_cons_of_ne_of_not_mem (Ne.symm hev) hv

/-- Each entry has the number of occurrences of its Symbol (R110). -/
theorem count_of_mem_countTable : ∀ e ∈ countTable seq, e.1 = seq.count e.2 := by
  induction seq using List.reverseRecOn with
  | nil => simp [countTable]
  | append_singleton seq v ih =>
    obtain ⟨hnodup, hmem⟩ := symbols_countTable seq
    intro e he
    rw [countTable_append_singleton] at he
    have hnew : v ∉ (countTable seq).map Prod.snd → seq.count v = 0 := fun hv =>
      List.count_eq_zero.2 (mt (hmem v).2 hv)
    rw [count_of_mem_countOne (f := seq.count) hnodup ih hnew e he, List.count_append, List.count_singleton]
    simp only [beq_iff_eq, eq_comm (a := v)]

theorem toNat_countWeights_eq_count (h : seq.length < 2 ^ 32) :
    (countWeights seq).map BitVec.toNat = (countSymbols seq).map fun v => seq.count v := by
  rw [toNat_countWeights h, countSymbols, List.map_map]
  exact List.map_congr_left count_of_mem_countTable

end Sys2Proof.Proofs
end

section
/-! ## COUNT, and BUILD after it (R112, R113) -/

namespace Sys2Proof.Proofs

open Sys2Proof.Machine Sys2Proof.Safety

variable {s t : State} {seq : List Symbol}

/-- A command whose checks find an error makes the three writes of that error. -/
theorem exec_of_raise {i : Instr} {e : ErrKind} {info : Word} (h : commandBody s i = .error (.error e info)) :
    exec i s = .next (s.raise e info) := by
  rw [exec_eq_commit, h, commit_error]

/-- A sequence has no more distinct Symbols than `SEQLEN` counts, so their number fits `NSYM`. -/
theorem nsym_of_count (hlen : seq.length = s.seqlen.toNat) (hseq : Holds s.seqin seq)
    (hmax : seq.length ≤ s.cfg.seqMax) (hk : seq.dedup.length ≤ s.cfg.kMax) (h : exec .count s = .next t) :
    t.nsym.toNat = seq.dedup.length := by
  have hle : seq.dedup.length ≤ seq.length := seq.dedup_sublist.length_le
  have hlt : s.seqlen.toNat < 2 ^ 32 := s.seqlen.isLt
  cases (exec_count hlen hseq hmax hk).symm.trans h
  rw [State.succeed_nsym, State.putTable_nsym, length_countWeights, toNat_wordOf (by omega)]

/-- Settles O19: the table is written whole, and its Symbols and weights are those of `count_table`. -/
theorem countFillsTheFrequencyTable : Obligations.CountFillsTheFrequencyTable := by
  intro s seq hlen hseq hmax hk
  rw [← hlen] at hmax
  have hlen32 : seq.length < 2 ^ 32 := hlen ▸ s.seqlen.isLt
  have hcount := exec_count hlen hseq hmax hk
  have hnsym := nsym_of_count hlen hseq hmax hk hcount
  exact ⟨_, countWeights seq, countSymbols seq, hcount, rfl, Memory.holds_writeRange s.wtW _,
    Memory.holds_writeRange s.wtS _, by rw [hnsym, length_countWeights], by rw [hnsym, length_countSymbols],
    nodup_countSymbols seq, fun _ => mem_countSymbols, countSymbols_pairwise_idxOf seq, toNat_countWeights_eq_count hlen32,
    by rw [weightSum_countWeights hlen32, hlen]⟩

/-- Settles O20: the length is checked before the first read, the number of distinct Symbols after the last. -/
theorem countErrors : Obligations.CountErrors := by
  refine fun s => ⟨fun h => ?_, fun seq hlen hseq hmax hk => ?_⟩
  · exact exec_of_raise (i := .count) (countBody_eq_raise.2 ⟨rfl, .inl ⟨h, rfl⟩⟩)
  · rw [← length_countTable] at hk
    exact exec_of_raise (i := .count) (countBody_eq_raise.2 ⟨rfl, .inr ⟨hmax, rfl, seq, hlen, hseq, hk⟩⟩)

/-- Settles O21: a COUNT that succeeds has read a sequence within the capacities, and one that leaves entries has read at
least one Symbol. -/
theorem countedTableBuilds : Obligations.CountedTableBuilds := by
  intro s t hcfg hcount herr hnsym
  obtain ⟨u, hbody, -⟩ := exists_body_of_exec hcount herr
  obtain ⟨hmax, seq, hlen, hseq, hk, -⟩ := countBody_eq_ok.1 hbody
  rw [← hlen] at hmax
  rw [length_countTable] at hk
  have hne : seq ≠ [] := by
    rintro rfl
    exact hnsym (BitVec.eq_of_toNat_eq (nsym_of_count hlen hseq hmax hk hcount))
  obtain ⟨a, b, hcount', hbuild, -, hberr, -, -, -, -, htv, -⟩ := exists_count_build hcfg hlen hseq hne hmax hk
  cases hcount.symm.trans hcount'
  exact ⟨b, hbuild, hberr, htv⟩

/-- A successful BUILD makes one leaf for each entry of the table (R37, R125). -/
theorem leafCount_of_build (hcfg : s.cfg.wf) (h : exec .build s = .next t) (herr : t.err = 0) :
    leafCount t = s.nsym.toNat := by
  obtain ⟨u, hbody, rfl⟩ := exists_body_of_exec h herr
  obtain ⟨nodes, rfl, htree⟩ := exists_tree_of_buildBody hcfg hbody
  obtain ⟨hnnodes, -⟩ := treeInv_putTree hcfg htree
  obtain ⟨-, hk, -⟩ := htree.1
  rw [leafCount, State.succeed_nnodes, hnnodes]
  omega

end Sys2Proof.Proofs
end

section
/-! ## COUNT, BUILD, ENCODE, DECODE (R147) -/

namespace Sys2Proof.Proofs

open Sys2Proof.Machine Sys2Proof.Safety

/-- An encoding is at most as long as the longest Codes would make it (R131). -/
theorem length_encodeFn_le {p : Params} {nodes : List Node} {k : Nat} {seq : List Symbol} {bits : List Bool}
    (h : TreeOk p nodes k) (henc : encodeFn nodes (2 * k - 2) k seq = some bits) :
    bits.length ≤ seq.length * max 1 (k - 1) := by
  induction seq generalizing bits with
  | nil =>
    cases henc
    exact Nat.zero_le _
  | cons v seq ih =>
    obtain ⟨i, code, rest, hleaf, hcode, hrest, rfl⟩ := encodeFn_cons.1 henc
    obtain ⟨hi, -⟩ := (leafOf_eq_some h).1 hleaf
    obtain ⟨code', hcode', -, hle, hone, -⟩ := codeLengthsAreBounded p nodes k i h hi
    obtain rfl : code' = code := Option.some.inj (hcode'.symm.trans hcode)
    have hbound : code'.length ≤ max 1 (k - 1) := by omega
    rw [List.length_append, List.length_cons, Nat.succ_mul, Nat.add_comm]
    exact Nat.add_le_add (ih hrest) hbound

/-- Settles O47: COUNT and BUILD make a tree of the sequence's Symbols, with a leaf for each, and with that tree decoding
undoes encoding. -/
theorem encodeDecodeRoundTrip : Obligations.EncodeDecodeRoundTrip := by
  intro s seq hcfg hlen hseq hne hmax hk
  rw [← hlen] at hmax
  obtain ⟨a, b, hcount, hbuild, haerr, hberr, hbcfg, -, hblen, hbseq, htv, hinv, hleaf⟩ :=
    exists_count_build hcfg hlen hseq hne hmax hk
  have hacfg : a.cfg = s.cfg := by
    cases (exec_count hlen hseq hmax hk).symm.trans hcount
    rfl
  have hleaves : leafCount b = seq.dedup.length :=
    (leafCount_of_build (hacfg ▸ hcfg) hbuild hberr).trans (nsym_of_count hlen hseq hmax hk hcount)
  rw [← hbcfg] at hcfg hmax ⊢
  rw [← hblen] at hlen ⊢
  rw [← hbseq] at hseq
  obtain ⟨-, htree, -⟩ := treeInv_valid hcfg hinv htv
  obtain ⟨bits, henc⟩ := exists_encodeFn htree hleaf
  refine ⟨a, b, bits, hcount, hbuild, haerr, hberr, henc, hleaves ▸ length_encodeFn_le htree henc, fun hbits => ?_⟩
  obtain ⟨c, hencode, hcerr, hbc, hnbits, hstream⟩ := exists_encode hcfg hinv htv hlen hseq hmax henc hbits
  obtain ⟨d, hdecode, hderr, -, houtlen, hsymout⟩ :=
    exists_decode_of_encoded hcfg hinv htv hmax henc hbits hbc hnbits hstream
  exact ⟨c, d, hencode, hdecode, hcerr, hderr, by rw [houtlen, hlen, wordOf_toNat], hsymout⟩

end Sys2Proof.Proofs
end

/-! # Proofs of `41_huffman_build.md`: the greedy choice, the table checks, paths and Codes -/

section
/-! ## BUILD combines the two least trees (R120 to R123) -/

namespace Sys2Proof.Proofs

open Sys2Proof.Machine Sys2Proof.Safety

variable {nodes more : List Node} {queue : List (Nat × Nat)} {k total n i j l r : Nat}

/-- `l` is the least tree that waits when node `n` is made, and `r` the least of the others (R122, R123). -/
def TakesLeast (nodes : List Node) (n l r : Nat) : Prop :=
  Waiting nodes n l ∧ Waiting nodes n r ∧
    (∀ i, Waiting nodes n i → i ≠ l → PoppedBefore nodes l i) ∧
    (∀ i, Waiting nodes n i → i ≠ l → i ≠ r → PoppedBefore nodes r i)

/-- Every internal node has taken the two least trees that waited. -/
def Greedy (nodes : List Node) : Prop :=
  ∀ n w l r, nodes[n]? = some (.internal w l r) → TakesLeast nodes n l r

theorem waiting_append (h : n ≤ nodes.length) : Waiting (nodes ++ more) n i ↔ Waiting nodes n i := by
  rw [Waiting, Waiting, List.take_append_of_le_length h]

theorem poppedBefore_append (hi : i < nodes.length) (hj : j < nodes.length) :
    PoppedBefore (nodes ++ more) i j ↔ PoppedBefore nodes i j := by
  rw [PoppedBefore, PoppedBefore, weightAt_append_left hi, weightAt_append_left hj]

/-- Nodes that are added later change nothing of a choice. -/
theorem TakesLeast.append (h : TakesLeast nodes n l r) (hn : n ≤ nodes.length) : TakesLeast (nodes ++ more) n l r := by
  obtain ⟨hl, hr, hleast, hnext⟩ := h
  simp only [TakesLeast, waiting_append hn]
  have hlt : ∀ i, Waiting nodes n i → i < nodes.length := fun i hi => hi.1.trans_le hn
  exact ⟨hl, hr, fun i hi hil => (poppedBefore_append (hlt l hl) (hlt i hi)).2 (hleast i hi hil),
    fun i hi hil hir => (poppedBefore_append (hlt r hr) (hlt i hi)).2 (hnext i hi hil hir)⟩

/-- The trees that wait for the next node are those in the queue. -/
theorem Growing.waiting_iff (h : Growing k total nodes queue) :
    Waiting nodes nodes.length i ↔ ∃ e ∈ queue, e.2 = i := by
  have hdisjoint := List.disjoint_of_nodup_append (h.roots.nodup_iff.2 List.nodup_range)
  rw [Waiting, List.take_length, ← List.mem_map]
  constructor
  · rintro ⟨hi, hchild⟩
    exact (List.mem_append.1 (h.roots.mem_iff.2 (List.mem_range.2 hi))).resolve_right hchild
  · intro hi
    exact ⟨List.mem_range.1 (h.roots.mem_iff.1 (List.mem_append_left _ hi)), fun hchild => hdisjoint hi hchild⟩

/-- Of two trees of the queue, the one that the other does not precede is popped before it. -/
theorem Growing.poppedBefore (h : Growing k total nodes queue) {e f : Nat × Nat} (he : e ∈ queue) (hf : f ∈ queue)
    (hne : f.2 ≠ e.2) (hbefore : before f e = false) : PoppedBefore nodes e.2 f.2 := by
  rw [Bool.eq_false_iff, ne_eq, before_eq_true] at hbefore
  rw [PoppedBefore, ← h.weights e he, ← h.weights f hf]
  omega

/-- The two trees a round pops are the two least that wait. -/
theorem Growing.takesLeast (h : Growing k total nodes queue) {a b : Nat × Nat} {queue1 queue2 : List (Nat × Nat)}
    (ha : pop queue = some (a, queue1)) (hb : pop queue1 = some (b, queue2)) :
    TakesLeast nodes nodes.length a.2 b.2 := by
  obtain ⟨ha_mem, -, hperm, ha_least⟩ := pop_spec ha
  obtain ⟨hb_mem1, -, -, hb_least⟩ := pop_spec hb
  have hb_mem : b ∈ queue := hperm.mem_iff.2 (List.mem_cons_of_mem _ hb_mem1)
  refine ⟨h.waiting_iff.2 ⟨a, ha_mem, rfl⟩, h.waiting_iff.2 ⟨b, hb_mem, rfl⟩, fun i hi hia => ?least,
    fun i hi hia hib => ?next⟩
  case least =>
    obtain ⟨e, he, rfl⟩ := h.waiting_iff.1 hi
    exact h.poppedBefore ha_mem he hia (ha_least e he)
  case next =>
    obtain ⟨e, he, rfl⟩ := h.waiting_iff.1 hi
    have he1 : e ∈ queue1 := (List.mem_cons.1 (hperm.mem_iff.1 he)).resolve_left fun hea => hia (hea ▸ rfl)
    exact h.poppedBefore hb_mem he hib (hb_least e he1)

theorem Greedy.append_singleton {w : Weight} (h : Greedy nodes) (hlast : TakesLeast nodes nodes.length l r) :
    Greedy (nodes ++ [.internal w l r]) := by
  intro n w' l' r' hn
  rcases Nat.lt_or_ge n nodes.length with hlt | hge
  · rw [List.getElem?_append_left hlt] at hn
    exact (h n w' l' r' hn).append hlt.le
  · rw [List.getElem?_append_right hge, List.getElem?_singleton, Option.ite_none_right_eq_some, Option.some.injEq,
      Node.internal.injEq] at hn
    obtain ⟨hn0, -, rfl, rfl⟩ := hn
    obtain rfl : n = nodes.length := by omega
    exact hlast.append le_rfl

/-- Every round of the combining loop takes the two least trees. -/
theorem Greedy.growTree {rounds : Nat} (h : Greedy nodes) (hgrow : Growing k total nodes queue)
    (htotal : total < 2 ^ 32) : Greedy (growTree rounds nodes queue) := by
  induction rounds generalizing nodes queue with
  | zero => exact h
  | succ rounds ih =>
    rw [Machine.growTree]
    split
    · exact h
    · rename_i a queue1 ha
      split
      · exact h
      · rename_i b queue2 hb
        obtain ⟨-, -, hperm1, -⟩ := pop_spec ha
        obtain ⟨-, -, hperm2, -⟩ := pop_spec hb
        exact ih (h.append_singleton (hgrow.takesLeast ha hb)) (hgrow.combine (hperm1.trans (hperm2.cons a)) htotal)

theorem greedy_buildNodes {ws : List Weight} {ss : List Symbol} (hlen : ss.length = ws.length) (hpos : ∀ w ∈ ws, w ≠ 0)
    (hsum : weightSum ws < 2 ^ 32) : Greedy (buildNodes ws ss) := by
  have hleaves : Greedy (leafNodes ws ss) := fun n w l r hn => by
    obtain ⟨_, _, hleaf, -⟩ := mem_leafNodes (List.mem_of_getElem? hn)
    cases hleaf
  exact hleaves.growTree (growing_leafNodes hlen hpos) hsum

end Sys2Proof.Proofs
end

section
/-! ## The table checks of BUILD (R124) -/

namespace Sys2Proof.Proofs

open Sys2Proof.Machine Sys2Proof.Safety

variable {s : State} {ws : List Weight} {ss : List Symbol} {e : ErrKind} {info : Word} {n i : Nat}

/-- The first `n` entries of a written table pass check 3 exactly when none has a zero weight and their Symbols are
distinct. -/
theorem entriesPass_iff (holdsW : Holds s.wtW ws) (holdsS : Holds s.wtS ss) (hws : n ≤ ws.length)
    (hss : n ≤ ss.length) :
    (∀ j < n, (∃ w, s.wtW.read j = some w ∧ w ≠ 0) ∧ repeatsEarlier s j = .ok false) ↔
      (∀ j < n, ws[j]? ≠ some 0) ∧ (ss.take n).Nodup := by
  have hlen : (ss.take n).length = n := List.length_take_of_le hss
  have hrepeats := repeatsEarlier_eq_false_iff (holds_of_prefix holdsS (List.take_prefix n ss))
  rw [hlen] at hrepeats
  rw [← hrepeats, ← forall₂_and]
  refine forall₂_congr fun j hj => and_congr_left' ?_
  rw [holdsW j (by omega), List.getElem?_eq_getElem (by omega)]
  simp

/-- The Symbol of entry `i` is found at a lower index exactly when it stands there. -/
theorem repeatsEarlier_eq_true (holdsS : Holds s.wtS ss) (hi : i < ss.length) (h : ∃ j < i, ss[j]? = ss[i]?) :
    repeatsEarlier s i = .ok true := by
  obtain ⟨b, hb⟩ := repeatsEarlier_of_holds holdsS hi
  obtain ⟨j, hj, heq⟩ := h
  have hread : s.wtS.read i = some ss[i] := (holdsS i hi).trans (List.getElem?_eq_getElem hi)
  have hearlier : s.wtS.read j = s.wtS.read i := by rw [holdsS j (by omega), heq, holdsS i hi]
  rw [hb, (repeatsEarlier_eq_ok hb).2 ⟨j, hj, _, hearlier.trans hread, hread⟩]

theorem nsym_beq_zero (hk : s.nsym ≠ 0) : (s.nsym.toNat == 0) = false := by
  simpa [BitVec.toNat_eq] using hk

/-- An error of check 3 is BUILD's. -/
theorem buildBody_of_checkTable (hk : s.nsym ≠ 0) (hkMax : s.nsym.toNat ≤ s.cfg.kMax)
    (h : checkTable s 0 s.nsym.toNat = .error (.error e info)) : buildBody s = .error (.error e info) := by
  simp [buildBody, nsym_beq_zero hk, Nat.not_lt.2 hkMax, h]

/-- On a table that passes check 3, too great a sum of weights is BUILD's error (check 4). -/
theorem buildBody_of_weightSum (hk : s.nsym ≠ 0) (hkMax : s.nsym.toNat ≤ s.cfg.kMax)
    (hcheck : checkTable s 0 s.nsym.toNat = .ok ()) (hws : ws.length = s.nsym.toNat) (holdsW : Holds s.wtW ws)
    (hsum : 2 ^ s.cfg.weightW ≤ weightSum ws) : buildBody s = .error (.error .capacity capWeight) := by
  have hread : readElems .wt s.wtW 0 s.nsym.toNat = .ok ws := readElems_zero_eq_ok.2 ⟨hws, holdsW⟩
  simp [buildBody, nsym_beq_zero hk, Nat.not_lt.2 hkMax, hcheck, hread, hsum]

/-- Settles O24, check by check; check 3 raises at the first entry that does not pass. -/
theorem buildChecksTheTable : Obligations.BuildChecksTheTable := by
  refine fun s ws ss => ⟨fun hk => ?empty, fun hk hkMax => ?tooMany, fun hk hkMax hws hss holdsW holdsS =>
    ⟨fun i hi hne hnodup => ?entry, fun hpos hnodup hsum => ?tooHeavy⟩⟩
  case empty => exact exec_of_raise (i := .build) (by simp [commandBody, buildBody, hk])
  case tooMany =>
    exact exec_of_raise (i := .build) (info := capSyms) (by simp [commandBody, buildBody, nsym_beq_zero hk, hkMax])
  case entry =>
    have hbelow := (entriesPass_iff holdsW holdsS (n := i) (by omega) (by omega)).2 ⟨hne, hnodup⟩
    have hraise {info : Word} (h : s.wtW.read i = some 0 ∧ info = wordOf i ∨
        (∃ w, s.wtW.read i = some w ∧ w ≠ 0) ∧ repeatsEarlier s i = .ok true ∧ info = repeatInfo i) :
        exec .build s = .next (s.raise .invalidTable info) :=
      exec_of_raise (i := .build) (buildBody_of_checkTable hk hkMax
        (checkTable_eq_raise.2 ⟨rfl, i, hi, by simpa using hbelow, by simpa using h⟩))
    have hread := holdsW i (by omega)
    refine ⟨fun hzero => hraise (.inl ⟨hread.trans hzero, rfl⟩), fun hnonzero hrepeat => hraise (.inr ⟨?_, ?_, rfl⟩)⟩
    · rw [List.getElem?_eq_getElem (by omega)] at hread hnonzero
      exact ⟨_, hread, fun h0 => hnonzero (congrArg some h0)⟩
    · exact repeatsEarlier_eq_true holdsS (by omega) hrepeat
  case tooHeavy =>
    have hpass := (entriesPass_iff holdsW holdsS hws.ge hss.ge).2
      ⟨fun j _ h0 => hpos 0 (List.mem_of_getElem? h0) rfl, by rwa [List.take_of_length_le hss.le]⟩
    have hcheck : checkTable s 0 s.nsym.toNat = .ok () := checkTable_eq_ok.2 (by simpa using hpass)
    exact exec_of_raise (i := .build) (buildBody_of_weightSum hk hkMax hcheck hws holdsW hsum)

end Sys2Proof.Proofs
end

section
/-! ## The tree BUILD writes (R125) -/

namespace Sys2Proof.Proofs

open Sys2Proof.Machine Sys2Proof.Safety

/-- What BUILD writes when it succeeds: the nodes the combining loop makes of a good table, a tree in which each node has
taken the two least. -/
theorem exists_greedy_tree_of_buildBody {s u : State} (hcfg : s.cfg.wf) (h : buildBody s = .ok u) :
    ∃ nodes, u = s.putTree nodes ∧ TreeOk s.cfg nodes s.nsym.toNat ∧ Greedy nodes := by
  obtain ⟨hk, hkMax, ws, ss, hws, hss, holdsW, holdsS, hcheck, hsum, rfl⟩ := buildBody_eq_ok.1 h
  obtain ⟨-, -, ⟨-, hweightW, -⟩, -⟩ := id hcfg
  have hk' : s.nsym.toNat ≠ 0 := fun h0 => hk (BitVec.eq_of_toNat_eq h0)
  obtain ⟨hne, hnodup⟩ := (entriesPass_iff holdsW holdsS hws.ge hss.ge).1 hcheck
  rw [List.take_of_length_le hss.le] at hnodup
  have hpos : ∀ w ∈ ws, w ≠ 0 := fun w hw h0 => by
    obtain ⟨j, hj, rfl⟩ := List.getElem_of_mem hw
    exact hne j (by omega) (by rw [List.getElem?_eq_getElem hj, h0])
  have hlen := hss.trans hws.symm
  obtain ⟨-, htree⟩ := treeOk_buildNodes (p := s.cfg) (by omega) (by omega) hlen hpos hnodup hweightW hsum
  exact ⟨_, rfl, hws ▸ htree,
    greedy_buildNodes hlen hpos (hsum.trans_le (Nat.pow_le_pow_right (by omega) hweightW))⟩

/-- Settles O23: the tree invariants give the node and its exact weight, the combining loop's choice the rest. -/
theorem buildCombinesTheTwoLeast : Obligations.BuildCombinesTheTwoLeast := by
  intro s t hcfg hexec herr n hkn hn
  obtain ⟨u, hbody, rfl⟩ := exists_body_of_exec hexec herr
  obtain ⟨nodes, rfl, htree, hgreedy⟩ := exists_greedy_tree_of_buildBody hcfg hbody
  obtain ⟨-, -, htreeOf, -⟩ := treeInv_putTree hcfg htree
  obtain ⟨⟨hlen, -⟩, hok, -⟩ := id htree
  obtain ⟨w, l, r, hnode⟩ := exists_internal htree hkn (by omega)
  obtain ⟨-, -, -, hne, hw⟩ := nodeOk_internal (hok n (by omega)) hnode
  obtain ⟨hl, hr, hleast, hnext⟩ := hgreedy n w l r hnode
  change treeOf (s.putTree nodes).succeed = nodes at htreeOf
  rw [htreeOf]
  exact ⟨w, l, r, hnode, hw, hl, hr, hne, hleast, hnext⟩

end Sys2Proof.Proofs
end

section
/-! ## Paths and Codes (R128, R130), and ENCSYM (R141) -/

namespace Sys2Proof.Proofs

open Sys2Proof.Machine Sys2Proof.Safety

variable {p : Params} {nodes : List Node} {k i j : Nat} {bits : List Bool}

/-- The path of a child is its parent's with the bit of the edge after it. -/
theorem pathOf_child (h : TreeOk p nodes k) {b : Bool} (hpath : pathOf nodes (2 * k - 2) i = some bits)
    (hchild : childAt nodes i b = some j) : pathOf nodes (2 * k - 2) j = some (bits ++ [b]) := by
  obtain ⟨hlen, -⟩ := h.1
  obtain ⟨-, -, hj⟩ := childAt_lt h hchild
  have hwalk : walkDown nodes (2 * k - 2) bits = some i := walkDown_of_pathUp hpath
  rw [pathOf_eq_some h (by omega), walkDown_append_singleton, hwalk, Option.bind_some, hchild]

/-- Settles O26: paths are the walks down from the root. -/
theorem pathsFollowTheChildren : Obligations.PathsFollowTheChildren := by
  intro p nodes k h
  obtain ⟨hlen, hk, -⟩ := h.1
  refine ⟨(pathOf_eq_some h (by omega)).2 rfl, fun n w l r hn => ?_, fun _ _ => rfl⟩
  obtain ⟨hn', -⟩ := List.getElem?_eq_some_iff.1 hn
  obtain ⟨bits, hpath⟩ := exists_path h hn'
  exact ⟨bits, hpath, pathOf_child h hpath (childAt_eq_some.2 ⟨w, l, r, hn, rfl⟩),
    pathOf_child h hpath (childAt_eq_some.2 ⟨w, l, r, hn, rfl⟩)⟩

/-- No walk leads on from a leaf. -/
theorem walkDown_leaf (h : TreeOk p nodes k) (hi : i < k) (hwalk : walkDown nodes i bits = some j) : i = j := by
  cases bits with
  | nil => exact Option.some.inj hwalk
  | cons b bits =>
    obtain ⟨c, hchild, -⟩ := Option.bind_eq_some_iff.1 hwalk
    obtain ⟨hki, -⟩ := childAt_lt h hchild
    omega

/-- Settles O28: bits that a longer Code had after the shorter one would lead on from a leaf. -/
theorem codesArePrefixFree : Obligations.CodesArePrefixFree := by
  intro p nodes k i j ci cj h hi hj hne hci hcj hprefix
  obtain ⟨more, rfl⟩ := hprefix
  rw [codeOf, if_neg (by omega)] at hci hcj
  have hwalk : walkDown nodes (2 * k - 2) (ci ++ more) = some j := walkDown_of_pathUp hcj
  rw [walkDown_append, walkDown_of_pathUp hci] at hwalk
  exact hne (walkDown_leaf h hi hwalk)

/-- Settles O32: the leaf is the one `leaf_of` finds, and its Code fits `CODELEN`. -/
theorem encsymGivesTheCode : Obligations.EncsymGivesTheCode := by
  intro s i w hcfg hinv htv hi hnode
  obtain ⟨hread, htree, hroot⟩ := treeInv_valid hcfg hinv htv
  obtain ⟨hlen, holds⟩ := readTree_eq_ok.1 hread
  obtain ⟨⟨htreeLen, -, hk⟩, -⟩ := id htree
  obtain ⟨-, ⟨-, -, hkMax⟩, -⟩ := id hcfg
  rw [holds i (by omega)] at hnode
  have hleaf : leafOf (treeOf s) (leafCount s) s.arg = some i := (leafOf_eq_some htree).2 ⟨hi, w, hnode⟩
  obtain ⟨code, hcode, -, hmany, hone, -⟩ := codeLengthsAreBounded _ _ _ _ htree hi
  have hbody : commandBody s .encsym = .ok _ :=
    encsymBody_eq_ok.2 ⟨htv, treeOf s, hlen, holds, i, hleaf, code, hroot ▸ hcode, rfl⟩
  exact ⟨_, code, exec_of_body hbody, rfl, hcode, Memory.holds_writeRange s.codebuf code, toNat_wordOf (by omega)⟩

end Sys2Proof.Proofs
end

/-! # Proofs of `42_huffman_codec.md`: encoding and decoding undo one another, and ENCSYM, ENCODE, DECODE -/

section
/-! ## What decoding finds (R144, R145, R147) -/

namespace Sys2Proof.Proofs

open Sys2Proof.Machine Sys2Proof.Safety

variable {p : Params} {nodes : List Node} {k root cur c q start : Nat} {b : Bool} {v : Symbol} {w : Weight}
  {bits code rest : List Bool} {d : Decoded}

/-- Settles O30: each Symbol has a leaf, so the encoding is defined, and decoding undoes it. -/
theorem decodingUndoesEncoding : Obligations.DecodingUndoesEncoding := by
  intro p nodes k seq h hseq
  obtain ⟨bits, henc⟩ := exists_encodeFn h hseq
  exact ⟨bits, henc, decodeFn_encodeFn h henc⟩

/-- A bit that leads to a leaf completes a Code: the walk emits the leaf's Symbol and starts again at the root. -/
theorem decodeWalk_cons_leaf (hchild : childAt nodes cur b = some c) (hleaf : nodes[c]? = some (.leaf w v)) :
    decodeWalk nodes root (b :: bits) cur q start = emit v (decodeWalk nodes root bits root (q + 1) (q + 1)) := by
  obtain ⟨_, l, r, hcur, hc⟩ := childAt_eq_some.1 hchild
  simp only [decodeWalk, hcur, ← hc, hleaf]

/-- A bit that leads to an internal node leaves the walk within a Code. -/
theorem decodeWalk_cons_internal {l r : Nat} (hchild : childAt nodes cur b = some c)
    (hinner : nodes[c]? = some (.internal w l r)) :
    decodeWalk nodes root (b :: bits) cur q start = decodeWalk nodes root bits c (q + 1) start := by
  obtain ⟨_, _, _, hcur, hc⟩ := childAt_eq_some.1 hchild
  simp only [decodeWalk, hcur, ← hc, hinner]

/-- No Code begins the bits. -/
def NoCodeBegins (nodes : List Node) (k : Nat) (bits : List Bool) : Prop :=
  ∀ i < k, ∀ code, codeOf nodes (2 * k - 2) k i = some code → ¬ code <+: bits

/-- The answer of decoding the bits that stand in a stream from index `start` on: Symbols whose Codes are the bits, or the
index where, after whole Codes, no Code begins. -/
def Finds (nodes : List Node) (k start : Nat) (bits : List Bool) (d : Decoded) : Prop :=
  (∃ out, d = .ok out ∧ encodeFn nodes (2 * k - 2) k out = some bits) ∨
    ∃ n out, d = .malformed (start + n) ∧ n < bits.length ∧
      encodeFn nodes (2 * k - 2) k out = some (bits.take n) ∧ NoCodeBegins nodes k (bits.drop n)

theorem finds_nil : Finds nodes k start [] (.ok []) := .inl ⟨[], rfl, rfl⟩

theorem finds_malformed (hne : bits ≠ []) (h : NoCodeBegins nodes k bits) :
    Finds nodes k start bits (.malformed start) :=
  .inr ⟨0, [], rfl, List.length_pos_iff.2 hne, rfl, h⟩

/-- A Code in front of the bits gives its Symbol in front of the answer. -/
theorem Finds.emit {i : Nat} (hleaf : leafOf nodes k v = some i) (hcode : codeOf nodes (2 * k - 2) k i = some code)
    (h : Finds nodes k (start + code.length) rest d) : Finds nodes k start (code ++ rest) (emit v d) := by
  rcases h with ⟨out, rfl, henc⟩ | ⟨n, out, rfl, hn, henc, hnone⟩
  · exact .inl ⟨v :: out, rfl, encodeFn_cons.2 ⟨i, code, rest, hleaf, hcode, henc, rfl⟩⟩
  · refine .inr ⟨code.length + n, v :: out, by rw [Machine.emit, Nat.add_assoc], by simpa using hn, ?_, ?_⟩
    · rw [List.take_length_add_append]
      exact encodeFn_cons.2 ⟨i, code, rest.take n, hleaf, hcode, henc, rfl⟩
    · rwa [List.drop_length_add_append]

/-- Bits that lead from the root to an internal node do not begin with a Code: no walk leads on from a leaf. -/
theorem noCodeBegins_of_walkDown (h : TreeOk p nodes k) (hk : 2 ≤ k) (hwalk : walkDown nodes (2 * k - 2) bits = some cur)
    (hcur : k ≤ cur) : NoCodeBegins nodes k bits := by
  rintro i hi code hcode ⟨more, rfl⟩
  rw [codeOf, if_neg (by omega)] at hcode
  rw [walkDown_append, walkDown_of_pathUp hcode] at hwalk
  exact absurd (walkDown_leaf h hi hwalk) (by omega)

/-- Two or more leaves (R144): the walk stands at the node `cur` to which the bits `done`, which are no whole Code, have led
from the root. -/
theorem finds_decodeWalk (h : TreeOk p nodes k) (hk : 2 ≤ k) {done : List Bool}
    (hwalk : walkDown nodes (2 * k - 2) done = some cur) (hcur : k ≤ cur ∧ cur < nodes.length) :
    Finds nodes k start (done ++ bits) (decodeWalk nodes (2 * k - 2) bits cur (start + done.length) start) := by
  obtain ⟨hlen, -⟩ := h.1
  induction bits generalizing cur start done with
  | nil =>
    rw [List.append_nil, decodeWalk]
    by_cases hroot : cur = 2 * k - 2
    · obtain rfl : done = [] := walkDown_injective h hwalk (congrArg some hroot.symm)
      rw [if_pos hroot]
      exact finds_nil
    · have hne : done ≠ [] := by
        rintro rfl
        exact hroot (Option.some.inj hwalk).symm
      rw [if_neg hroot]
      exact finds_malformed hne (noCodeBegins_of_walkDown h hk hwalk hcur.1)
  | cons b bits ih =>
    obtain ⟨w, l, r, hn⟩ := exists_internal h hcur.1 hcur.2
    obtain ⟨c, hchild⟩ : ∃ c, childAt nodes cur b = some c := ⟨_, childAt_eq_some.2 ⟨w, l, r, hn, rfl⟩⟩
    have hwalk' : walkDown nodes (2 * k - 2) (done ++ [b]) = some c := by
      rw [walkDown_append_singleton, hwalk, Option.bind_some, hchild]
    obtain ⟨-, hlt, -⟩ := childAt_lt h hchild
    rw [List.append_cons]
    have hnext : start + done.length + 1 = start + (done ++ [b]).length := by simp [Nat.add_assoc]
    rcases Nat.lt_or_ge c k with hck | hck
    · obtain ⟨w', v, hleaf⟩ := exists_leaf h hck
      have hcode : codeOf nodes (2 * k - 2) k c = some (done ++ [b]) := by
        rw [codeOf, if_neg (by omega), pathOf_eq_some h (by omega), hwalk']
      rw [decodeWalk_cons_leaf hchild hleaf, hnext]
      exact Finds.emit ((leafOf_eq_some h).2 ⟨hck, w', hleaf⟩) hcode (ih (done := []) rfl (by omega))
    · obtain ⟨w', l', r', hinner⟩ := exists_internal h hck (by omega)
      rw [decodeWalk_cons_internal hchild hinner, hnext]
      exact ih hwalk' (by omega)

/-- One leaf (R145): the bit 0 is the one Code, and no Code begins at a bit 1. -/
theorem finds_decodeOneLeaf (h : TreeOk p nodes 1) (hleaf : nodes[0]? = some (.leaf w v)) :
    Finds nodes 1 start bits (decodeOneLeaf v bits start) := by
  induction bits generalizing start with
  | nil => exact finds_nil
  | cons b bits ih =>
    cases b with
    | false => exact Finds.emit (code := [false]) ((leafOf_eq_some h).2 ⟨Nat.one_pos, w, hleaf⟩) rfl ih
    | true =>
      refine finds_malformed (List.cons_ne_nil _ _) fun i _ code hcode => ?_
      obtain rfl : [false] = code := Option.some.inj hcode
      simp

theorem finds_decodeFn (h : TreeOk p nodes k) (bits : List Bool) :
    Finds nodes k 0 bits (decodeFn nodes (2 * k - 2) k bits) := by
  obtain ⟨hlen, hk, -⟩ := h.1
  rw [decodeFn]
  split
  · exact finds_decodeWalk (done := []) h ‹_› rfl (by omega)
  · obtain rfl : k = 1 := by omega
    obtain ⟨w, v, hleaf⟩ := exists_leaf h (i := 0) (by omega)
    rw [if_pos rfl, List.head?_eq_getElem?, hleaf]
    exact finds_decodeOneLeaf h hleaf

/-- Settles O31: each Code that ends at a leaf is one Symbol more, and the bits after the last such end lead to an internal
node, so no Code begins them. -/
theorem decodingFindsCodesOrTheFirstIncompleteOne : Obligations.DecodingFindsCodesOrTheFirstIncompleteOne := by
  intro p nodes k bits h
  rcases finds_decodeFn h bits with hok | ⟨q, out, hdec, hq, henc, hnone⟩
  · exact .inl hok
  · rw [Nat.zero_add] at hdec
    exact .inr ⟨q, out, hdec, hq, henc, hnone⟩

end Sys2Proof.Proofs
end

section
/-! ## What ENCSYM, ENCODE and DECODE leave, and their errors (R141, R143, R146) -/

namespace Sys2Proof.Proofs

open Sys2Proof.Machine Sys2Proof.Safety

variable {s : State}

/-- What a command finds with `TV = 1`, in every configuration: `ROOT` is below `NNODES`, so its register holds it exactly
(R37). -/
theorem treeInv_reads (h : TreeInv s) (htv : s.tv = true) :
    (treeOf s).length = s.nnodes.toNat ∧ Holds s.node (treeOf s) ∧ TreeOk s.cfg (treeOf s) (leafCount s) ∧
      s.root.toNat = 2 * leafCount s - 2 := by
  obtain ⟨hwritten, htree, hroot⟩ := h.2 htv
  obtain ⟨hlen, holds⟩ := readTree_eq_ok.1 (readTree_eq_treeOf hwritten)
  have hlt : s.nnodes.toNat < 2 ^ 32 := s.nnodes.isLt
  exact ⟨hlen, holds, htree, by rw [hroot, leafCount, toNat_wordOf (by omega)]⟩

/-- Settles O33: the tree is asked for first, and `leaf_of` finds no leaf where none holds the Symbol. -/
theorem encsymErrors : Obligations.EncsymErrors := by
  refine fun s => ⟨fun htv => ?noTree, fun hinv htv hnone => ?unknown⟩
  case noTree => exact exec_of_raise (i := .encsym) (encsymBody_eq_raise.2 ⟨rfl, .inl ⟨htv, rfl⟩⟩)
  case unknown =>
    obtain ⟨hlen, holds, htree, -⟩ := treeInv_reads hinv htv
    exact exec_of_raise (i := .encsym)
      (encsymBody_eq_raise.2 ⟨rfl, .inr ⟨htv, rfl, treeOf s, hlen, holds, (leafOf_eq_none htree).2 hnone⟩⟩)

/-- `encode_fn` is the concatenation of the Codes of the Symbols' leaves, in order (R142). -/
theorem encodeFn_eq_flatten {nodes : List Node} {root k : Nat} {seq : List Symbol} {codes : List (List Bool)}
    (h : List.Forall₂ (fun v code => ∃ i, leafOf nodes k v = some i ∧ codeOf nodes root k i = some code) seq codes) :
    encodeFn nodes root k seq = some codes.flatten := by
  induction h with
  | nil => rfl
  | cons hv _ ih =>
    obtain ⟨i, hleaf, hcode⟩ := hv
    exact encodeFn_cons.2 ⟨i, _, _, hleaf, hcode, ih, List.flatten_cons⟩

/-- Settles O34: the leaves given are those `leaf_of` finds, so the Codes given make up the encoding. -/
theorem encodeConcatenatesTheCodes : Obligations.EncodeConcatenatesTheCodes := by
  intro s seq codes hcfg hinv htv hlen hseq hmax hcodesLen hcodes hbits
  obtain ⟨hnodes, holds, htree, -⟩ := treeInv_reads hinv htv
  obtain ⟨⟨htreeLen, -⟩, -⟩ := id htree
  have henc : encodeFn (treeOf s) (2 * leafCount s - 2) (leafCount s) seq = some codes.flatten := by
    refine encodeFn_eq_flatten (List.forall₂_iff_get.2 ⟨hcodesLen.symm, fun j hj hj' => ?_⟩)
    obtain ⟨i, w, v, hi, hv, hnode, hcode⟩ := hcodes j hj
    rw [holds i (by omega)] at hnode
    rw [List.getElem?_eq_getElem hj, Option.some.injEq] at hv
    subst hv
    exact ⟨i, (leafOf_eq_some htree).2 ⟨hi, w, hnode⟩, hcode.trans (List.getElem?_eq_getElem hj')⟩
  obtain ⟨t, hexec, herr, -, hnbits, hstream⟩ := exists_encode hcfg hinv htv hlen hseq (hlen ▸ hmax) henc hbits
  exact ⟨t, hexec, herr, hstream, hnbits.symm⟩

/-- The look-up raises at a Symbol that is in no leaf, when the Symbols before it have leaves (R143). -/
theorem lookUp_of_unknown {nodes : List Node} {p : Params} {seq : List Symbol} {v : Symbol} {n : Nat}
    (h : TreeOk p nodes (leafCount s)) (hn : seq.length < n) (hseq : Holds s.seqin (seq ++ [v]))
    (hknown : ∀ u ∈ seq, HasLeaf nodes (leafCount s) u) (hunknown : ¬ HasLeaf nodes (leafCount s) v) :
    lookUp s nodes 0 n = .error (.error .unknownSymbol (wordOf seq.length)) := by
  refine lookUp_eq_raise.2 ⟨rfl, seq.length, hn, by rw [Nat.zero_add], ⟨v, ?_, (leafOf_eq_none h).2 hunknown⟩,
    fun j hj => ?_⟩
  · rw [Nat.zero_add, hseq _ (by simp), List.getElem?_concat_length]
  · obtain ⟨i, hi, w, hleaf⟩ := hknown seq[j] (List.getElem_mem hj)
    refine ⟨seq[j], i, ?_, (leafOf_eq_some h).2 ⟨hi, w, hleaf⟩⟩
    rw [Nat.zero_add, hseq j (by simp; omega), List.getElem?_append_left hj, List.getElem?_eq_getElem hj]

/-- Settles O35, check by check. -/
theorem encodeErrors : Obligations.EncodeErrors := by
  refine fun s => ⟨fun htv => ?noTree, fun htv hmax => ?tooMany, fun hinv htv hmax => ?_⟩
  case noTree => exact exec_of_raise (i := .encode) (encodeBody_eq_raise.2 (.inl ⟨htv, rfl, rfl⟩))
  case tooMany => exact exec_of_raise (i := .encode) (encodeBody_eq_raise.2 (.inr (.inl ⟨htv, hmax, rfl, rfl⟩)))
  obtain ⟨hnodes, holds, htree, hroot⟩ := treeInv_reads hinv htv
  refine ⟨fun seq v hlen hseq hknown hunknown => ?unknown, fun seq bits hlen hseq henc hbits => ?tooLong⟩
  case unknown =>
    exact exec_of_raise (i := .encode) (encodeBody_eq_raise.2 (.inr (.inr ⟨htv, hmax, treeOf s, hnodes, holds,
      .inl (lookUp_of_unknown htree hlen hseq hknown hunknown)⟩)))
  case tooLong =>
    obtain ⟨leaves, hleaves, hcodes⟩ := exists_leaves_of_encodeFn henc
    exact exec_of_raise (i := .encode) (encodeBody_eq_raise.2 (.inr (.inr ⟨htv, hmax, treeOf s, hnodes, holds,
      .inr ⟨leaves, hlen ▸ lookUp_of_holds hseq hleaves, bits, hroot ▸ hcodes, hbits, rfl, rfl⟩⟩)))

/-- Settles O36: decoding undoes the encoding, and a length within `SEQ_MAX` fits `OUTLEN`. -/
theorem decodeGivesTheSequence : Obligations.DecodeGivesTheSequence := by
  intro s seq bits hcfg hinv htv hlen hstream hmax henc hout
  obtain ⟨-, -, htree, -⟩ := treeInv_reads hinv htv
  obtain ⟨t, hexec, herr, -, houtlen, hsymout⟩ :=
    exists_decode hcfg hinv htv hlen hstream (hlen ▸ hmax) (decodeFn_encodeFn htree henc) hout
  obtain ⟨-, -, -, ⟨-, hseqMax⟩, -⟩ := hcfg
  exact ⟨t, hexec, herr, hsymout, by rw [houtlen, toNat_wordOf (by omega)]⟩

/-- Settles O37, check by check. -/
theorem decodeErrors : Obligations.DecodeErrors := by
  refine fun s => ⟨fun htv => ?noTree, fun htv hmax => ?tooLong, fun bits hinv htv hlen hstream hmax => ?_⟩
  case noTree => exact exec_of_raise (i := .decode) (decodeBody_eq_raise.2 (.inl ⟨htv, rfl, rfl⟩))
  case tooLong => exact exec_of_raise (i := .decode) (decodeBody_eq_raise.2 (.inr (.inl ⟨htv, hmax, rfl, rfl⟩)))
  obtain ⟨hnodes, holds, -, hroot⟩ := treeInv_reads hinv htv
  rw [← hroot]
  refine ⟨fun q hdec => ?malformed, fun out hdec hout => ?tooMany⟩
  case malformed =>
    exact exec_of_raise (i := .decode) (decodeBody_eq_raise.2 (.inr (.inr ⟨htv, hmax, bits, hlen, hstream, treeOf s,
      hnodes, holds, .inl ⟨q, hdec, rfl, rfl⟩⟩)))
  case tooMany =>
    exact exec_of_raise (i := .decode) (decodeBody_eq_raise.2 (.inr (.inr ⟨htv, hmax, bits, hlen, hstream, treeOf s,
      hnodes, holds, .inr ⟨out, hdec, hout, rfl, rfl⟩⟩)))

end Sys2Proof.Proofs
end

/-! # Proofs of `43_bitpacker.md`: PACK, UNPACK and TRIM, and the way through the Grid and back -/

section
/-! ## The errors of PACK, UNPACK, TRIM, TOGRID and FROMGRID, and TRIM whole (R162 to R168, R181, R185) -/

namespace Sys2Proof.Proofs

open Sys2Proof.Machine Sys2Proof.Safety

/-- Settles O45: each command checks its length, or product of lengths, first; UNPACK then checks the framing. -/
theorem packerAndGridErrors : Obligations.PackerAndGridErrors := by
  refine fun s => ⟨fun hmax => ?pack, fun hmax => ?unpack, fun hmax hne => ?unpackFraming, fun hmax => ?togrid,
    fun hmax => ?fromgrid⟩
  case pack => exact exec_of_raise (i := .pack) (packBody_eq_raise.2 ⟨hmax, rfl, rfl⟩)
  case unpack => exact exec_of_raise (i := .unpack) (unpackBody_eq_raise.2 (.inl ⟨hmax, rfl, rfl⟩))
  case unpackFraming => exact exec_of_raise (i := .unpack) (unpackBody_eq_raise.2 (.inr ⟨hmax, hne, rfl, rfl⟩))
  case togrid => exact exec_of_raise (i := .togrid) (togridBody_eq_raise.2 ⟨hmax, rfl, rfl⟩)
  case fromgrid => exact exec_of_raise (i := .fromgrid) (fromgridBody_eq_raise.2 ⟨hmax, rfl, rfl⟩)

/-- Settles O40: the word is the encoder's, and the two checks precede the one write. -/
theorem trimSetsTheCellCount : Obligations.TrimSetsTheCellCount := by
  refine ⟨decode_encode .trim, fun s => ⟨fun hmax => ?tooMany, fun hmax hlt => ?framing, fun hmax hle => ?done⟩⟩
  case tooMany => exact exec_of_raise (i := .trim) (trimBody_eq_raise.2 (.inl ⟨hmax, rfl, rfl⟩))
  case framing => exact exec_of_raise (i := .trim) (trimBody_eq_raise.2 (.inr ⟨hmax, hlt, rfl, rfl⟩))
  case done => exact exec_of_body (i := .trim) (trimBody_eq_ok.2 ⟨hmax, hle, rfl⟩)

end Sys2Proof.Proofs
end

section
/-! ## Cells and streams bit by bit (R161, R163) -/

namespace Sys2Proof.Proofs

open Sys2Proof.Machine Sys2Proof.Safety

variable {bits : List Bool} {cells : List Cell}

/-- Bit `q` of a chunk stands in its Cell with `q` meaningful bits above it (R161). -/
theorem getElem?_eq_getLsbD_chunk {j q : Nat} (hq : q < chunkLength bits.length j) :
    bits[24 * j + q]? =
      some ((BitVec.ofNat 24 (bitsVal (chunk bits j))).getLsbD (chunkLength bits.length j - 1 - q)) := by
  rw [← length_chunk] at hq ⊢
  have hchunk : (chunk bits j)[q]? = bits[24 * j + q]? := by
    rw [chunk, List.getElem?_take_of_lt, List.getElem?_drop, cellW]
    exact hq.trans_le (List.length_take_le _ _)
  rw [BitVec.getLsbD, toNat_cell_chunk, testBit_bitsVal _ _ (by omega), ← hchunk, List.getElem?_eq_getElem hq]
  congr 2
  omega

/-- The Cell of a chunk is zero above the chunk's bits: zero-left-padded (R161). -/
theorem getLsbD_chunk_padding {j q : Nat} (hq : chunkLength bits.length j ≤ q) :
    (BitVec.ofNat 24 (bitsVal (chunk bits j))).getLsbD q = false := by
  rw [← length_chunk] at hq
  rw [BitVec.getLsbD, toNat_cell_chunk]
  exact Nat.testBit_lt_two_pow ((bitsVal_lt _).trans_le (Nat.pow_le_pow_right (by decide) hq))

/-- Where the parts before part `m` of a concatenation all have length `w`, part `m` begins at index `w * m`. -/
theorem getElem?_flatMap_of_length_eq {α β : Type} {w r : Nat} {f : β → List α} {b : β} (hr : r < (f b).length) :
    ∀ {l : List β} {m : Nat}, l[m]? = some b → (∀ i < m, ∀ e, l[i]? = some e → (f e).length = w) →
      (l.flatMap f)[w * m + r]? = (f b)[r]?
  | e :: l, 0, hb, _ => by
    cases hb
    rw [List.flatMap_cons, Nat.mul_zero, Nat.zero_add, List.getElem?_append_left hr]
  | e :: l, m + 1, hb, hw => by
    have he : (f e).length = w := hw 0 m.succ_pos e rfl
    rw [List.flatMap_cons, Nat.mul_succ, List.getElem?_append_right (by omega),
      show w * m + w + r - (f e).length = w * m + r by omega]
    exact getElem?_flatMap_of_length_eq hr hb fun i hi => hw (i + 1) (Nat.succ_lt_succ hi)

/-- Bit `q` of an unpacked stream comes from Cell `q / 24`: the Cells before it give 24 bits each (R163). -/
theorem getElem?_unpackFn {t q : Nat} {c : Cell} (hlen : cells.length = cdiv t cellW) (hq : q < t)
    (hc : cells[q / 24]? = some c) :
    (unpackFn cells t)[q]? = some (c.getLsbD (chunkLength t (q / 24) - 1 - q % 24)) := by
  obtain ⟨hj, -⟩ := List.getElem?_eq_some_iff.1 hc
  have hmeaningful : meaningful cells.length t (q / 24) = chunkLength t (q / 24) := by
    rw [hlen]
    exact meaningful_eq_chunkLength (hlen ▸ hj)
  have hr : q % 24 < chunkLength t (q / 24) := by
    unfold chunkLength
    omega
  suffices h : (unpackFn cells t)[24 * (q / 24) + q % 24]? = some (c.getLsbD (chunkLength t (q / 24) - 1 - q % 24)) by
    rwa [Nat.div_add_mod] at h
  refine (getElem?_flatMap_of_length_eq (b := (c, q / 24)) ?own ?cell fun i hi e he => ?before).trans ?bit
  case own => rwa [length_bitsOf, hmeaningful]
  case cell => simp [hc]
  case before =>
    rw [List.getElem?_zipIdx, Option.map_eq_some_iff] at he
    obtain ⟨d, -, rfl⟩ := he
    rw [length_bitsOf, meaningful, if_pos (by omega), cellW]
  case bit =>
    rw [hmeaningful]
    exact getElem?_bitsOf c.toNat hr

end Sys2Proof.Proofs
end

section
/-! ## PACK, UNPACK, and one after the other (R162, R165, R169) -/

namespace Sys2Proof.Proofs

open Sys2Proof.Machine Sys2Proof.Safety

variable {s : State} {bits : List Bool}

/-- `exists_pack` without its premise on the configuration: a stream has no fewer bits than Cells, so the number of its
Cells fits `NCELLS` (R162). -/
theorem exists_pack_of_nbits_le (hlen : bits.length = s.nbits.toNat) (hstream : Holds s.bitbuf bits)
    (hmax : s.nbits.toNat ≤ bitsMax s.cfg) :
    ∃ t, exec .pack s = .next t ∧ t.err = 0 ∧ t.cfg = s.cfg ∧ t.totalbits = s.nbits ∧
      (packFn bits).length = t.ncells.toNat ∧ Holds t.cellbuf (packFn bits) := by
  have hle : (packFn bits).length ≤ bits.length := length_packFn bits ▸ cdiv_le_self (by decide) _
  have hbody : commandBody s .pack = .ok _ := packBody_eq_ok.2 ⟨hmax, bits, hlen, hstream, rfl⟩
  exact ⟨_, exec_of_body hbody, rfl, rfl, wordOf_toNat s.nbits, (toNat_wordOf (by omega)).symm,
    Memory.holds_writeRange s.cellbuf _⟩

/-- Cell `j` of a packed stream is the number that chunk `j` spells (R161). -/
theorem getElem?_packFn {j : Nat} (hj : j < (packFn bits).length) :
    (packFn bits)[j]? = some (BitVec.ofNat 24 (bitsVal (chunk bits j))) := by
  rw [length_packFn] at hj
  simp [packFn, hj]

/-- Settles O38, Cell by Cell. -/
theorem packPlacesTheStreamBits : Obligations.PackPlacesTheStreamBits := by
  intro s bits hlen hstream hmax
  obtain ⟨t, hexec, herr, -, htotal, hncells, hcells⟩ := exists_pack_of_nbits_le hlen hstream hmax
  refine ⟨t, hexec, herr, htotal, by rw [← hncells, length_packFn, hlen, cellW], fun j hj => ?_⟩
  rw [← hncells] at hj
  exact ⟨_, (hcells j hj).trans (getElem?_packFn hj), fun q => getElem?_eq_getLsbD_chunk, fun q => getLsbD_chunk_padding⟩

/-- Settles O39: bit `q` comes from Cell `q / 24`. -/
theorem unpackReadsTheStreamBits : Obligations.UnpackReadsTheStreamBits := by
  intro s cells hlen hcells hmax hneeded
  have hneeded' : cells.length = cdiv s.totalbits.toNat cellW := hlen.trans hneeded
  obtain ⟨t, hexec, herr, -, hstream, hnbits⟩ := exists_unpack hlen hcells (hlen ▸ hmax) hneeded'
  refine ⟨t, hexec, herr, hnbits, fun q hq => ?_⟩
  have hle : s.totalbits.toNat ≤ cells.length * 24 := hneeded' ▸ le_cdiv_mul (by decide) _
  have hc : cells[q / 24]? = some cells[q / 24] := List.getElem?_eq_getElem (by omega)
  exact ⟨_, hc, (hstream q (by rwa [length_unpackFn hneeded'])).trans (getElem?_unpackFn hneeded' hq hc)⟩

/-- Settles O41: PACK leaves a consistent framing, and unpacking undoes packing. -/
theorem packThenUnpackRestoresTheStream : Obligations.PackThenUnpackRestoresTheStream := by
  intro s bits hlen hstream hmax
  obtain ⟨t, hpack, hterr, htcfg, htotal, hncells, hcells⟩ := exists_pack_of_nbits_le hlen hstream hmax
  have hneeded : (packFn bits).length = cdiv t.totalbits.toNat cellW := by rw [htotal, ← hlen, length_packFn]
  obtain ⟨u, hunpack, huerr, -, hback, hnbits⟩ :=
    exists_unpack hncells hcells (htcfg ▸ length_packFn_le (hlen ▸ hmax)) hneeded
  rw [htotal, ← hlen, unpackFn_packFn] at hback
  exact ⟨t, u, hpack, hterr, hunpack, huerr, hback, hnbits.trans htotal⟩

end Sys2Proof.Proofs
end

section
/-! ## Through the Grid and back (R181, R185, R187) -/

namespace Sys2Proof.Proofs

open Sys2Proof.Machine Sys2Proof.Safety

/-- The positions of a Grid beyond its Cells hold the marker (R182). -/
theorem getElem?_gridCells_padding {cells : List Cell} {p : Nat} (hp : cells.length ≤ p)
    (hlt : p < (gridCells cells).length) : (gridCells cells)[p]? = some marker := by
  rw [length_gridCells] at hlt
  simp [gridCells, hlt, hp]

/-- Settles O46: FROMGRID copies the Grid, which begins with the Cells, and TRIM cuts `NCELLS` back to their number. -/
theorem gridRoundTrip : Obligations.GridRoundTrip := by
  intro s cells hcfg hlen hcells hmax hfit hneeded
  obtain ⟨t, htogrid, hterr, hst, hgw, hgh, hgrid, httotal⟩ := exists_togrid hlen hcells (hlen ▸ hmax)
  have htcfg : t.cfg = s.cfg := hst.1
  have hsize : (gridCells cells).length = t.gw.toNat * t.gh.toNat := by rw [length_gridCells, hgw, hgh]
  obtain ⟨u, hfromgrid, huerr, htu, huncells, hucells, -, hutotal⟩ :=
    exists_fromgrid (htcfg ▸ hcfg) hsize hgrid (by rwa [length_gridCells, htcfg])
  have hucfg : u.cfg = s.cfg := (hst.trans htu).1
  have hneeded' : cellsNeeded u = cells.length := by rw [cellsNeeded, hutotal, httotal]; exact hneeded
  have hprefix := prefix_gridCells cells
  obtain ⟨v, htrim, hverr, -, hvncells, hvbuf, -⟩ := exists_trim (s := u)
    (by rwa [← huncells, length_gridCells, hucfg]) (by rw [hneeded', ← huncells]; exact hprefix.length_le)
  have hback : Holds u.cellbuf cells := holds_of_prefix hucells hprefix
  refine ⟨t, u, v, htogrid, hfromgrid, htrim, hterr, huerr, hverr, hsize ▸ hprefix.length_le, huncells.symm.trans hsize,
    hback, fun p hp hlt => ?_, hvbuf ▸ hback, BitVec.eq_of_toNat_eq ?_⟩
  · rw [← huncells] at hlt
    exact (hucells p hlt).trans (getElem?_gridCells_padding hp hlt)
  · rw [← hvncells, hneeded', hlen]

end Sys2Proof.Proofs
end

/-! # Proofs of `44_gridlayout.md`: the dimensions of a Grid, and what TOGRID and FROMGRID leave -/

section
/-! ## The dimensions of a Grid (R180, R183) -/

namespace Sys2Proof.Proofs

open Sys2Proof.Machine Sys2Proof.Safety

/-- The width is the least one whose square has room for the Cells (R180). -/
theorem gridWidth_le_iff (n w : Nat) : gridWidth n ≤ w ↔ n ≤ w ^ 2 := by
  rw [pow_two]
  exact csqrt_le_iff n w

/-- The height is the least one that gives the Cells room at that width; the empty Grid is no exception (R180). -/
theorem gridHeight_le_iff (n h : Nat) : gridHeight n ≤ h ↔ n ≤ h * gridWidth n := by
  rw [gridHeight]
  split
  · simp [*]
  · exact cdiv_le_iff (gridWidth_pos ‹_›) n h

theorem le_gridWidth_sq (n : Nat) : n ≤ gridWidth n ^ 2 :=
  (gridWidth_le_iff n _).1 le_rfl

/-- The padding does not fill the last row: one row less would have no room for the Cells (R183, fact 2). -/
theorem gridWidth_mul_gridHeight_sub_lt {n : Nat} (h : n ≠ 0) : gridWidth n * gridHeight n - n < gridWidth n := by
  have hwidth : 0 < gridWidth n := gridWidth_pos h
  have hroom := le_gridWidth_mul_gridHeight n
  obtain ⟨rows, hrows⟩ : ∃ rows, gridHeight n = rows + 1 :=
    Nat.exists_eq_succ_of_ne_zero fun h0 => by simp [h0, h] at hroom
  have hless : ¬ n ≤ rows * gridWidth n := by
    rw [← gridHeight_le_iff]
    omega
  rw [hrows, Nat.mul_succ, Nat.mul_comm]
  omega

/-- Two rows short of square, a Grid would have less room than the next smaller square (R183, fact 3). -/
theorem gridWidth_sub_one_le_gridHeight (n : Nat) : gridWidth n - 1 ≤ gridHeight n := by
  by_contra hlow
  obtain ⟨w, hw⟩ : ∃ w, gridWidth n = w + 2 := Nat.exists_eq_add_of_le' (by omega)
  have hroom : n ≤ w * gridWidth n := (gridHeight_le_iff n w).1 (by omega)
  have hsquare : w * gridWidth n ≤ (w + 1) ^ 2 := by
    rw [hw]
    linarith
  have := (gridWidth_le_iff n (w + 1)).2 (hroom.trans hsquare)
  omega

/-- Settles O42, fact by fact. -/
theorem gridDimensions : Obligations.GridDimensions := by
  intro n hn
  have hne : n ≠ 0 := Nat.one_le_iff_ne_zero.1 hn
  have hwidth : 0 < gridWidth n := gridWidth_pos hne
  have hle := gridHeight_le_gridWidth n
  have hge := gridWidth_sub_one_le_gridHeight n
  have hless : ¬ n ≤ (gridWidth n - 1) ^ 2 := by
    rw [← gridWidth_le_iff]
    omega
  refine ⟨⟨Nat.lt_of_not_le hless, le_gridWidth_sq n⟩,
    ⟨le_gridWidth_mul_gridHeight n, gridWidth_mul_gridHeight_sub_lt hne⟩, by omega, fun p hp => ⟨?_, ?_, rfl⟩⟩
  · rw [pow_two]
    exact Nat.mul_le_mul_left _ hle
  · exact Nat.pow_le_pow_left (csqrt_le_csqrt hp) 2

end Sys2Proof.Proofs
end

section
/-! ## TOGRID and FROMGRID (R181, R182, R184, R185) -/

namespace Sys2Proof.Proofs

open Sys2Proof.Machine Sys2Proof.Safety

variable {cells : List Cell}

/-- Settles O43: the Grid begins with the Cells, and its other positions are padding. -/
theorem togridPlacesTheCells : Obligations.TogridPlacesTheCells := by
  intro s cells hlen hcells hmax
  obtain ⟨t, hexec, herr, -, hgw, hgh, hgrid, -⟩ := exists_togrid hlen hcells (hlen ▸ hmax)
  refine ⟨t, hexec, herr, ?_⟩
  rw [hgw, hgh]
  refine ⟨le_gridWidth_sq _, fun w => (gridWidth_le_iff _ w).2, (gridHeight_le_iff _ _).1 le_rfl,
    fun h => (gridHeight_le_iff _ h).2, holds_of_prefix hgrid (prefix_gridCells cells), fun p hp hlt => ?_⟩
  rw [← length_gridCells] at hlt
  exact (hgrid p hlt).trans (getElem?_gridCells_padding hp hlt)

/-- No Cell before `count` is a marker (R184). -/
theorem getElem?_ne_marker_of_lt_firstMarker {p : Nat} (hp : p < firstMarker cells) : cells[p]? ≠ some marker := by
  intro hget
  obtain ⟨hlt, hmarker⟩ := List.getElem?_eq_some_iff.1 hget
  have hne : (cells[p] == marker) = false := List.not_of_lt_findIdx hp
  simp [hmarker] at hne

/-- `count` is the position of a marker unless no Cell is one (R184). -/
theorem firstMarker_eq_length_or_getElem?_eq (cells : List Cell) :
    firstMarker cells = cells.length ∨ cells[firstMarker cells]? = some marker := by
  rcases Nat.eq_or_lt_of_le (List.findIdx_le_length : firstMarker cells ≤ cells.length) with heq | hlt
  · exact .inl heq
  · have hmarker : (cells[firstMarker cells] == marker) = true := List.findIdx_getElem (w := hlt)
    exact .inr (List.getElem?_eq_some_iff.2 ⟨hlt, by simpa using hmarker⟩)

/-- Settles O44: `PADIDX` is the `count` of R184. -/
theorem fromgridCopiesTheGrid : Obligations.FromgridCopiesTheGrid := by
  intro s cells hlen hgrid hcfg hmax
  obtain ⟨t, hexec, herr, -, hncells, hcells, hpad, -⟩ := exists_fromgrid hcfg hlen hgrid (hlen ▸ hmax)
  refine ⟨t, hexec, herr, hncells.symm.trans hlen, hcells, ?_⟩
  rw [hpad]
  exact ⟨fun p => getElem?_ne_marker_of_lt_firstMarker, firstMarker_eq_length_or_getElem?_eq cells⟩

end Sys2Proof.Proofs
end

section
/-! ## NOP (R195) -/

namespace Sys2Proof.Proofs

open Sys2Proof.Machine

/-- NOP's body writes nothing, so what is left of it is the end of a successful command (R99, R25). -/
theorem exec_nop (s : State) : exec .nop s = .next s.succeed := by
  rw [exec_eq_commit, commandBody, commit_ok]

/-- Settles O6: the word is the encoder's, and a successful command's end clears `ERR` and `EINFO` and nothing else. -/
theorem nopOnlyClearsErrAndEinfo : Obligations.NopOnlyClearsErrAndEinfo :=
  ⟨decode_encode .nop, exec_nop⟩

end Sys2Proof.Proofs
end

/-! # Proofs of `60_exceptions.md`: what a failed command writes and what it may record -/

section
/-! ## The index a malformed stream is reported with (R144, R145, R207) -/

namespace Sys2Proof.Proofs

open Sys2Proof.Machine

variable {nodes : List Node} {root k cur p q start : Nat} {v : Symbol} {bits : List Bool} {d : Decoded}

/-- A Symbol in front of the answer does not move the index reported. -/
theorem emit_eq_malformed : emit v d = .malformed q ↔ d = .malformed q := by
  cases d <;> simp [emit]

/-- The walk reports the start of the Code it stands in: an index of the stream, for away from the root it has taken a bit
of that Code. The nodes need be no tree. -/
theorem lt_of_decodeWalk_malformed (h : decodeWalk nodes root bits cur p start = .malformed q) (hle : start ≤ p)
    (hlt : cur ≠ root → start < p) : q < p + bits.length := by
  induction bits generalizing cur p start with
  | nil =>
    rw [decodeWalk] at h
    split at h
    · cases h
    · cases h
      exact hlt ‹_›
  | cons b bits ih =>
    rw [List.length_cons, Nat.add_comm bits.length, ← Nat.add_assoc]
    simp only [decodeWalk] at h
    split at h
    · split at h
      · exact ih (emit_eq_malformed.1 h) le_rfl fun hne => absurd rfl hne
      · exact ih h (Nat.le_succ_of_le hle) fun _ => Nat.lt_succ_of_le hle
      · cases h
    · cases h
    · cases h

theorem lt_of_decodeOneLeaf_malformed (h : decodeOneLeaf v bits p = .malformed q) : q < p + bits.length := by
  induction bits generalizing p with
  | nil => cases h
  | cons b bits ih =>
    rw [List.length_cons, Nat.add_comm bits.length, ← Nat.add_assoc]
    cases b with
    | false => exact ih (emit_eq_malformed.1 h)
    | true =>
      cases h
      omega

theorem lt_of_decodeFn_malformed (h : decodeFn nodes root k bits = .malformed q) : q < bits.length := by
  rw [← Nat.zero_add bits.length]
  rw [decodeFn] at h
  split at h
  · exact lt_of_decodeWalk_malformed h le_rfl fun hne => absurd rfl hne
  · split at h
    · split at h
      · exact lt_of_decodeOneLeaf_malformed h
      · cases h
      · cases h
    · cases h

end Sys2Proof.Proofs
end

section
/-! ## The commands' errors (R200, R201, R209, R214) -/

namespace Sys2Proof.Proofs

open Sys2Proof.Machine Sys2Proof.Safety

variable {s t : State} {i : Instr} {e : ErrKind} {info : Word}

/-- A command that leaves an error recorded has stopped at a check of its body, and made the three writes of the error. -/
theorem exists_raise_of_exec (h : exec i s = .next t) (herr : t.err ≠ 0) :
    ∃ e info, commandBody s i = .error (.error e info) ∧ t = s.raise e info := by
  rw [exec_eq_commit] at h
  rcases commit_eq_next.1 h with ⟨u, -, rfl⟩ | hraise
  · exact absurd rfl herr
  · exact hraise

/-- Settles O8: the three writes are those of `State.raise`. -/
theorem failedCommandWritesOnlyTheErrorRecord : Obligations.FailedCommandWritesOnlyTheErrorRecord := by
  intro i s t h herr
  obtain ⟨e, info, -, rfl⟩ := exists_raise_of_exec h herr
  rfl

/-- COUNT's row (R112). -/
theorem mayRaise_countBody (h : countBody s = .error (.error e info)) : MayRaise s (errCode e) info .count := by
  obtain ⟨rfl, ⟨-, rfl⟩ | ⟨-, rfl, -⟩⟩ := countBody_eq_raise.1 h
  · exact ⟨rfl, .inl rfl⟩
  · exact ⟨rfl, .inr rfl⟩

/-- BUILD's row (R124): its third check names an entry of the table. -/
theorem mayRaise_buildBody (h : buildBody s = .error (.error e info)) : MayRaise s (errCode e) info .build := by
  rcases buildBody_eq_raise h with ⟨-, rfl, rfl⟩ | ⟨-, -, rfl, rfl⟩ | ⟨-, -, hcheck⟩ | ⟨-, -, -, -, rfl, rfl⟩
  · exact .inl ⟨rfl, rfl⟩
  · exact .inr (.inl ⟨rfl, .inl rfl⟩)
  · obtain ⟨rfl, j, hj, -, hinfo⟩ := checkTable_eq_raise.1 hcheck
    rw [Nat.zero_add] at hinfo
    exact .inr (.inr ⟨rfl, j, hj, hinfo.imp And.right fun ⟨_, _, hrepeat⟩ => hrepeat⟩)
  · exact .inr (.inl ⟨rfl, .inr rfl⟩)

/-- ENCSYM's row (R141). -/
theorem mayRaise_encsymBody (h : encsymBody s = .error (.error e info)) : MayRaise s (errCode e) info .encsym := by
  obtain ⟨rfl, ⟨-, rfl⟩ | ⟨-, rfl, -⟩⟩ := encsymBody_eq_raise.1 h
  · exact ⟨.inl rfl, rfl⟩
  · exact ⟨.inr rfl, rfl⟩

/-- ENCODE's row (R143): the look-up names a position of the sequence. -/
theorem mayRaise_encodeBody (h : encodeBody s = .error (.error e info)) : MayRaise s (errCode e) info .encode := by
  rcases encodeBody_eq_raise.1 h with ⟨-, rfl, rfl⟩ | ⟨-, -, rfl, rfl⟩ |
    ⟨-, -, _, -, -, hlookUp | ⟨_, -, _, -, -, rfl, rfl⟩⟩
  · exact .inl ⟨rfl, rfl⟩
  · exact .inr (.inl ⟨rfl, .inl rfl⟩)
  · obtain ⟨rfl, j, hj, rfl, -⟩ := lookUp_eq_raise.1 hlookUp
    exact .inr (.inr ⟨rfl, j, hj, by rw [Nat.zero_add]⟩)
  · exact .inr (.inl ⟨rfl, .inr rfl⟩)

/-- DECODE's row (R146): a malformed stream is reported with an index of the stream. -/
theorem mayRaise_decodeBody (h : decodeBody s = .error (.error e info)) : MayRaise s (errCode e) info .decode := by
  rcases decodeBody_eq_raise.1 h with ⟨-, rfl, rfl⟩ | ⟨-, -, rfl, rfl⟩ |
    ⟨-, -, bits, hlen, -, _, -, -, ⟨q, hdec, rfl, rfl⟩ | ⟨_, -, -, rfl, rfl⟩⟩
  · exact .inl ⟨rfl, rfl⟩
  · exact .inr (.inl ⟨rfl, .inl rfl⟩)
  · exact .inr (.inr ⟨rfl, q, hlen ▸ lt_of_decodeFn_malformed hdec, rfl⟩)
  · exact .inr (.inl ⟨rfl, .inr rfl⟩)

/-- UNPACK's row (R165). -/
theorem mayRaise_unpackBody (h : unpackBody s = .error (.error e info)) : MayRaise s (errCode e) info .unpack := by
  rcases unpackBody_eq_raise.1 h with ⟨-, rfl, rfl⟩ | ⟨-, -, rfl, rfl⟩
  · exact .inl ⟨rfl, rfl⟩
  · exact .inr ⟨rfl, rfl⟩

/-- TRIM's row (R168). -/
theorem mayRaise_trimBody (h : trimBody s = .error (.error e info)) : MayRaise s (errCode e) info .trim := by
  rcases trimBody_eq_raise.1 h with ⟨-, rfl, rfl⟩ | ⟨-, -, rfl, rfl⟩
  · exact .inl ⟨rfl, rfl⟩
  · exact .inr ⟨rfl, rfl⟩

/-- A check of a command's body raises an error of the command's row. -/
theorem mayRaise_commandBody (h : commandBody s i = .error (.error e info)) : MayRaise s (errCode e) info i := by
  cases i
  case nop => cases h
  case reset => cases h
  case count => exact mayRaise_countBody h
  case build => exact mayRaise_buildBody h
  case encsym => exact mayRaise_encsymBody h
  case encode => exact mayRaise_encodeBody h
  case decode => exact mayRaise_decodeBody h
  case pack => obtain ⟨-, rfl, rfl⟩ := packBody_eq_raise.1 h; exact ⟨rfl, rfl⟩
  case unpack => exact mayRaise_unpackBody h
  case togrid => obtain ⟨-, rfl, rfl⟩ := togridBody_eq_raise.1 h; exact ⟨rfl, rfl⟩
  case fromgrid => obtain ⟨-, rfl, rfl⟩ := fromgridBody_eq_raise.1 h; exact ⟨rfl, rfl⟩
  case trim => exact mayRaise_trimBody h

/-- Settles O10: the error recorded is the one a check of the body raised. -/
theorem commandsRaiseOnlyTheirErrors : Obligations.CommandsRaiseOnlyTheirErrors := by
  intro i s t h herr
  obtain ⟨e, info, hbody, rfl⟩ := exists_raise_of_exec h herr
  exact mayRaise_commandBody hbody

end Sys2Proof.Proofs
end
